-- ==== Sys2Proof/Word.lean ====
section
/-! DEFINITION. The words of the block: bytes, 16-bit header fields, 24-bit colours and 32-bit registers
(spec/00_scope.md R7, R8; spec/10_state.md R21). Arithmetic in the rules is on exact integers (R8), so every
register is read into Nat or Int before anything is computed with it. -/

namespace Sys2Proof

/-- A byte of the stream, of the scratch buffer or of the output space (R7). -/
abbrev Byte := BitVec 8

/-- A 16-bit header field as its register holds it (R24). -/
abbrev Half := BitVec 16

/-- The 24 held bits of a palette or colour-table entry: red [7:0], green [15:8], blue [23:16] (R32, R33). -/
abbrev Rgb := BitVec 24

/-- A 32-bit host-visible register (R21). -/
abbrev Word := BitVec 32

end Sys2Proof
end

