-- ==== Sys2Proof/Config.lean ====
section
/-! DEFINITION. What an implementation fixes: the constants and the open parameters of spec/00_scope.md R6, and
the free values of the model. The open parameters are a record held in State (the spec: "A model takes these
parameters as arguments"), so every statement holds for every choice of them. -/

namespace Sys2Proof.Config

/-- R6 `PAL_CAP`: colour-table capacity in entries. -/
def palCap : Nat := 256

/-- R6 `HEADER_SIZE`: header length in bytes (host side). -/
def headerSize : Nat := 128

/-- R6 `PAL_MARKER`: the byte before a trailing table. -/
def palMarker : Byte := 12

/-- R6 `PAL_TRAILER`: trailing-table length in bytes. -/
def palTrailer : Nat := 768

/-- R6 `ZERO_RUN_POLICY`: the meaning of control byte 0xC0 (R135, spec/92 D15). -/
inductive ZeroRunPolicy where
  | nop
  | corrupt
  | fillRest
deriving DecidableEq, Repr

/-- The OPEN parameters of R6. Their ranges are the model's choice, log entry 1: each size is any natural number. The
spec leaves OUT_SIZE open and fixes output addresses at 32 bits (D18); with OUT_SIZE above `2^32` START accepts rows, and
the engine stores them, at addresses that do not fit in 32 bits. -/
structure Params where
  /-- `SCRATCH_CAP`, bytes of the scratch buffer (D11). -/
  scratchCap : Nat
  /-- `OUT_SIZE`, bytes of the output byte space (D18). -/
  outSize : Nat
  /-- `STREAM_SPACE`, bytes of the stream byte space (D13). -/
  streamSpace : Nat
  /-- `ZERO_RUN_POLICY` (D15). -/
  zeroRunPolicy : ZeroRunPolicy
deriving DecidableEq, Repr

/-- The parameters State.reset carries: R6's defaults where it gives one (131068, NOP); where it gives none
(OUT_SIZE, STREAM_SPACE) the whole 32-bit address space. DESIGN CHOICE, log entry 1. -/
def Params.default : Params :=
  { scratchCap := 131068, outSize := 4294967296, streamSpace := 4294967296, zeroRunPolicy := .nop }

/-- FREE VALUE. What scratch byte `i` holds after the `n`-th reset, before VALIDATE zeroes the buffer: "unspecified
(any value)" (R30, R290, spec/93 U8). Log entry 2. -/
opaque scratchAtReset : Nat → Nat → Byte

/-- FREE VALUE. The `k`-th stream byte the host changed while the block was busy: the engine reads "any value"
there (R77, R295, U12). Log entry 3. -/
opaque racedStreamByte : Nat → Byte

/-- FREE VALUE. The final value of the output pixel byte of the `k`-th host store that raced with the block (R296,
U13). Log entry 4. -/
opaque racedSurfaceByte : Nat → Byte

end Sys2Proof.Config
end

