-- ==== Sys2Proof/Machine/Memory.lean ====
section
/-! DEFINITION. Byte memories and colour tables as plain data. The stream space S (spec/20_memory.md R60), the
output space OUT (R64) and the scratch buffer (spec/10_state.md R30) are lists of (address, byte) in one canonical
form; a colour table (R32, R33) is a list of a fixed length. -/

namespace Sys2Proof.Machine

/-- A sparse byte memory: addresses strictly rising, no entry that equals what an unlisted address reads as. -/
abbrev Memory := List Host.Cell

/-- What an address of S or OUT that is not listed reads as. DESIGN CHOICE, log entry 6. -/
def Memory.unlisted : Byte := 0

/-- The entry at an address, if it is listed. -/
def Memory.lookup : Memory → Nat → Option Byte
  | [], _ => none
  | (b, v) :: m, a => if a = b then some v else Memory.lookup m a

/-- The byte at an address. -/
def Memory.read (m : Memory) (a : Nat) : Byte := (Memory.lookup m a).getD Memory.unlisted

/-- Lists `v` at `a`, in address order, in place of any entry there. -/
def Memory.put : Memory → Nat → Byte → Memory
  | [], a, v => [(a, v)]
  | (b, w) :: m, a, v =>
    if a < b then (a, v) :: (b, w) :: m
    else if a = b then (a, v) :: m
    else (b, w) :: Memory.put m a v

/-- Unlists an address. -/
def Memory.erase (m : Memory) (a : Nat) : Memory := m.filter fun c => decide (c.1 ≠ a)

/-- Stores a byte, keeping the canonical form. -/
def Memory.write (m : Memory) (a : Nat) (v : Byte) : Memory :=
  if v = Memory.unlisted then Memory.erase m a else Memory.put m a v

/-- The bytes at `a, a + 1, ..., a + n - 1`. -/
def Memory.readBytes (m : Memory) (a n : Nat) : List Byte := (List.range n).map fun i => Memory.read m (a + i)

/-- Stores bytes at `a, a + 1, ...`. -/
def Memory.writeBytes (m : Memory) (a : Nat) : List Byte → Memory
  | [] => m
  | v :: vs => Memory.writeBytes (Memory.write m a v) (a + 1) vs

/-- Addresses strictly rising. -/
def Memory.sorted : Memory → Bool
  | [] => true
  | [_] => true
  | (a, _) :: (b, w) :: m => decide (a < b) && Memory.sorted ((b, w) :: m)

/-- The canonical form. -/
def Memory.wf (m : Memory) : Bool := Memory.sorted m && m.all fun c => decide (c.2 ≠ Memory.unlisted)

/-- `n` colour entries (R32: 16, R33: 256). -/
structure RgbTable (n : Nat) where
  entries : List Rgb
  size : entries.length = n
deriving DecidableEq, Repr

/-- The table whose entry `i` is `f i`. -/
def RgbTable.ofFn (n : Nat) (f : Nat → Rgb) : RgbTable n := ⟨(List.range n).map f, by simp⟩

/-- Every entry 0. -/
def RgbTable.zero (n : Nat) : RgbTable n := ⟨List.replicate n 0, by simp⟩

/-- Entry `i`; an index past the end (no rule makes one) reads 0. -/
def RgbTable.get {n : Nat} (t : RgbTable n) (i : Nat) : Rgb := t.entries.getD i 0

/-- The table with entry `i` replaced. -/
def RgbTable.set {n : Nat} (t : RgbTable n) (i : Nat) (v : Rgb) : RgbTable n :=
  ⟨t.entries.set i v, by simpa using t.size⟩

end Sys2Proof.Machine
end

