-- ==== Sys2Proof/Machine/State.lean ====
section
/-! DEFINITION. The state of one block instance (spec/10_state.md R20 to R38), the two byte spaces it touches
(spec/20_memory.md R60, R64), the host's accesses still to come (R5, R66) and the model's own free-value fields;
the reasons a step stops; and the state after reset (spec/70_reset_and_hazards.md R290). -/

namespace Sys2Proof.Machine

/-- STATUS.STATE (R23); codes 6 and 7 are "never held". -/
inductive RunState where
  | idle
  | validated
  | rows
  | palette
  | done
  | failed
deriving DecidableEq, Repr

/-- The five error kinds (spec/60_exceptions.md R260). -/
inductive ErrKind where
  | truncated
  | unsupportedFormat
  | corrupt
  | outOfMemory
  | allocationFailed
deriving DecidableEq, Repr

/-- FORMAT.LAYOUT (R27, spec/30_encoding.md R100). -/
inductive Layout where
  | none
  | sub
  | idx8
  | rgb24
deriving DecidableEq, Repr

/-- What the outside does next: one host access (R66, R106), a turn left to the engine (R305), a reset (R290), or a
byte the host stores or loads in a space it owns (R75, R77, R295, R296). DESIGN CHOICE, log entries 8 and 14. -/
inductive HostOp where
  /-- `WR`: a 32-bit write to the register at an offset. -/
  | write (offset : BitVec 12) (w : Word)
  /-- `RD`: a 32-bit read; the word goes to `rdata`. -/
  | read (offset : BitVec 12)
  /-- `WAIT`: read STATUS until STATE is neither ROWS nor PALETTE. -/
  | wait
  /-- No host access: the engine has its turn. -/
  | engineTurn
  /-- The reset input. -/
  | reset
  /-- The host stores a byte in the stream space. -/
  | storeStream (a : Word) (v : Byte)
  /-- The host stores a byte in the output space. -/
  | storeSurface (a : Word) (v : Byte)
  /-- The host loads a byte of the output space; it goes to `rdata` (R75). -/
  | loadSurface (a : Word)
deriving DecidableEq, Repr

/-- The block, its byte spaces, and what is still to happen to it. -/
structure State where
  /-- The open parameters (spec/00_scope.md R6); no step changes them. -/
  params : Config.Params
  /-- STATUS.STATE (R23). -/
  runState : RunState
  /-- STATUS.ERR (R23, R261); `none` is code 0. -/
  err : Option ErrKind
  /-- STATUS.IGN (R23). -/
  ign : Bool
  /-- ROW_Y (R28). -/
  rowY : Word
  /-- FORMAT.LAYOUT (R27). -/
  layout : Layout
  /-- FORMAT.OUTB (R27). -/
  outb : BitVec 4
  /-- FORMAT.SRC_BITS (R27). -/
  srcBits : BitVec 16
  /-- WIDTH, two's complement (R27). -/
  width : Word
  /-- HEIGHT, two's complement (R27). -/
  height : Word
  /-- NBYTES (R27). -/
  nbytes : Word
  /-- NCOLORS (R29). -/
  ncolors : BitVec 9
  /-- CFG_ENC (R24). -/
  cfgEnc : Byte
  /-- CFG_BPP (R24). -/
  cfgBpp : Byte
  /-- CFG_NPLANES (R24). -/
  cfgNplanes : Byte
  /-- CFG_BPL (R24). -/
  cfgBpl : Half
  /-- CFG_XMIN (R24). -/
  cfgXmin : Half
  /-- CFG_YMIN (R24). -/
  cfgYmin : Half
  /-- CFG_XMAX (R24). -/
  cfgXmax : Half
  /-- CFG_YMAX (R24). -/
  cfgYmax : Half
  /-- CFG_PITCH (R25). -/
  cfgPitch : Word
  /-- CFG_OUT_BASE (R25). -/
  cfgOutBase : Word
  /-- STREAM_ORIGIN (R26). -/
  streamOrigin : Word
  /-- STREAM_POS (R26, R36): the fetch pointer. -/
  streamPos : Word
  /-- STREAM_LEN (R26). -/
  streamLen : Word
  /-- FAIL_POS (R38). -/
  failPos : Word
  /-- INLINE_PAL[0..15] (R32). -/
  inlinePal : RgbTable 16
  /-- COLOR_TABLE[0..255] (R33). -/
  colorTable : RgbTable 256
  /-- The listed bytes of the scratch buffer (R30). -/
  scratch : Memory
  /-- Whether VALIDATE has zeroed the scratch buffer since reset: what an unlisted scratch byte reads as (R30). -/
  scratchZeroed : Bool
  /-- RUN_CNT (R31). -/
  runCnt : BitVec 6
  /-- RUN_VAL (R31). -/
  runVal : Byte
  /-- FILL_I (R31). -/
  fillI : Word
  /-- The stream byte space S (R60). -/
  stream : Memory
  /-- The output byte space OUT (R64). -/
  out : Memory
  /-- What the outside does next, in order; when it is empty the engine has every turn (R5, R305). -/
  inbox : List HostOp
  /-- The data word of the last host read (R66, R227) or surface load (R75); the host's side of the bus. -/
  rdata : Word
  /-- MODEL'S OWN: output pixel bytes the host wrote while the block was busy with the decode that began last, each with
  the number of its race: their value at that decode's end is free (R296). START empties the list. -/
  outRaced : List (Nat × Nat)
  /-- MODEL'S OWN: how many bytes of S or OUT the host changed against R295 and R296; selects the next free value. -/
  raceCount : Nat
  /-- MODEL'S OWN: how many resets there have been; selects the free contents of the scratch buffer. -/
  resetCount : Nat
deriving DecidableEq, Repr

/-- Why a step stops with a fault. None is raised in a state that meets Safety.lean's invariant, but for a host access
outside the output space. DEDUCED, log entry 11. -/
inductive Fault where
  /-- Raised by a scratch access at an index not below SCRATCH_CAP (R30, R67: no such byte). Safe: VALIDATE has
  checked N (R222), so no reachable state raises it. -/
  | scratchIndex
  /-- Raised by an output access at an address not below OUT_SIZE (R64: no such byte): an engine store, which START's
  check (R223) rules out in every reachable state, or a host access outside the space. Safe. -/
  | outAddress
  /-- Raised by a row or palette step, or a palette copy, whose ENC, LAYOUT or SRC_BITS is one that VALIDATE never
  lets through (R98, R100, R101): the rules give it no operation. Safe: no reachable state raises it. -/
  | modeNeverHeld
deriving DecidableEq, Repr

/-- Why a step is refused. -/
inductive Refusal where
  /-- Raised by an arm of exec for an instruction without a meaning; no arm raises it. Safe. -/
  | notModelled (mnemonic : String)
  /-- Raised by a stream access at an address not below STREAM_SPACE (spec/93 U4: `refuse`; the host guarantees
  STREAM_LEN ≤ STREAM_SPACE, R60). Safe. DESIGN CHOICE, log entry 10. -/
  | streamBeyondSpace
deriving DecidableEq, Repr

/-- The state after reset (R290): every register 0, STATE IDLE, the scratch buffer unspecified; S and OUT, which are
outside the block, with nothing listed. -/
def State.reset : State where
  params := Config.Params.default
  runState := .idle
  err := none
  ign := false
  rowY := 0
  layout := .none
  outb := 0
  srcBits := 0
  width := 0
  height := 0
  nbytes := 0
  ncolors := 0
  cfgEnc := 0
  cfgBpp := 0
  cfgNplanes := 0
  cfgBpl := 0
  cfgXmin := 0
  cfgYmin := 0
  cfgXmax := 0
  cfgYmax := 0
  cfgPitch := 0
  cfgOutBase := 0
  streamOrigin := 0
  streamPos := 0
  streamLen := 0
  failPos := 0
  inlinePal := RgbTable.zero 16
  colorTable := RgbTable.zero 256
  scratch := []
  scratchZeroed := false
  runCnt := 0
  runVal := 0
  fillI := 0
  stream := []
  out := []
  inbox := []
  rdata := 0
  outRaced := []
  raceCount := 0
  resetCount := 0

end Sys2Proof.Machine
end

