-- ==== Sys2Proof/Machine/Flags.lean ====
section
/-! DEFINITION. STATUS and FORMAT as the host reads them (spec/10_state.md R23, R27) and their codes
(spec/60_exceptions.md R261). The block has no condition codes: STATUS holds its only flags (R37). -/

namespace Sys2Proof.Machine

/-- STATUS.STATE codes (R23). -/
def RunState.code : RunState → BitVec 3
  | .idle => 0
  | .validated => 1
  | .rows => 2
  | .palette => 3
  | .done => 4
  | .failed => 5

/-- STATUS.ERR codes (R261). -/
def errCode : Option ErrKind → BitVec 3
  | none => 0
  | some .truncated => 1
  | some .unsupportedFormat => 2
  | some .corrupt => 3
  | some .outOfMemory => 4
  | some .allocationFailed => 5

/-- FORMAT.LAYOUT codes (R27). -/
def Layout.code : Layout → BitVec 2
  | .none => 0
  | .sub => 1
  | .idx8 => 2
  | .rgb24 => 3

/-- "Busy": STATE is ROWS or PALETTE (R23). -/
def State.busy (s : State) : Bool := decide (s.runState = .rows ∨ s.runState = .palette)

/-- STATUS: STATE [2:0], ERR [6:4], IGN [8], every other bit 0 (R23). -/
def State.statusWord (s : State) : Word :=
  0#23 ++ BitVec.ofBool s.ign ++ 0#1 ++ errCode s.err ++ 0#1 ++ s.runState.code

/-- FORMAT: LAYOUT [1:0], OUTB [7:4], SRC_BITS [31:16], every other bit 0 (R27). -/
def State.formatWord (s : State) : Word :=
  s.srcBits ++ 0#8 ++ s.outb ++ 0#2 ++ s.layout.code

/-- STATUS.IGN set or cleared (R23, R34, R220). -/
def State.withIgn (s : State) (b : Bool) : State := { s with ign := b }

end Sys2Proof.Machine
end

