-- ==== Sys2Proof/Machine/Operands.lean ====
section
/-! DEFINITION. How the rules read the registers: the exact-integer interpretations of spec/10_state.md R24 to R27,
the layout table of spec/30_encoding.md R100, the row's place in the output space (spec/20_memory.md R64) and the
packing of a colour (R32, R33). -/

namespace Sys2Proof.Machine

/-- R24 `BPP = zext_8(CFG_BPP[7:0])`. -/
def State.bpp (s : State) : Nat := s.cfgBpp.toNat

/-- R24 `NP = zext_8(CFG_NPLANES[7:0])`. -/
def State.np (s : State) : Nat := s.cfgNplanes.toNat

/-- R24 `BPL = sext_16(CFG_BPL[15:0])`. -/
def State.bpl (s : State) : Int := s.cfgBpl.toInt

/-- `XMAX - XMIN + 1`, exact (R27). -/
def State.boxWidth (s : State) : Int := s.cfgXmax.toInt - s.cfgXmin.toInt + 1

/-- `YMAX - YMIN + 1`, exact (R27). -/
def State.boxHeight (s : State) : Int := s.cfgYmax.toInt - s.cfgYmin.toInt + 1

/-- `N = NP * BPL` if `BPL > 0`, else 0 (R27). -/
def State.scanBytes (s : State) : Nat := if 0 < s.bpl then s.np * s.bpl.toNat else 0

/-- N, as NBYTES holds it (R27). -/
def State.n (s : State) : Nat := s.nbytes.toNat

/-- WIDTH as an integer (R27). -/
def State.w (s : State) : Int := s.width.toInt

/-- HEIGHT as an integer (R27). -/
def State.h (s : State) : Int := s.height.toInt

/-- `WIDTH * OUTB`, the pixel bytes of a row (R64); no byte where WIDTH is below 1. -/
def State.rowBytes (s : State) : Nat := s.w.toNat * s.outb.toNat

/-- `OUT_BASE + y * PITCH`, the address of row `y` (R64). -/
def State.rowBase (s : State) (y : Nat) : Nat := s.cfgOutBase.toNat + y * s.cfgPitch.toNat

/-- The base of the row an engine step writes, `OUT_BASE + ROW_Y * PITCH` (R160). -/
def State.base (s : State) : Nat := s.rowBase s.rowY.toNat

/-- R100: the layout and the output bytes per pixel of a pair (BPP, NP); (NONE, 0) if the pair is not listed. -/
def layoutTable (bpp np : Byte) : Layout × BitVec 4 :=
  if bpp = 1#8 ∧ 1 ≤ np.toNat ∧ np.toNat ≤ 4 then (.sub, 1#4)
  else if bpp = 8#8 ∧ np = 1#8 then (.idx8, 1#4)
  else if bpp = 8#8 ∧ np = 3#8 then (.rgb24, 3#4)
  else (.none, 0#4)

/-- A colour entry from its three bytes: red [7:0], green [15:8], blue [23:16] (R32, R33, R194). -/
def rgb (r g b : Byte) : Rgb := b ++ g ++ r

/-- Whether `a` is a pixel byte of an output row: `OUT_BASE + y*PITCH + b` with `0 <= y < HEIGHT` and
`0 <= b < WIDTH * OUTB` (R64). -/
def State.isPixelByte (s : State) (a : Nat) : Bool :=
  decide (s.cfgOutBase.toNat ≤ a) &&
    decide (((a - s.cfgOutBase.toNat) / s.cfgPitch.toNat : Nat) < s.h.toNat) &&
    decide ((a - s.cfgOutBase.toNat) % s.cfgPitch.toNat < s.rowBytes)

end Sys2Proof.Machine
end

