-- ==== Sys2Proof/Machine/Ops.lean ====
section
/-! DEFINITION. The shared operations: how an operation ends (spec/00_scope.md R9), the stream, output and scratch
primitives (spec/20_memory.md R61 to R65, spec/10_state.md R30), the failure entry, which is the block's only
exceptional event, and the return from it (spec/60_exceptions.md R266, R268), the loop of the rules' pseudocode,
and the issue of a command (spec/43_control.md R220). -/

namespace Sys2Proof.Machine

/-- How an operation of the rules' pseudocode ends: with a value, by `raise Fail(kind)` (R9), at an access to a byte
that does not exist, or outside what the host guarantees. -/
inductive Flow (α : Type) where
  | ok (a : α) (s : State)
  | fail (k : ErrKind) (s : State)
  | fault (f : Fault)
  | refuse (r : Refusal)
deriving Repr

/-- One operation after another: "no later line of that rule runs" after a `raise` (R9). -/
def Flow.bind {α β : Type} (x : Flow α) (f : α → State → Flow β) : Flow β :=
  match x with
  | .ok a s => f a s
  | .fail k s => .fail k s
  | .fault e => .fault e
  | .refuse r => .refuse r

/-! ### Failure entry and return -/

/-- The failure entry `Fail(kind)` (R266). -/
def State.failEntry (s : State) (k : ErrKind) : State :=
  { s with failPos := s.streamPos, streamPos := s.streamOrigin, err := some k, ncolors := 0, runState := .failed }

/-- The return from a failure, and from any state that accepts CLEAR: IDLE with no error (R224, R268). -/
def State.clearToIdle (s : State) : State := { s with runState := .idle, err := none }

/-- The outcome of a whole operation: a `raise` ends it by the failure entry (R9, R265). -/
def Flow.finish (x : Flow Unit) : Host.Outcome State Fault Refusal :=
  match x with
  | .ok _ s => .next s
  | .fail k s => .next (s.failEntry k)
  | .fault f => .fault f
  | .refuse r => .refused r

/-! ### The stream (R60 to R63) -/

/-- STREAM_POS moved to an exact position. -/
def State.withPos (s : State) (p : Nat) : State := { s with streamPos := BitVec.ofNat 32 p }

/-- `StreamRead1()` (R61): the byte at STREAM_POS, or `none` for EOF. -/
def streamRead1 (s : State) : Flow (Option Byte) :=
  let p := s.streamPos.toNat
  if s.streamLen.toNat ≤ p then .ok none s
  else if s.params.streamSpace ≤ p then .refuse .streamBeyondSpace
  else .ok (some (Memory.read s.stream p)) (s.withPos (p + 1))

/-- `StreamReadN(n)` (R62): n bytes at STREAM_POS, or `none` for SHORT. -/
def streamReadN (n : Nat) (s : State) : Flow (Option (List Byte)) :=
  let p := s.streamPos.toNat
  if s.streamLen.toNat < p + n then .ok none s
  else if n ≠ 0 ∧ s.params.streamSpace < p + n then .refuse .streamBeyondSpace
  else .ok (some (Memory.readBytes s.stream p n)) (s.withPos (p + n))

/-- `StreamSeekFromEnd(k)` (R63): `true` for OK, `false` for SEEKFAIL. -/
def streamSeekFromEnd (k : Nat) (s : State) : Flow Bool :=
  if s.streamLen.toNat < k then .ok false s else .ok true (s.withPos (s.streamLen.toNat - k))

/-! ### The output space (R64, R65) -/

/-- `OutWrite(a, v)` (R65). -/
def outWrite (a : Nat) (v : Byte) (s : State) : Flow Unit :=
  if a < s.params.outSize then .ok () { s with out := Memory.write s.out a v } else .fault .outAddress

/-- `OutRead(a)` (R65). -/
def outRead (a : Nat) (s : State) : Flow Byte :=
  if a < s.params.outSize then .ok (Memory.read s.out a) s else .fault .outAddress

/-- The free value of the newest race at `a`; `v` where none is listed. -/
def raceOr (races : List (Nat × Nat)) (a : Nat) (v : Byte) : Byte :=
  match races.lookup a with
  | some k => Config.racedSurfaceByte k
  | none => v

/-- What the host finds at `a` of the output space. While the block is busy that is the last byte stored there, so
every engine store before it is visible (R75); once the decode has ended, a pixel byte the host stored in the course of
it holds any value (R296, U13). DESIGN CHOICE, log entry 4. -/
def State.surfaceByte (s : State) (a : Nat) : Byte :=
  if s.busy then Memory.read s.out a else raceOr s.outRaced a (Memory.read s.out a)

/-- An output space with the free values of a list of races stored in it, the newest race at the front. -/
def settled (m : Memory) : List (Nat × Nat) → Memory
  | [] => m
  | (a, k) :: races => Memory.write (settled m races) a (Config.racedSurfaceByte k)

/-- The races of the last decode settled: what they left becomes the contents of OUT, which the next decode then writes
as any other (R75, R233). No byte that the host finds changes by it. DESIGN CHOICE, log entry 4. -/
def State.settleRaces (s : State) : State := { s with out := settled s.out s.outRaced, outRaced := [] }

/-! ### The scratch buffer (R30, R67) -/

/-- Scratch byte `i`: before VALIDATE has zeroed the buffer, a byte nothing has written holds any value (R30). -/
def State.scratchByte (s : State) (i : Nat) : Byte :=
  match Memory.lookup s.scratch i with
  | some v => v
  | none => if s.scratchZeroed then Memory.unlisted else Config.scratchAtReset s.resetCount i

/-- The scratch list with byte `i` set: canonical once the buffer has been zeroed; before that every written byte is
listed, since no known value may be dropped. -/
def scratchPut (s : State) (i : Nat) (v : Byte) : Memory :=
  if s.scratchZeroed then Memory.write s.scratch i v else Memory.put s.scratch i v

/-- `Scratch[i] <- v` (R30). -/
def scratchWrite (i : Nat) (v : Byte) (s : State) : Flow Unit :=
  if i < s.params.scratchCap then .ok () { s with scratch := scratchPut s i v } else .fault .scratchIndex

/-- `Scratch[i]` (R30). -/
def scratchRead (i : Nat) (s : State) : Flow Byte :=
  if i < s.params.scratchCap then .ok (s.scratchByte i) s else .fault .scratchIndex

/-! ### Loops -/

/-- `for i in a..a + k - 1` (R9): increasing order, no iteration where `k` is 0. -/
def forFrom : Nat → Nat → (Nat → State → Flow Unit) → State → Flow Unit
  | _, 0, _, s => .ok () s
  | a, k + 1, f, s => (f a s).bind fun _ s' => forFrom (a + 1) k f s'

/-- `for i in 0..n - 1` (R9). -/
def forN (n : Nat) (f : Nat → State → Flow Unit) (s : State) : Flow Unit := forFrom 0 n f s

/-! ### Commands -/

/-- A command's issue (R220): accepted, it clears IGN and runs its rule, wholly; otherwise the write is ignored and
IGN is set. -/
def issue (accepted : Bool) (rule : State → Flow Unit) (s : State) : Host.Outcome State Fault Refusal :=
  if accepted then (rule (s.withIgn false)).finish else .next (s.withIgn true)

end Sys2Proof.Machine
end

