-- ==== Sys2Proof/Machine/Commands.lean ====
section
/-! DEFINITION. The host commands (spec/43_control.md R220 to R225). -/

namespace Sys2Proof.Machine

/-- The registers VALIDATE writes before its checks (R222, R27, R28, R29, R33, R31). -/
def State.withGeometry (s : State) : State :=
  { s with
    width := BitVec.ofInt 32 s.boxWidth
    height := BitVec.ofInt 32 s.boxHeight
    srcBits := BitVec.ofNat 16 (s.bpp * s.np)
    layout := (layoutTable s.cfgBpp s.cfgNplanes).1
    outb := (layoutTable s.cfgBpp s.cfgNplanes).2
    nbytes := BitVec.ofNat 32 s.scanBytes
    rowY := 0
    ncolors := 0
    colorTable := RgbTable.zero 256
    runCnt := 0
    runVal := 0
    fillI := 0 }

/-- `for i in 0..SCRATCH_CAP-1: Scratch[i] <- 0` (R222, R30): in canonical form, nothing listed. -/
def State.zeroScratch (s : State) : State := { s with scratch := [], scratchZeroed := true }

/-- VALIDATE's checks, in order, and its end (R222). -/
def validateChecks (s : State) : Flow Unit :=
  if s.cfgEnc ≠ 0 ∧ s.cfgEnc ≠ 1 then .fail .unsupportedFormat s
  else if s.layout = .none then .fail .unsupportedFormat s
  else if s.w < 1 ∨ s.h < 1 then .fail .unsupportedFormat s
  else if s.params.scratchCap < s.n then .fail .outOfMemory s
  else .ok () { s.zeroScratch with runState := .validated }

/-- VALIDATE (R222). -/
def validateRule (s : State) : Flow Unit := validateChecks s.withGeometry

/-- START (R223). The decode it begins is not the one whose races with the host freed bytes of OUT (R296), so those are
settled here: from now on OUT holds what is written to it. -/
def startRule (s : State) : Flow Unit :=
  if (s.cfgPitch.toNat : Int) < s.w * s.outb.toNat then .fail .allocationFailed s
  else if (s.params.outSize : Int) <
      s.cfgOutBase.toNat + (s.h - 1) * s.cfgPitch.toNat + s.w * s.outb.toNat then
    .fail .allocationFailed s
  else .ok () { s.settleRaces with rowY := 0, runState := .rows }

/-- CLEAR (R224). -/
def clearRule (s : State) : Flow Unit := .ok () s.clearToIdle

/-- CLEAR is accepted in IDLE, VALIDATED, DONE and FAILED (R102). -/
def State.acceptsClear (s : State) : Bool := !s.busy

/-- Meaning of NOP (R221): accepted in every state. -/
def execNop (s : State) : Host.Outcome State Fault Refusal := issue true (fun s => .ok () s) s

/-- Meaning of VALIDATE (R222): accepted in IDLE. -/
def execValidate (s : State) : Host.Outcome State Fault Refusal :=
  issue (decide (s.runState = .idle)) validateRule s

/-- Meaning of START (R223): accepted in VALIDATED. -/
def execStart (s : State) : Host.Outcome State Fault Refusal :=
  issue (decide (s.runState = .validated)) startRule s

/-- Meaning of CLEAR (R224). -/
def execClear (s : State) : Host.Outcome State Fault Refusal := issue s.acceptsClear clearRule s

/-- Meaning of the reserved codes (R225): never accepted, whichever of the four it is. -/
def execReservedCmd (_cc : BitVec 2) (s : State) : Host.Outcome State Fault Refusal :=
  issue false (fun s => .ok () s) s

end Sys2Proof.Machine
end

