-- ==== Sys2Proof/Machine/Palette.lean ====
section
/-! DEFINITION. The palette resolver (spec/42_palette_resolver.md): the inline copy, the marker scan with its
fallback, and the trailing table. COLOR_TABLE and NCOLORS are written only on success (R190). -/

namespace Sys2Proof.Machine

/-- `nc = min(2^SRC_BITS, PAL_CAP)` (R190). -/
def State.colorCount (s : State) : Nat := min (2 ^ s.srcBits.toNat) Config.palCap

/-- PAL_INLINE (R191). There are 16 inline entries: a SRC_BITS that asks for more is never held with LAYOUT SUB. -/
def palInline (s : State) : Flow Unit :=
  if 16 < s.colorCount then .fault .modeNeverHeld
  else .ok ()
    { s with
      colorTable := RgbTable.ofFn 256 fun i => if i < s.colorCount then s.inlinePal.get i else s.colorTable.get i
      ncolors := BitVec.ofNat 9 s.colorCount }

/-- R192's marker scan, at most `k` reads: `true` where the marker is found, `false` at EOF. -/
def scanMarker : Nat → State → Flow Bool
  | 0, s => .ok false s
  | k + 1, s => (streamRead1 s).bind fun r s => match r with
    | none => .ok false s
    | some b => if b = Config.palMarker then .ok true s else scanMarker k s

/-- The colour table of 768 trailing bytes (R194). -/
def tableOf (t : List Byte) : RgbTable 256 :=
  RgbTable.ofFn 256 fun i => rgb (t.getD (3 * i) 0) (t.getD (3 * i + 1) 0) (t.getD (3 * i + 2) 0)

/-- The table read at STREAM_POS (R192, R194). -/
def readTable (s : State) : Flow Unit :=
  (streamReadN Config.palTrailer s).bind fun r s => match r with
    | none => .fail .truncated s
    | some t => .ok () { s with colorTable := tableOf t, ncolors := 256 }

/-- Where the marker was not found: the seek of R193, or `Fail(Truncated)`. -/
def seekTable (s : State) : Flow Unit :=
  (streamSeekFromEnd Config.palTrailer s).bind fun found s => if found then .ok () s else .fail .truncated s

/-- PAL_TRAILING (R192): scan, fallback seek where the marker is not found (R193), table (R194). -/
def palTrailing (s : State) : Flow Unit :=
  (scanMarker (s.streamLen.toNat - s.streamPos.toNat) s).bind fun found s =>
    (if found then .ok () s else seekTable s).bind fun _ s => readTable s

/-- Meaning of PAL_INLINE (R191). -/
def execPalInline (s : State) : Host.Outcome State Fault Refusal := (palInline s).finish

/-- Meaning of PAL_TRAILING (R192). -/
def execPalTrailing (s : State) : Host.Outcome State Fault Refusal := (palTrailing s).finish

end Sys2Proof.Machine
end

