-- ==== Sys2Proof/Syntax.lean ====
section
/-! DEFINITION. The instructions: one constructor per mnemonic of spec/opcode_table.json (its 22 rows carry 18
mnemonics: the two rows of LIT differ only in the value, the four of UNPACK_SUB only in the plane count).
Machine/Dispatch.lean gives each its meaning. -/

namespace Sys2Proof

/-- Everything the block can be told to do: codes of the control-byte stream (R90 to R94), fill modes (R98), row
clear and unpack layouts (R100, R161), palette operations (R101), engine steps (R230, R231) and host commands
(R102). -/
inductive Instr where
  /-- LIT (R92, R133): one literal byte, its value the control byte itself. -/
  | lit (v : Byte)
  /-- RUN0 (R94, R135): control byte 0xC0 and a value byte. -/
  | run0 (v : Byte)
  /-- RUN (R93, R134): count 1 to 63 and a value byte. -/
  | run (n : BitVec 6) (v : Byte)
  /-- FILL_RAW (R131): ENC = 0. -/
  | fillRaw
  /-- FILL_RLE (R132): ENC = 1. -/
  | fillRle
  /-- UNPACK_SUB (R162): BPP = 1 and `np` planes, 1 to 4. -/
  | unpackSub (np : Byte)
  /-- UNPACK_IDX8 (R163): BPP = 8, NP = 1. -/
  | unpackIdx8
  /-- UNPACK_RGB24 (R164): BPP = 8, NP = 3. -/
  | unpackRgb24
  /-- CLEAR_ROW (R161). -/
  | clearRow
  /-- PAL_INLINE (R191). -/
  | palInline
  /-- PAL_TRAILING (R192). -/
  | palTrailing
  /-- ROW_STEP (R230). -/
  | rowStep
  /-- PAL_STEP (R231). -/
  | palStep
  /-- NOP (R221), command code 0. -/
  | nop
  /-- VALIDATE (R222), command code 1. -/
  | validate
  /-- START (R223), command code 2. -/
  | start
  /-- CLEAR (R224), command code 3. -/
  | clear
  /-- RESERVED_CMD (R225), command codes 4 to 7: `cc` is the code less 4. -/
  | reservedCmd (cc : BitVec 2)
deriving DecidableEq, Repr

end Sys2Proof
end

