-- ==== Sys2Proof/WellFormed.lean ====
section
/-! DEFINITION. Which instructions exist: the operand ranges of spec/30_encoding.md R92 (a literal is below 0xC0),
R93 (a run count is not 0) and R100 (a sub-byte layout has 1 to 4 planes). -/

namespace Sys2Proof

/-- R92: `0x00 <= c <= 0xBF`. -/
def litValueOk (v : Byte) : Bool := decide (v.toNat < 0xC0)

/-- R93: the count field is not 0 (that code is RUN0). -/
def runCountOk (n : BitVec 6) : Bool := decide (n ≠ 0)

/-- R100: NP is 1 to 4 when BPP is 1. -/
def subPlanesOk (np : Byte) : Bool := decide (1 ≤ np.toNat ∧ np.toNat ≤ 4)

/-- The instruction has an encoding in the spec's tables. -/
def Instr.wellFormed : Instr → Bool
  | .lit v => litValueOk v
  | .run0 _ => true
  | .run n _ => runCountOk n
  | .fillRaw => true
  | .fillRle => true
  | .unpackSub np => subPlanesOk np
  | .unpackIdx8 => true
  | .unpackRgb24 => true
  | .clearRow => true
  | .palInline => true
  | .palTrailing => true
  | .rowStep => true
  | .palStep => true
  | .nop => true
  | .validate => true
  | .start => true
  | .clear => true
  | .reservedCmd _ => true

end Sys2Proof
end

