-- ==== Sys2Proof/Decode.lean ====
section
/-! DEFINITION. The decoder and the encoder (spec/30_encoding.md). An instruction stands in one of seven encoding
spaces, and the place a word is read from says which: the spec's table gives, say, 0x01 to LIT, FILL_RLE,
PAL_INLINE and VALIDATE, in four spaces. `decode` is total on any bytes and rejects by name. -/

namespace Sys2Proof

/-- The places an encoded selection is read from (the "format" of a row of spec/opcode_table.json). -/
inductive Space where
  /-- The control-byte stream (R90). -/
  | code
  /-- CFG_ENC, one byte (R98). -/
  | fill
  /-- The pair (BPP, NP), the key `BPP << 8 | NP`, two bytes, low byte first (R100). -/
  | layout
  /-- CLEAR_ROW: selected by no encoding, run in every ROWS step (R161). -/
  | rowClear
  /-- FORMAT.LAYOUT, the low two bits of a byte (R101). -/
  | palette
  /-- STATUS.STATE, the low three bits of a byte (R230, R231). -/
  | engine
  /-- The word written to CMD, four bytes, low byte first (R66, R102). -/
  | command
deriving DecidableEq, Repr

/-- Why bytes are no instruction. -/
inductive DecodeError where
  /-- fewer bytes than the space's field has -/
  | noBytes
  /-- a run code without its value byte (R95) -/
  | noValueByte
  /-- ENC 2 to 255 (R98) -/
  | noFillMode
  /-- a pair (BPP, NP) outside R100's table -/
  | noLayout
  /-- a LAYOUT that selects no palette operation (R101) -/
  | noPaletteOp
  /-- a STATE that enables no engine step (R233) -/
  | noEngineStep
deriving DecidableEq, Repr

/-- What the decoder answers: an instruction and the bytes after it, or a rejection by name. -/
inductive Decoded where
  | ok (i : Instr) (rest : List Byte)
  | reject (e : DecodeError)
deriving DecidableEq, Repr

/-- R91: TAG = 0b11 selects a run. -/
def tagIsRun (c : Byte) : Bool := decide (c.extractLsb' 6 2 = 3#2)

/-- R91, R96: the count field, `c[5:0]`. -/
def countOf (c : Byte) : BitVec 6 := c.extractLsb' 0 6

/-- The code a control byte and the byte after it make (R92 to R95); RUN0 is tested before RUN, and a literal
ignores the second byte. -/
def codeOf (c v : Byte) : Instr :=
  if c = 0xC0#8 then .run0 v else if tagIsRun c then .run (countOf c) v else .lit c

/-- R95: one code from the front of a byte sequence. -/
def decodeCode : List Byte → Decoded
  | [] => .reject .noBytes
  | c :: rest =>
    if tagIsRun c then
      match rest with
      | [] => .reject .noValueByte
      | v :: rest' => .ok (codeOf c v) rest'
    else .ok (codeOf c 0) rest

/-- R98: the fill operation ENC selects. -/
def decodeFill (enc : Byte) : Option Instr :=
  if enc = 0#8 then some .fillRaw else if enc = 1#8 then some .fillRle else none

/-- R100: the unpack operation the pair (BPP, NP) selects. -/
def decodeLayout (bpp np : Byte) : Option Instr :=
  if bpp = 1#8 ∧ subPlanesOk np = true then some (.unpackSub np)
  else if bpp = 8#8 ∧ np = 1#8 then some .unpackIdx8
  else if bpp = 8#8 ∧ np = 3#8 then some .unpackRgb24
  else none

/-- R101: the palette operation LAYOUT selects (1 SUB, 2 IDX8). -/
def decodePalette (layout : BitVec 2) : Option Instr :=
  if layout = 1#2 then some .palInline else if layout = 2#2 then some .palTrailing else none

/-- R230, R231: the engine step STATE enables (2 ROWS, 3 PALETTE). -/
def decodeEngine (state : BitVec 3) : Option Instr :=
  if state = 2#3 then some .rowStep else if state = 3#3 then some .palStep else none

/-- R102: the command a word written to CMD issues; only `w[2:0]` is decoded. -/
def decodeCommand (w : Word) : Instr :=
  if w.extractLsb' 2 1 = 1#1 then .reservedCmd (w.extractLsb' 0 2)
  else if w.extractLsb' 0 2 = 0#2 then .nop
  else if w.extractLsb' 0 2 = 1#2 then .validate
  else if w.extractLsb' 0 2 = 2#2 then .start
  else .clear

/-- An optional instruction as a decoder's answer, `e` the reason where there is none. -/
def Decoded.ofOption (o : Option Instr) (e : DecodeError) (rest : List Byte) : Decoded :=
  match o with
  | some i => .ok i rest
  | none => .reject e

/-- The decoder of each space. -/
def decode : Space → List Byte → Decoded
  | .code, bs => decodeCode bs
  | .fill, e :: rest => .ofOption (decodeFill e) .noFillMode rest
  | .layout, np :: bpp :: rest => .ofOption (decodeLayout bpp np) .noLayout rest
  | .rowClear, rest => .ok .clearRow rest
  | .palette, b :: rest => .ofOption (decodePalette (b.extractLsb' 0 2)) .noPaletteOp rest
  | .engine, b :: rest => .ofOption (decodeEngine (b.extractLsb' 0 3)) .noEngineStep rest
  | .command, b0 :: b1 :: b2 :: b3 :: rest => .ok (decodeCommand (b3 ++ b2 ++ b1 ++ b0)) rest
  | .fill, [] => .reject .noBytes
  | .layout, [] => .reject .noBytes
  | .layout, [_] => .reject .noBytes
  | .palette, [] => .reject .noBytes
  | .engine, [] => .reject .noBytes
  | .command, [] => .reject .noBytes
  | .command, [_] => .reject .noBytes
  | .command, [_, _] => .reject .noBytes
  | .command, [_, _, _] => .reject .noBytes

/-- An encoded instruction: its space and its bytes, the first at the lowest address. -/
structure Encoded where
  space : Space
  bytes : List Byte
deriving DecidableEq, Repr

/-- The encoder, from the tables of R92 to R94, R98, R100, R101, R102, R230 and R231 (ignored bits 0). -/
def encode : Instr → Encoded
  | .lit v => ⟨.code, [v]⟩
  | .run0 v => ⟨.code, [0xC0#8, v]⟩
  | .run n v => ⟨.code, [3#2 ++ n, v]⟩
  | .fillRaw => ⟨.fill, [0#8]⟩
  | .fillRle => ⟨.fill, [1#8]⟩
  | .unpackSub np => ⟨.layout, [np, 1#8]⟩
  | .unpackIdx8 => ⟨.layout, [1#8, 8#8]⟩
  | .unpackRgb24 => ⟨.layout, [3#8, 8#8]⟩
  | .clearRow => ⟨.rowClear, []⟩
  | .palInline => ⟨.palette, [1#8]⟩
  | .palTrailing => ⟨.palette, [2#8]⟩
  | .rowStep => ⟨.engine, [2#8]⟩
  | .palStep => ⟨.engine, [3#8]⟩
  | .nop => ⟨.command, [0#8, 0#8, 0#8, 0#8]⟩
  | .validate => ⟨.command, [1#8, 0#8, 0#8, 0#8]⟩
  | .start => ⟨.command, [2#8, 0#8, 0#8, 0#8]⟩
  | .clear => ⟨.command, [3#8, 0#8, 0#8, 0#8]⟩
  | .reservedCmd cc => ⟨.command, [1#6 ++ cc, 0#8, 0#8, 0#8]⟩

/-- R105 `BYTE v`: one code that emits `v` once. -/
def byteCode (v : Byte) : Instr := if litValueOk v then .lit v else .run 1 v

/-- R105 `FILL n, v`: the codes that emit `v` n times. -/
def fillCodes (n : Nat) (v : Byte) : List Instr :=
  List.replicate (n / 63) (.run 63 v) ++
    if n % 63 = 0 then [] else if 2 ≤ n % 63 then [.run (BitVec.ofNat 6 (n % 63)) v] else [byteCode v]

/-- The stream bytes of a list of codes. -/
def codeBytes (cs : List Instr) : List Byte := cs.flatMap fun i => (encode i).bytes

/-- The space a word of spec/opcode_table.json is read in when nothing but its width and bits are known: 16 bits
that are a listed (BPP, NP) key are that key, 8 bits below 8 and every wider word are a word written to CMD, the
rest are control-byte codes. DESIGN CHOICE, log entry 5. -/
def tableSpace (nbits w : Nat) : Space :=
  let w := w % 2 ^ nbits
  if nbits ≤ 8 then if w < 8 then .command else .code
  else if nbits ≤ 16 then
    match decodeLayout (BitVec.ofNat 8 (w / 256)) (BitVec.ofNat 8 w) with
    | some _ => .layout
    | none => .code
  else .command

/-- The bytes of a table word in address order, four of them: the bits above the row's are 0. -/
def tableBytes (nbits w : Nat) : List Byte :=
  let w := w % 2 ^ nbits
  [BitVec.ofNat 8 w, BitVec.ofNat 8 (w / 256), BitVec.ofNat 8 (w / 65536), BitVec.ofNat 8 (w / 16777216)]

/-- The instruction the decoder reads from an opcode-table word. -/
def decodeTableWord (nbits w : Nat) : Option Instr :=
  match decode (tableSpace nbits w) (tableBytes nbits w) with
  | .ok i _ => some i
  | .reject _ => none

end Sys2Proof
end

