-- ==== Sys2Proof/Machine/Rle.lean ====
section
/-! DEFINITION. The run-length decoder (spec/40_rle_decoder.md): the codes LIT, RUN and RUN0, the two fills, and the
scanline request. A code runs with STREAM_POS at its control byte and reads its own bytes, so its position, its
EOF checks and its FAIL_POS are those of R132 to R135 (DESIGN CHOICE, log entry 12). -/

namespace Sys2Proof.Machine

/-- A one-byte read that must succeed: EOF is `Fail(Truncated)` (R138). -/
def readByteOrFail (s : State) : Flow Byte :=
  (streamRead1 s).bind fun r s => match r with
    | none => .fail .truncated s
    | some b => .ok b s

/-- LIT (R133), with the read of its control byte (R132). -/
def lit (v : Byte) (s : State) : Flow Unit :=
  (readByteOrFail s).bind fun _ s => .ok () { s with runVal := v, runCnt := 1 }

/-- RUN (R134), with the read of its control byte (R132). -/
def run (n : BitVec 6) (v : Byte) (s : State) : Flow Unit :=
  (readByteOrFail s).bind fun _ s =>
    (readByteOrFail s).bind fun _ s => .ok () { s with runVal := v, runCnt := n }

/-- RUN0's effect after its value byte, by ZERO_RUN_POLICY (R135). -/
def run0Policy (v : Byte) (s : State) : Flow Unit :=
  match s.params.zeroRunPolicy with
  | .nop => .ok () s
  | .corrupt => .fail .corrupt s
  | .fillRest =>
    (forFrom s.fillI.toNat (s.n - s.fillI.toNat) (fun i s => scratchWrite i v s) s).bind fun _ s =>
      .ok () { s with fillI := s.nbytes }

/-- RUN0 (R135), with the read of its control byte (R132): the value byte is read under every policy. -/
def run0 (v : Byte) (s : State) : Flow Unit :=
  (readByteOrFail s).bind fun _ s => (readByteOrFail s).bind fun _ s => run0Policy v s

/-- The code at STREAM_POS, `none` at the stream's end (R90, R95). The byte after the control byte is an operand only
of a two-byte code, which itself checks that it is there. -/
def nextCode (s : State) : Option Instr :=
  if s.streamLen.toNat ≤ s.streamPos.toNat then none
  else some (codeOf (Memory.read s.stream s.streamPos.toNat) (Memory.read s.stream (s.streamPos.toNat + 1)))

/-- The operation of a code; `codeOf` makes no other instruction (R95: every control byte is one of the three). -/
def runCode (i : Instr) (s : State) : Flow Unit :=
  match i with
  | .lit v => lit v s
  | .run0 v => run0 v s
  | .run n v => run n v s
  | .fillRaw | .fillRle | .unpackSub _ | .unpackIdx8 | .unpackRgb24 | .clearRow | .palInline | .palTrailing
  | .rowStep | .palStep | .nop | .validate | .start | .clear | .reservedCmd _ => .fault .modeNeverHeld

/-- One code from the stream: EOF on the control byte is `Fail(Truncated)` (R132). -/
def readCode (s : State) : Flow Unit :=
  match nextCode s with
  | none => .fail .truncated s
  | some i => runCode i s

/-- The emission of one byte while a run is left (R132). -/
def emit (s : State) : Flow Unit :=
  if s.runCnt = 0 then .ok () s
  else (scratchWrite s.fillI.toNat s.runVal s).bind fun _ s =>
    .ok () { s with fillI := BitVec.ofNat 32 (s.fillI.toNat + 1), runCnt := s.runCnt - 1 }

/-- One pass of R132's loop. -/
def fillPass (s : State) : Flow Unit :=
  (if s.runCnt = 0 then readCode s else .ok () s).bind fun _ s => emit s

/-- R132's `while FILL_I < N`, at most `k` passes. -/
def fillLoop : Nat → State → Flow Unit
  | 0, s => .ok () s
  | k + 1, s => if s.fillI.toNat < s.n then (fillPass s).bind fun _ s => fillLoop k s else .ok () s

/-- R137: no request makes more passes than `N + (STREAM_LEN - STREAM_POS)`. -/
def State.passBound (s : State) : Nat := s.n + (s.streamLen.toNat - s.streamPos.toNat)

/-- Every request starts with no run and at scratch byte 0 (R136). -/
def State.startRequest (s : State) : State := { s with runCnt := 0, fillI := 0 }

/-- FILL_RLE (R132). -/
def fillRle (s : State) : Flow Unit := fillLoop s.passBound s.startRequest

/-- FILL_RAW (R131). -/
def fillRaw (s : State) : Flow Unit :=
  (streamReadN s.n s).bind fun r s => match r with
    | none => .fail .truncated s
    | some bytes => forN s.n (fun i s => scratchWrite i (bytes.getD i 0) s) s

/-- The scanline request (R130): the fill ENC selects (R98). -/
def fill (s : State) : Flow Unit :=
  if s.cfgEnc = 0 then fillRaw s else if s.cfgEnc = 1 then fillRle s else .fault .modeNeverHeld

/-- Meaning of LIT (R133). -/
def execLit (v : Byte) (s : State) : Host.Outcome State Fault Refusal := (lit v s).finish

/-- Meaning of RUN (R134). -/
def execRun (n : BitVec 6) (v : Byte) (s : State) : Host.Outcome State Fault Refusal := (run n v s).finish

/-- Meaning of RUN0 (R135). -/
def execRun0 (v : Byte) (s : State) : Host.Outcome State Fault Refusal := (run0 v s).finish

/-- Meaning of FILL_RAW (R131). -/
def execFillRaw (s : State) : Host.Outcome State Fault Refusal := (fillRaw s).finish

/-- Meaning of FILL_RLE (R132). -/
def execFillRle (s : State) : Host.Outcome State Fault Refusal := (fillRle s).finish

end Sys2Proof.Machine
end

