-- ==== Sys2Proof/Machine/Unpack.lean ====
section
/-! DEFINITION. The plane unpacker (spec/41_plane_unpacker.md): the row's clearing and the three layouts, each on
the row ROW_Y, whose base is `OUT_BASE + ROW_Y * PITCH` (R160). Extents below 1 count as none (DEDUCED, log entry 19). -/

namespace Sys2Proof.Machine

/-- CLEAR_ROW (R161). -/
def clearRow (s : State) : Flow Unit := forN s.rowBytes (fun b s => outWrite (s.base + b) 0 s) s

/-- Bit `k` of a byte, counted from the most significant: `(b >> (7 - k)) & 1` (R162). -/
def bitFromTop (b : Byte) (k : Nat) : Byte := (b >>> (7 - k)) &&& 1#8

/-- One bit of UNPACK_SUB: OR'd, shifted by the plane, into its pixel's byte unless its column is row padding
(R162). -/
def subBit (p j : Nat) (b : Byte) (k : Nat) (s : State) : Flow Unit :=
  if (8 * j + k : Int) < s.w then
    (outRead (s.base + (8 * j + k)) s).bind fun old s =>
      outWrite (s.base + (8 * j + k)) (old ||| (bitFromTop b k <<< p)) s
  else .ok () s

/-- UNPACK_SUB over `np` planes (R162). -/
def unpackSub (np : Nat) (s : State) : Flow Unit :=
  forN np (fun p s =>
    forN s.bpl.toNat (fun j s =>
      (scratchRead (p * s.bpl.toNat + j) s).bind fun b s => forN 8 (fun k s => subBit p j b k s) s) s) s

/-- UNPACK_IDX8 (R163). -/
def unpackIdx8 (s : State) : Flow Unit :=
  forN (min s.w.toNat s.n) (fun x s => (scratchRead x s).bind fun v s => outWrite (s.base + x) v s) s

/-- One byte of UNPACK_RGB24: the source check, then the destination check, then the store (R164). -/
def rgbByte (p x : Nat) (s : State) : Flow Unit :=
  let src : Int := p * s.bpl + x
  if src < 0 ∨ (s.n : Int) ≤ src then .fail .corrupt s
  else if s.cfgPitch.toNat ≤ p + 3 * x then .fail .corrupt s
  else (scratchRead src.toNat s).bind fun v s => outWrite (s.base + (p + 3 * x)) v s

/-- UNPACK_RGB24 (R164). -/
def unpackRgb24 (s : State) : Flow Unit :=
  forN 3 (fun p s => forN s.w.toNat (fun x s => rgbByte p x s) s) s

/-- The operation LAYOUT selects (R230); a ROWS step with LAYOUT NONE is none of the rules'. -/
def unpack (s : State) : Flow Unit :=
  match s.layout with
  | .sub => unpackSub s.np s
  | .idx8 => unpackIdx8 s
  | .rgb24 => unpackRgb24 s
  | .none => .fault .modeNeverHeld

/-- Meaning of CLEAR_ROW (R161). -/
def execClearRow (s : State) : Host.Outcome State Fault Refusal := (clearRow s).finish

/-- Meaning of UNPACK_SUB (R162): the plane count is the operand, which the encoding takes from CFG_NPLANES. -/
def execUnpackSub (np : Byte) (s : State) : Host.Outcome State Fault Refusal := (unpackSub np.toNat s).finish

/-- Meaning of UNPACK_IDX8 (R163). -/
def execUnpackIdx8 (s : State) : Host.Outcome State Fault Refusal := (unpackIdx8 s).finish

/-- Meaning of UNPACK_RGB24 (R164). -/
def execUnpackRgb24 (s : State) : Host.Outcome State Fault Refusal := (unpackRgb24 s).finish

end Sys2Proof.Machine
end

