-- ==== Sys2Proof/Machine/Engine.lean ====
section
/-! DEFINITION. The engine steps (spec/43_control.md R230, R231), each indivisible with respect to host accesses
(spec/20_memory.md R71). -/

namespace Sys2Proof.Machine

/-- The end of a ROWS step: the row is counted, and after the last one the palette step follows for an indexed
output, DONE otherwise (R230). -/
def State.finishRow (s : State) : State :=
  { s with
    rowY := BitVec.ofNat 32 (s.rowY.toNat + 1)
    runState :=
      if (s.rowY.toNat + 1 : Int) = s.h then
        if s.layout = .sub ∨ s.layout = .idx8 then .palette else .done
      else s.runState }

/-- The row of ROW_STEP: fill, clear, unpack, count (R230). -/
def rowRule (s : State) : Flow Unit :=
  (fill s).bind fun _ s => (clearRow s).bind fun _ s => (unpack s).bind fun _ s => .ok () s.finishRow

/-- The palette operation LAYOUT selects (R231, R101); a PALETTE step with LAYOUT NONE or RGB24 is none of the
rules'. -/
def palette (s : State) : Flow Unit :=
  match s.layout with
  | .sub => palInline s
  | .idx8 => palTrailing s
  | .rgb24 => .fault .modeNeverHeld
  | .none => .fault .modeNeverHeld

/-- PAL_STEP's rule (R231). -/
def palRule (s : State) : Flow Unit := (palette s).bind fun _ s => .ok () { s with runState := .done }

/-- Meaning of ROW_STEP (R230), "enabled exactly when STATE = ROWS": in any other state no step happens
(DEDUCED, log entry 13). -/
def execRowStep (s : State) : Host.Outcome State Fault Refusal :=
  if s.runState = .rows then (rowRule s).finish else .next s

/-- Meaning of PAL_STEP (R231), "enabled exactly when STATE = PALETTE": in any other state no step happens. -/
def execPalStep (s : State) : Host.Outcome State Fault Refusal :=
  if s.runState = .palette then (palRule s).finish else .next s

end Sys2Proof.Machine
end

