-- ==== Sys2Proof/Machine/Dispatch.lean ====
section
/-! DEFINITION. One arm per constructor of Instr: the meaning of each (spec/opcode_table.json). -/

namespace Sys2Proof.Machine

def exec (i : Instr) (s : State) : Host.Outcome State Fault Refusal :=
  match i with
  | .lit v => Sys2Proof.Machine.execLit v s
  | .run0 v => Sys2Proof.Machine.execRun0 v s
  | .run n v => Sys2Proof.Machine.execRun n v s
  | .fillRaw => Sys2Proof.Machine.execFillRaw s
  | .fillRle => Sys2Proof.Machine.execFillRle s
  | .unpackSub np => Sys2Proof.Machine.execUnpackSub np s
  | .unpackIdx8 => Sys2Proof.Machine.execUnpackIdx8 s
  | .unpackRgb24 => Sys2Proof.Machine.execUnpackRgb24 s
  | .clearRow => Sys2Proof.Machine.execClearRow s
  | .palInline => Sys2Proof.Machine.execPalInline s
  | .palTrailing => Sys2Proof.Machine.execPalTrailing s
  | .rowStep => Sys2Proof.Machine.execRowStep s
  | .palStep => Sys2Proof.Machine.execPalStep s
  | .nop => Sys2Proof.Machine.execNop s
  | .validate => Sys2Proof.Machine.execValidate s
  | .start => Sys2Proof.Machine.execStart s
  | .clear => Sys2Proof.Machine.execClear s
  | .reservedCmd cc => Sys2Proof.Machine.execReservedCmd cc s

end Sys2Proof.Machine
end

