-- ==== Sys2Proof/Machine/HostAccess.lean ====
section
/-! DEFINITION. The register window as the host reads and writes it (spec/10_state.md R21, R34, R35;
spec/20_memory.md R66; spec/43_control.md R226, R227), the reset input (spec/70_reset_and_hazards.md R290, R291), and
the host's accesses to the byte spaces it owns (spec/20_memory.md R75, R77, spec/70_reset_and_hazards.md R295, R296). -/

namespace Sys2Proof.Machine

/-- The registers of R21's map; every other offset is reserved (R35). -/
inductive Reg where
  | cmd
  | status
  | rowY
  | format
  | width
  | height
  | nbytes
  | ncolors
  | cfgEnc
  | cfgBpp
  | cfgNplanes
  | cfgBpl
  | cfgXmin
  | cfgYmin
  | cfgXmax
  | cfgYmax
  | cfgPitch
  | cfgOutBase
  | streamOrigin
  | streamPos
  | streamLen
  | failPos
  | inlinePal (k : Nat)
  | colorTable (i : Nat)
  | reserved
deriving DecidableEq, Repr

/-- The registers at offsets 0x000 to 0x054, in order (R21). -/
def lowRegs : List Reg :=
  [.cmd, .status, .rowY, .format, .width, .height, .nbytes, .ncolors, .cfgEnc, .cfgBpp, .cfgNplanes, .cfgBpl,
   .cfgXmin, .cfgYmin, .cfgXmax, .cfgYmax, .cfgPitch, .cfgOutBase, .streamOrigin, .streamPos, .streamLen, .failPos]

/-- The register at an offset; bits [1:0] of the offset are ignored (R66). -/
def regAt (offset : BitVec 12) : Reg :=
  let i := offset.toNat / 4
  if i < 22 then lowRegs.getD i .reserved
  else if 64 ≤ i ∧ i < 80 then .inlinePal (i - 64)
  else if 256 ≤ i ∧ i < 512 then .colorTable (i - 256)
  else .reserved

/-- What a host read returns: the held bits, every other bit 0; CMD and reserved offsets read 0 (R22, R35, R227). -/
def readReg (r : Reg) (s : State) : Word :=
  match r with
  | .cmd => 0
  | .status => s.statusWord
  | .rowY => s.rowY
  | .format => s.formatWord
  | .width => s.width
  | .height => s.height
  | .nbytes => s.nbytes
  | .ncolors => s.ncolors.setWidth 32
  | .cfgEnc => s.cfgEnc.setWidth 32
  | .cfgBpp => s.cfgBpp.setWidth 32
  | .cfgNplanes => s.cfgNplanes.setWidth 32
  | .cfgBpl => s.cfgBpl.setWidth 32
  | .cfgXmin => s.cfgXmin.setWidth 32
  | .cfgYmin => s.cfgYmin.setWidth 32
  | .cfgXmax => s.cfgXmax.setWidth 32
  | .cfgYmax => s.cfgYmax.setWidth 32
  | .cfgPitch => s.cfgPitch
  | .cfgOutBase => s.cfgOutBase
  | .streamOrigin => s.streamOrigin
  | .streamPos => s.streamPos
  | .streamLen => s.streamLen
  | .failPos => s.failPos
  | .inlinePal k => (s.inlinePal.get k).setWidth 32
  | .colorTable i => (s.colorTable.get i).setWidth 32
  | .reserved => 0

/-- The states in which a header-derived register or an inline palette entry is written (R34). -/
def State.acceptsConfig (s : State) : Bool := decide (s.runState = .idle)

/-- The states in which CFG_PITCH, CFG_OUT_BASE and the stream registers are written (R34). -/
def State.acceptsPlacement (s : State) : Bool := decide (s.runState = .idle ∨ s.runState = .validated)

/-- A write inside its window stores and leaves IGN; outside it, it is ignored and sets IGN (R34). -/
def gated (accepted : Bool) (s written : State) : State := if accepted then written else s.withIgn true

/-- A host write to a register other than CMD: the held bits of the word, inside the register's window (R226, R34);
read-only registers and reserved offsets ignore it and set IGN (R34, R35). CMD holds no state (R22): its write is
the command that Step.lean issues (DEDUCED, log entry 15). -/
def writeReg (r : Reg) (w : Word) (s : State) : State :=
  match r with
  | .cmd => s
  | .cfgEnc => gated s.acceptsConfig s { s with cfgEnc := w.setWidth 8 }
  | .cfgBpp => gated s.acceptsConfig s { s with cfgBpp := w.setWidth 8 }
  | .cfgNplanes => gated s.acceptsConfig s { s with cfgNplanes := w.setWidth 8 }
  | .cfgBpl => gated s.acceptsConfig s { s with cfgBpl := w.setWidth 16 }
  | .cfgXmin => gated s.acceptsConfig s { s with cfgXmin := w.setWidth 16 }
  | .cfgYmin => gated s.acceptsConfig s { s with cfgYmin := w.setWidth 16 }
  | .cfgXmax => gated s.acceptsConfig s { s with cfgXmax := w.setWidth 16 }
  | .cfgYmax => gated s.acceptsConfig s { s with cfgYmax := w.setWidth 16 }
  | .cfgPitch => gated s.acceptsPlacement s { s with cfgPitch := w }
  | .cfgOutBase => gated s.acceptsPlacement s { s with cfgOutBase := w }
  | .streamOrigin => gated s.acceptsPlacement s { s with streamOrigin := w }
  | .streamPos => gated s.acceptsPlacement s { s with streamPos := w }
  | .streamLen => gated s.acceptsPlacement s { s with streamLen := w }
  | .inlinePal k => gated s.acceptsConfig s { s with inlinePal := s.inlinePal.set k (w.setWidth 24) }
  | .status | .rowY | .format | .width | .height | .nbytes | .ncolors | .failPos | .colorTable _ | .reserved =>
    s.withIgn true

/-- A host read: the word goes to the bus, nothing of the block changes (R71, R227). -/
def hostRead (offset : BitVec 12) (s : State) : State := { s with rdata := readReg (regAt offset) s }

/-- The reset input (R290, R291): every register and hidden register at its reset value, the scratch buffer
unspecified again; S, OUT, the parameters and what is outside the block are kept. DESIGN CHOICE, log entry 18. -/
def State.hardReset (s : State) : State :=
  { State.reset with
    params := s.params
    stream := s.stream
    out := s.out
    inbox := s.inbox
    rdata := s.rdata
    outRaced := s.outRaced
    raceCount := s.raceCount
    resetCount := s.resetCount + 1 }

/-- The host stores a byte in the stream space. While the block is busy it must not, below STREAM_LEN: the engine then
reads any value there (R77, R295). -/
def hostStoreStream (a : Word) (v : Byte) (s : State) : Host.Outcome State Fault Refusal :=
  if s.params.streamSpace ≤ a.toNat then .refused .streamBeyondSpace
  else if s.busy && decide (a.toNat < s.streamLen.toNat) then
    .next { s with
      stream := Memory.write s.stream a.toNat (Config.racedStreamByte s.raceCount)
      raceCount := s.raceCount + 1 }
  else .next { s with stream := Memory.write s.stream a.toNat v }

/-- The races at other addresses than `a`. -/
def otherRaces (a : Nat) (races : List (Nat × Nat)) : List (Nat × Nat) := races.filter fun r => decide (r.1 ≠ a)

/-- The host stores a byte in the output space. While the block is busy it must not write a pixel byte of the output
rows: that byte's value at the decode's end is then any value (R296), until the host stores there with the block not
busy or a later decode writes it. -/
def hostStoreSurface (a : Word) (v : Byte) (s : State) : Host.Outcome State Fault Refusal :=
  if s.params.outSize ≤ a.toNat then .fault .outAddress
  else if s.busy && s.isPixelByte a.toNat then
    .next { s with
      out := Memory.write s.out a.toNat v
      outRaced := (a.toNat, s.raceCount) :: otherRaces a.toNat s.outRaced
      raceCount := s.raceCount + 1 }
  else .next { s with out := Memory.write s.out a.toNat v, outRaced := otherRaces a.toNat s.outRaced }

/-- The host loads a byte of the output space: what every engine step before it has written is there (R75). -/
def hostLoadSurface (a : Word) (s : State) : Host.Outcome State Fault Refusal :=
  if s.params.outSize ≤ a.toNat then .fault .outAddress
  else .next { s with rdata := (s.surfaceByte a.toNat).setWidth 32 }

end Sys2Proof.Machine
end

