-- ==== Sys2Proof/Machine/Turn.lean ====
section
/-! DEFINITION. What Step.lean chooses between: the engine's turn (spec/43_control.md R230, R231, R233), a host write
(R220, R226) and WAIT (spec/30_encoding.md R106); and the states in which a table word is the next to run. -/

namespace Sys2Proof.Machine

/-- The engine's turn: the step STATE enables (R230, R231); in any other state nothing happens (R233). -/
def engineTurn (s : State) : Host.Outcome State Fault Refusal :=
  match decodeEngine s.runState.code with
  | some i => exec i s
  | none => .next s

/-- A host write: the command, where the register is CMD (R22, R220); otherwise the register's store (R226). -/
def hostWrite (offset : BitVec 12) (w : Word) (s : State) : Host.Outcome State Fault Refusal :=
  if regAt offset = .cmd then exec (decodeCommand w) s else .next (writeReg (regAt offset) w s)

/-- `WAIT` (R106): read STATUS; while it shows ROWS or PALETTE, stay, and the engine has its turn (R305's weak
fairness); else go on (DESIGN CHOICE, log entry 9). `s` still has WAIT at the front of its inbox, `s'` has it taken out. -/
def hostWait (s s' : State) : Host.Outcome State Fault Refusal :=
  if s.busy then engineTurn { s with rdata := s.statusWord } else .next { s' with rdata := s.statusWord }

/-- A row about to be decoded with nothing else to do: STATE ROWS, one row of one pixel, a zeroed scratch buffer, a
stream of four bytes at STREAM_POS. -/
def State.withRow (s : State) (bytes : List Byte) : State :=
  { s with
    runState := .rows
    rowY := 0
    width := 1
    height := 1
    cfgPitch := 4
    cfgBpl := 1
    scratch := []
    scratchZeroed := true
    streamLen := BitVec.ofNat 32 (s.streamPos.toNat + 4)
    stream := Memory.writeBytes s.stream s.streamPos.toNat bytes
    inbox := [] }

/-- `s` with the layout registers of a listed pair (BPP, NP), as VALIDATE computes them (R222). -/
def State.withPair (s : State) (bpp np : Byte) : State :=
  { s with
    cfgBpp := bpp
    cfgNplanes := np
    srcBits := BitVec.ofNat 16 (bpp.toNat * np.toNat)
    layout := (layoutTable bpp np).1
    outb := (layoutTable bpp np).2
    nbytes := BitVec.ofNat 32 np.toNat }

end Sys2Proof.Machine
end

