-- ==== Sys2Proof/Machine/Step.lean ====
section
/-! DEFINITION. One step of the block and its host (spec/00_scope.md R5, spec/20_memory.md R71,
spec/70_reset_and_hazards.md R305): the next thing the outside does, or, when it does nothing, the engine's turn (DESIGN
CHOICE, log entry 8). -/

namespace Sys2Proof.Machine

/-- One step. -/
def step (s : State) : Host.Outcome State Fault Refusal :=
  match s.inbox with
  | [] => engineTurn s
  | .write offset w :: rest => hostWrite offset w { s with inbox := rest }
  | .read offset :: rest => .next (hostRead offset { s with inbox := rest })
  | .wait :: rest => hostWait s { s with inbox := rest }
  | .engineTurn :: rest => engineTurn { s with inbox := rest }
  | .reset :: rest => .next { s with inbox := rest }.hardReset
  | .storeStream a v :: rest => hostStoreStream a v { s with inbox := rest }
  | .storeSurface a v :: rest => hostStoreSurface a v { s with inbox := rest }
  | .loadSurface a :: rest => hostLoadSurface a { s with inbox := rest }

/-- `s` with an opcode-table word where the next step takes its instruction from: a command is the word of the next
host write to CMD; a code is the next stream byte of an RLE row whose step comes next; a layout key is the layout of
a raw row whose step comes next. Log entry 7. -/
def State.withFetchWord (s : State) (nbits w : Nat) : State :=
  match tableSpace nbits w with
  | .layout =>
    { (s.withRow [0, 0, 0, 0]).withPair (BitVec.ofNat 8 (w / 256)) (BitVec.ofNat 8 w) with cfgEnc := 0 }
  | .code => { (s.withRow (tableBytes nbits w)).withPair 8 1 with cfgEnc := 1 }
  | .command | .fill | .rowClear | .palette | .engine =>
    { s with inbox := .write 0 (BitVec.ofNat 32 (w % 2 ^ nbits)) :: s.inbox }

end Sys2Proof.Machine
end

