-- ==== Sys2Proof/Machine/HostContract.lean ====
section
/-! DEFINITION. The contract the host meets (spec/30_encoding.md R110 to R113, spec/43_control.md R240, R241): the
probe, the header's fields, and the accesses of one decode. It is host software, outside the block (spec/00_scope.md
R4); it is here so that a decode can be written down and run. Nothing of the block depends on it. DESIGN CHOICE, log entry 16. -/

namespace Sys2Proof.Machine

/-- Header byte `o`. -/
def headerByte (h : List Byte) (o : Nat) : Byte := h.getD o 0

/-- The little-endian 16-bit field at offset `o` (R111). -/
def headerHalf (h : List Byte) (o : Nat) : Half := headerByte h (o + 1) ++ headerByte h o

/-- The signature and encoding test of the probe (R113, R240). -/
def headerOk (h : List Byte) : Bool :=
  decide (headerByte h 0 = 10) && decide (headerByte h 1 = 5) &&
    (decide (headerByte h 2 = 0) || decide (headerByte h 2 = 1))

/-- `probe`: the first 128 bytes of the stream, if it has them, carry the signature (R240). -/
def probe (bytes : List Byte) : Bool := decide (Config.headerSize ≤ bytes.length) && headerOk bytes

/-- The host's own verdict on a header, before it uses the block (R241 step 1). -/
def headerVerdict (bytes : List Byte) : Option ErrKind :=
  if bytes.length < Config.headerSize then some .truncated
  else if headerOk bytes then none
  else some .unsupportedFormat

/-- The inline palette writes: entry `k` from header bytes 16 + 3k, 17 + 3k, 18 + 3k (R112). -/
def inlinePalWrites (h : List Byte) : List HostOp :=
  (List.range 16).map fun k =>
    .write (BitVec.ofNat 12 (0x100 + 4 * k))
      ((headerByte h (18 + 3 * k) ++ headerByte h (17 + 3 * k) ++ headerByte h (16 + 3 * k)).setWidth 32)

/-- The configuration writes made from a header (R112). -/
def headerWrites (h : List Byte) : List HostOp :=
  [.write 0x020 ((headerByte h 2).setWidth 32), .write 0x024 ((headerByte h 3).setWidth 32),
   .write 0x028 ((headerByte h 65).setWidth 32), .write 0x02C ((headerHalf h 66).setWidth 32),
   .write 0x030 ((headerHalf h 4).setWidth 32), .write 0x034 ((headerHalf h 6).setWidth 32),
   .write 0x038 ((headerHalf h 8).setWidth 32), .write 0x03C ((headerHalf h 10).setWidth 32)] ++ inlinePalWrites h

/-- R241 steps 2 and 3: CLEAR unless STATE is IDLE, the configuration, the stream registers, VALIDATE. `p` is the
header's position and `len` the stream's length. -/
def hostPrepare (st : RunState) (h : List Byte) (p len : Word) : List HostOp :=
  (if st = .idle then [] else [.write 0x000 3]) ++ headerWrites h ++
    [.write 0x048 p, .write 0x04C (p + 128), .write 0x050 len, .write 0x000 1, .read 0x004]

/-- R241 step 5: the surface's place, START, WAIT. -/
def hostRun (pitch base : Word) : List HostOp :=
  [.write 0x040 pitch, .write 0x044 base, .write 0x000 2, .wait]

/-- R241 step 7. -/
def hostEnd : List HostOp := [.write 0x000 3]

end Sys2Proof.Machine
end

