-- ==== Sys2Proof/Safety.lean ====
section
/-! DEFINITION. The terms claims are stated in: what a state promises (its invariant, the host's guarantees), what a
stretch of the stream says, and what the unpackers should write, pixel by pixel. -/

namespace Sys2Proof.Machine

/-! ### The stream ahead -/

/-- The engine can read `n` bytes at STREAM_POS: they lie below STREAM_LEN and inside the stream space. -/
def State.readable (s : State) (n : Nat) : Prop :=
  s.streamPos.toNat + n ≤ s.streamLen.toNat ∧ s.streamPos.toNat + n ≤ s.params.streamSpace

/-- The next bytes of the stream are `bs`, all of them readable. -/
def State.streamHolds (s : State) (bs : List Byte) : Prop :=
  s.readable bs.length ∧ Memory.readBytes s.stream s.streamPos.toNat bs.length = bs

/-- What the host guarantees of the stream: `STREAM_LEN <= STREAM_SPACE` (R60). -/
def State.streamGuarantee (s : State) : Prop := s.streamLen.toNat ≤ s.params.streamSpace

/-- The bytes a code emits into a scanline with room for them, a RUN0 none (R133, R134, R135 under NOP). -/
def emitted : Instr → List Byte
  | .lit v => [v]
  | .run n v => List.replicate n.toNat v
  | .run0 _ | .fillRaw | .fillRle | .unpackSub _ | .unpackIdx8 | .unpackRgb24 | .clearRow | .palInline
  | .palTrailing | .rowStep | .palStep | .nop | .validate | .start | .clear | .reservedCmd _ => []

/-- The bytes a list of codes emits. -/
def emittedAll (cs : List Instr) : List Byte := cs.flatMap emitted

/-- LIT and RUN: the codes that emit under every ZERO_RUN_POLICY. -/
def emitsAlways : Instr → Bool
  | .lit v => litValueOk v
  | .run n _ => runCountOk n
  | .run0 _ | .fillRaw | .fillRle | .unpackSub _ | .unpackIdx8 | .unpackRgb24 | .clearRow | .palInline
  | .palTrailing | .rowStep | .palStep | .nop | .validate | .start | .clear | .reservedCmd _ => false

/-- A code that neither ends the decode nor fills the rest of the scanline: LIT, RUN, and RUN0 where ZERO_RUN_POLICY
is NOP. -/
def plainCode (p : Config.ZeroRunPolicy) (i : Instr) : Bool :=
  emitsAlways i || (match i with
    | .run0 _ => decide (p = .nop)
    | .lit _ | .run _ _ | .fillRaw | .fillRle | .unpackSub _ | .unpackIdx8 | .unpackRgb24 | .clearRow | .palInline
    | .palTrailing | .rowStep | .palStep | .nop | .validate | .start | .clear | .reservedCmd _ => false)

/-- The codes `pre` and then `c` are what a scanline request of `n` bytes reads: `pre` leaves room, `c` fills it
(perhaps with bytes to spare, which are cut, R136). -/
def fillsWith (p : Config.ZeroRunPolicy) (n : Nat) (pre : List Instr) (c : Instr) : Prop :=
  (∀ i ∈ pre, plainCode p i = true) ∧ emitsAlways c = true ∧
    (emittedAll pre).length < n ∧ n ≤ (emittedAll pre).length + (emitted c).length

/-- The codes `pre` and then a RUN0 are what a scanline request of `n` bytes reads under FILL_REST: `pre` leaves room,
the RUN0 fills it (R135). -/
def restFills (p : Config.ZeroRunPolicy) (n : Nat) (pre : List Instr) : Prop :=
  p = .fillRest ∧ (∀ i ∈ pre, plainCode p i = true) ∧ (emittedAll pre).length < n

/-- The next scanline request of `s` fills the scratch buffer with the N bytes `bs` and consumes `k` stream bytes:
raw mode (R131), or RLE mode (R132), where a request for no bytes reads none (R139) and any other is filled by its last
LIT or RUN or, under FILL_REST, by a RUN0. -/
def State.fillsTo (s : State) (bs : List Byte) (k : Nat) : Prop :=
  bs.length = s.n ∧
    ((s.cfgEnc = 0 ∧ s.streamHolds bs ∧ k = s.n) ∨
      (s.cfgEnc = 1 ∧ s.n = 0 ∧ k = 0) ∨
      (s.cfgEnc = 1 ∧ ∃ pre c, fillsWith s.params.zeroRunPolicy s.n pre c ∧
        s.streamHolds (codeBytes (pre ++ [c])) ∧ k = (codeBytes (pre ++ [c])).length ∧
        bs = (emittedAll (pre ++ [c])).take s.n) ∨
      (s.cfgEnc = 1 ∧ ∃ pre v, restFills s.params.zeroRunPolicy s.n pre ∧
        s.streamHolds (codeBytes (pre ++ [.run0 v])) ∧ k = (codeBytes (pre ++ [.run0 v])).length ∧
        bs = emittedAll pre ++ List.replicate (s.n - (emittedAll pre).length) v))

/-! ### What a row should hold -/

/-- The bit of plane `p` at column `x` of a scanline whose planes are `bpl` bytes each: bit `7 - x mod 8` of byte
`x / 8` of the plane, 0 past the plane's end (R162). `byte` gives the scanline's bytes. -/
def planeBit (byte : Nat → Byte) (bpl p x : Nat) : Bool :=
  decide (x / 8 < bpl) && (byte (p * bpl + x / 8)).getLsbD (7 - x % 8)

/-- The pixel of `np` planes at column `x`: bit `p` of the pixel is the bit of plane `p` (R162). -/
def subPixel (byte : Nat → Byte) (bpl np x : Nat) : Byte :=
  BitVec.ofNat 8 (((List.range np).map fun p => if planeBit byte bpl p x then 2 ^ p else 0).sum)

/-- The pixel bytes of row ROW_Y lie in the output space. -/
def State.rowFits (s : State) : Prop := s.base + s.rowBytes ≤ s.params.outSize

/-- `a` is a pixel byte of row ROW_Y (R64). -/
def State.inRow (s : State) (a : Nat) : Prop := s.base ≤ a ∧ a < s.base + s.rowBytes

/-! ### Registers -/

/-- The bytes of a word in address order (R66). -/
def wordBytes (w : Word) : List Byte := [w.extractLsb' 0 8, w.extractLsb' 8 8, w.extractLsb' 16 8, w.extractLsb' 24 8]

/-- The windows of R34: in which states a host write to a register is accepted. -/
def accepts : Reg → RunState → Bool
  | .cfgEnc, st | .cfgBpp, st | .cfgNplanes, st | .cfgBpl, st | .cfgXmin, st | .cfgYmin, st | .cfgXmax, st
  | .cfgYmax, st | .inlinePal _, st => decide (st = .idle)
  | .cfgPitch, st | .cfgOutBase, st | .streamOrigin, st | .streamPos, st | .streamLen, st =>
    decide (st = .idle ∨ st = .validated)
  | .cmd, _ | .status, _ | .rowY, _ | .format, _ | .width, _ | .height, _ | .nbytes, _ | .ncolors, _
  | .failPos, _ | .colorTable _, _ | .reserved, _ => false

/-- The held bits of R21's map. -/
def heldMask : Reg → Word
  | .cmd => 0x7
  | .status => 0x177
  | .rowY => 0xFFFFFFFF
  | .format => 0xFFFF00F3
  | .width => 0xFFFFFFFF
  | .height => 0xFFFFFFFF
  | .nbytes => 0xFFFFFFFF
  | .ncolors => 0x1FF
  | .cfgEnc => 0xFF
  | .cfgBpp => 0xFF
  | .cfgNplanes => 0xFF
  | .cfgBpl => 0xFFFF
  | .cfgXmin => 0xFFFF
  | .cfgYmin => 0xFFFF
  | .cfgXmax => 0xFFFF
  | .cfgYmax => 0xFFFF
  | .cfgPitch => 0xFFFFFFFF
  | .cfgOutBase => 0xFFFFFFFF
  | .streamOrigin => 0xFFFFFFFF
  | .streamPos => 0xFFFFFFFF
  | .streamLen => 0xFFFFFFFF
  | .failPos => 0xFFFFFFFF
  | .inlinePal _ => 0xFFFFFF
  | .colorTable _ => 0xFFFFFF
  | .reserved => 0

/-- `t` is the state of a decode that failed with `k` at stream position `p`, rewound to STREAM_ORIGIN (R266). -/
def failedAt (t : State) (k : ErrKind) (p : Nat) : Prop :=
  t.runState = .failed ∧ t.err = some k ∧ t.failPos.toNat = p ∧ t.streamPos = t.streamOrigin ∧ t.ncolors = 0

/-! ### The invariant -/

/-- What holds of the geometry from VALIDATE on, for as long as the configuration cannot change (R222, R34). -/
structure State.GeometryHeld (s : State) : Prop where
  enc : s.cfgEnc = 0 ∨ s.cfgEnc = 1
  layout : s.layout = (layoutTable s.cfgBpp s.cfgNplanes).1
  outb : s.outb = (layoutTable s.cfgBpp s.cfgNplanes).2
  listed : s.layout ≠ .none
  srcBits : s.srcBits.toNat = s.bpp * s.np
  width : s.w = s.boxWidth
  height : s.h = s.boxHeight
  widthPos : 1 ≤ s.w
  heightPos : 1 ≤ s.h
  bytes : s.n = s.scanBytes
  capacity : s.n ≤ s.params.scratchCap
  zeroed : s.scratchZeroed = true

/-- What START has checked of the surface (R223). -/
structure State.SurfaceHeld (s : State) : Prop where
  pitch : s.rowBytes ≤ s.cfgPitch.toNat
  fits : s.rowBase (s.h.toNat - 1) + s.rowBytes ≤ s.params.outSize

/-- The invariant of the block. -/
structure State.Inv (s : State) : Prop where
  /-- S and OUT are in canonical form. -/
  streamWf : Memory.wf s.stream = true
  outWf : Memory.wf s.out = true
  /-- The scratch list is in canonical form once the buffer has been zeroed, in address order before. -/
  scratchSorted : Memory.sorted s.scratch = true
  scratchWf : s.scratchZeroed = true → Memory.wf s.scratch = true
  /-- ERR is set exactly in FAILED (R23, R261). -/
  errIff : s.err ≠ none ↔ s.runState = .failed
  /-- Entries at or above NCOLORS are 0 (R33). -/
  tableZero : ∀ i, s.ncolors.toNat ≤ i → s.colorTable.get i = 0
  /-- NCOLORS stays 0 until the palette step ends (R29). -/
  noColors : s.runState ≠ .idle → s.runState ≠ .done → s.ncolors = 0
  geometry : s.runState ≠ .idle → s.runState ≠ .failed → s.GeometryHeld
  surface : s.runState = .rows ∨ s.runState = .palette ∨ s.runState = .done → s.SurfaceHeld
  /-- The row counter (R28). -/
  rowInRange : s.runState = .rows → (s.rowY.toNat : Int) < s.h
  rowsDone : s.runState = .palette ∨ s.runState = .done → (s.rowY.toNat : Int) = s.h
  /-- The palette step is for indexed outputs only (R196, R230). -/
  indexed : s.runState = .palette → s.layout = .sub ∨ s.layout = .idx8

/-- The next thing the outside does is not an access outside the byte spaces. -/
def State.hostInSpace (s : State) : Prop :=
  match s.inbox with
  | .storeStream a _ :: _ => a.toNat < s.params.streamSpace
  | .storeSurface a _ :: _ | .loadSurface a :: _ => a.toNat < s.params.outSize
  | .write _ _ :: _ | .read _ :: _ | .wait :: _ | .engineTurn :: _ | .reset :: _ | [] => True

/-- A safe step: the machine goes on. -/
def Goes (o : Host.Outcome State Fault Refusal) : Prop := ∃ t, o = .next t

end Sys2Proof.Machine
end

