-- ==== Sys2Proof/Certificates/Slice0/Obligations.lean ====
section
/-! DEFINITION. The statements for the provers (OBLIGATIONS.json says of each its tier, its rules and its basis).
None is about a program; each is about every state that meets its premises. -/

open Sys2Proof Sys2Proof.Machine

/-! ### Encoding -/

/-- Decoding the encoding of any well-formed instruction gives it back, with every operand at every value, and leaves
the bytes after it. -/
def Obligations.DecodeEncodeRoundTrip : Prop :=
  ∀ (i : Instr) (rest : List Byte), i.wellFormed = true →
    decode (encode i).space ((encode i).bytes ++ rest) = .ok i rest

/-- The other direction, in every space whose words have no ignored bits: a decoded instruction is well formed and its
encoding is the bytes it was read from. -/
def Obligations.EncodeDecodeRoundTrip : Prop :=
  ∀ (sp : Space) (bs rest : List Byte) (i : Instr), sp = .code ∨ sp = .fill ∨ sp = .layout ∨ sp = .rowClear →
    decode sp bs = .ok i rest → i.wellFormed = true ∧ (encode i).space = sp ∧ (encode i).bytes ++ rest = bs

/-- R95: every byte is a legal control byte, and the control byte alone decides the length of the code: two bytes
where its two high bits are set, one otherwise. -/
def Obligations.EveryControlByteIsACode : Prop :=
  ∀ (c v : Byte) (rest : List Byte), ∃ i, i.wellFormed = true ∧
    decode .code (c :: v :: rest) = .ok i (if 0xC0 ≤ c.toNat then rest else v :: rest) ∧
    (c.toNat < 0xC0 → i = .lit c) ∧
    (c.toNat = 0xC0 → i = .run0 v) ∧
    (0xC0 < c.toNat → i = .run (BitVec.ofNat 6 (c.toNat - 0xC0)) v)

/-- R102: only `w[2:0]` of a word written to CMD is decoded. -/
def Obligations.CommandCodeIsLowThreeBits : Prop :=
  ∀ (w : Word) (rest : List Byte), decode .command (wordBytes w ++ rest) = .ok
    (if w.toNat % 8 = 0 then .nop else if w.toNat % 8 = 1 then .validate else if w.toNat % 8 = 2 then .start
      else if w.toNat % 8 = 3 then .clear else .reservedCmd (BitVec.ofNat 2 (w.toNat % 8 - 4))) rest

/-- A few words written out from the tables of R92 to R94, R98, R100 and R102. -/
def Obligations.SampleWordsDecode : Prop :=
  decode .code [0b10111111#8] = .ok (.lit 0xBF#8) [] ∧
  decode .code [0b11111111#8, 0x11#8] = .ok (.run 63#6 0x11#8) [] ∧
  decode .code [0b11000000#8, 0x99#8] = .ok (.run0 0x99#8) [] ∧
  decode .fill [0b00000001#8] = .ok .fillRle [] ∧
  decode .layout [0b00000011#8, 0b00001000#8] = .ok .unpackRgb24 [] ∧
  decode .layout [0b00000100#8, 0b00001000#8] = .reject .noLayout ∧
  decode .command [0b00000010#8, 0#8, 0#8, 0#8] = .ok .start []

/-! ### Steps -/

/-- A host write to CMD, at any of the offsets that are CMD (R66), whose word decodes to an instruction: the step runs
exactly it, on the state with that write taken out of the inbox. -/
def Obligations.CommandWriteRunsDecodedInstruction : Prop :=
  ∀ (s : State) (offset : BitVec 12) (w : Word) (rest : List HostOp) (i : Instr),
    s.inbox = .write offset w :: rest → offset.toNat < 4 → decode .command (wordBytes w) = .ok i [] →
    step s = exec i { s with inbox := rest }

/-- The engine's turn runs exactly the step that STATUS.STATE decodes to, and nothing at all where STATE enables none:
when the outside does nothing, and when it leaves the engine a turn. -/
def Obligations.EngineTurnRunsDecodedStep : Prop :=
  ∀ (s : State) (rest : List HostOp),
    (∀ i, decode .engine [0#5 ++ s.runState.code] = .ok i [] →
      (s.inbox = [] → step s = exec i s) ∧
      (s.inbox = .engineTurn :: rest → step s = exec i { s with inbox := rest })) ∧
    (decode .engine [0#5 ++ s.runState.code] = .reject .noEngineStep →
      (s.inbox = [] → step s = .next s) ∧
      (s.inbox = .engineTurn :: rest → step s = .next { s with inbox := rest }))

/-- Inside FILL_RLE the stream is the instruction stream: where the bytes at STREAM_POS decode to a code, the next pass
of the fill runs exactly that code and then emits, and exec of it is that same operation. -/
def Obligations.FillPassRunsDecodedCode : Prop :=
  ∀ (s : State) (i : Instr) (rest : List Byte) (k : Nat),
    s.runCnt = 0 → s.fillI.toNat < s.n → s.streamPos.toNat < s.streamLen.toNat →
    decode .code (Memory.readBytes s.stream s.streamPos.toNat (min 2 (s.streamLen.toNat - s.streamPos.toNat))) =
      .ok i rest →
    fillLoop (k + 1) s = (runCode i s).bind (fun _ u => (emit u).bind fun _ v => fillLoop k v) ∧
      exec i s = (runCode i s).finish

/-- R233, R292: after reset the block does nothing until the host acts. -/
def Obligations.ResetStateIsAtRest : Prop :=
  step State.reset = .next State.reset ∧ State.reset.statusWord = 0 ∧ State.reset.formatWord = 0

/-- R290, R291: the reset input, in any state, puts every register at its reset value at once and leaves S and OUT (and
the parameters) as they are; STREAM_POS becomes 0, not STREAM_ORIGIN. -/
def Obligations.ResetInputClearsEveryRegister : Prop :=
  ∀ (s : State) (rest : List HostOp), s.inbox = .reset :: rest → ∃ t, step s = .next t ∧
    t.runState = .idle ∧ t.err = none ∧ t.ign = false ∧
    (∀ r : Reg, readReg r t = 0) ∧
    t.layout = .none ∧ t.outb = 0 ∧ t.srcBits = 0 ∧
    t.runCnt = 0 ∧ t.runVal = 0 ∧ t.fillI = 0 ∧
    t.stream = s.stream ∧ t.out = s.out ∧ t.params = s.params ∧ t.inbox = rest

/-! ### Commands -/

/-- R221, R225: NOP clears IGN and a reserved code sets it, in every state; neither changes anything else. -/
def Obligations.NopAndReservedCodesTouchOnlyIgn : Prop :=
  ∀ (s : State) (cc : BitVec 2),
    exec .nop s = .next { s with ign := false } ∧ exec (.reservedCmd cc) s = .next { s with ign := true }

/-- R220, R102: a command that the state does not accept changes nothing but IGN. -/
def Obligations.UnacceptedCommandSetsIgnOnly : Prop :=
  ∀ s : State,
    (s.runState ≠ .idle → exec .validate s = .next { s with ign := true }) ∧
    (s.runState ≠ .validated → exec .start s = .next { s with ign := true }) ∧
    (s.runState = .rows ∨ s.runState = .palette → exec .clear s = .next { s with ign := true })

/-- R224. -/
def Obligations.ClearReturnsToIdle : Prop :=
  ∀ s : State, s.runState = .idle ∨ s.runState = .validated ∨ s.runState = .done ∨ s.runState = .failed →
    exec .clear s = .next { s with runState := .idle, err := none, ign := false }

/-- R222, R27: VALIDATE in IDLE. The derived registers hold the exact values in every case; then the checks, in their
order; a passed validation zeroes the scratch buffer. -/
def Obligations.ValidateComputesGeometryAndChecks : Prop :=
  ∀ s : State, s.runState = .idle → ∃ t, exec .validate s = .next t ∧
    t = { s with
      ign := false, width := t.width, height := t.height, srcBits := t.srcBits, layout := t.layout, outb := t.outb,
      nbytes := t.nbytes, rowY := 0, ncolors := 0, colorTable := t.colorTable, runCnt := 0, runVal := 0, fillI := 0,
      scratch := t.scratch, scratchZeroed := t.scratchZeroed, runState := t.runState, err := t.err,
      failPos := t.failPos, streamPos := t.streamPos } ∧
    t.width.toInt = s.cfgXmax.toInt - s.cfgXmin.toInt + 1 ∧
    t.height.toInt = s.cfgYmax.toInt - s.cfgYmin.toInt + 1 ∧
    t.srcBits.toNat = s.cfgBpp.toNat * s.cfgNplanes.toNat ∧
    (t.nbytes.toNat : Int) = (if 0 < s.cfgBpl.toInt then s.cfgNplanes.toNat * s.cfgBpl.toInt else 0) ∧
    (t.layout, t.outb) = layoutTable s.cfgBpp s.cfgNplanes ∧
    (∀ i, t.colorTable.get i = 0) ∧
    let bad (k : ErrKind) : Prop :=
      failedAt t k s.streamPos.toNat ∧ t.scratch = s.scratch ∧ t.scratchZeroed = s.scratchZeroed
    if 1 < s.cfgEnc.toNat then bad .unsupportedFormat
    else if (layoutTable s.cfgBpp s.cfgNplanes).1 = .none then bad .unsupportedFormat
    else if s.cfgXmax.toInt < s.cfgXmin.toInt ∨ s.cfgYmax.toInt < s.cfgYmin.toInt then bad .unsupportedFormat
    else if s.params.scratchCap < t.nbytes.toNat then bad .outOfMemory
    else t.runState = .validated ∧ t.err = s.err ∧ t.failPos = s.failPos ∧ t.streamPos = s.streamPos ∧
      ∀ i, t.scratchByte i = 0

/-- R100: which pairs VALIDATE's table lists, and what it gives them. -/
def Obligations.LayoutTableListsSixPairs : Prop :=
  ∀ bpp np : Byte, layoutTable bpp np =
    if bpp.toNat = 1 ∧ np.toNat ∈ [1, 2, 3, 4] then (.sub, 1)
    else if bpp.toNat = 8 ∧ np.toNat = 1 then (.idx8, 1)
    else if bpp.toNat = 8 ∧ np.toNat = 3 then (.rgb24, 3)
    else (.none, 0)

/-- A validation that passes every check is VALIDATED, whatever ran before. -/
def Obligations.ValidateCompletes : Prop :=
  ∀ s : State, s.runState = .idle → s.cfgEnc = 0 ∨ s.cfgEnc = 1 →
    (layoutTable s.cfgBpp s.cfgNplanes).1 ≠ .none →
    s.cfgXmin.toInt ≤ s.cfgXmax.toInt → s.cfgYmin.toInt ≤ s.cfgYmax.toInt →
    (if 0 < s.cfgBpl.toInt then s.cfgNplanes.toNat * s.cfgBpl.toInt else 0) ≤ s.params.scratchCap →
    ∃ t, exec .validate s = .next t ∧ t.runState = .validated ∧ t.ign = false ∧ t.streamPos = s.streamPos ∧
      t.stream = s.stream ∧ t.out = s.out

/-- R223: START in VALIDATED: the pitch check, then the fit check, both exact, then ROWS at row 0. It reads no stream
byte and stores nothing: OUT holds what the host found there, which differs from what it held only where the host has
raced with the last decode (log entry 4, the model's choice). -/
def Obligations.StartChecksSurface : Prop :=
  ∀ s : State, s.runState = .validated → ∃ t, exec .start s = .next t ∧
    if (s.cfgPitch.toNat : Int) < s.width.toInt * s.outb.toNat ∨
        (s.params.outSize : Int) <
          s.cfgOutBase.toNat + (s.height.toInt - 1) * s.cfgPitch.toNat + s.width.toInt * s.outb.toNat then
      failedAt t .allocationFailed s.streamPos.toNat ∧
        t = { s with ign := false, runState := .failed, err := t.err, failPos := t.failPos,
                     streamPos := s.streamOrigin, ncolors := 0 }
    else t = { s with ign := false, rowY := 0, runState := .rows, out := t.out, outRaced := [] } ∧
      (∀ a, Memory.read t.out a = s.surfaceByte a) ∧ (s.outRaced = [] → t.out = s.out)

/-! ### The run-length decoder -/

/-- R133: LIT, from its one byte: the run it sets up, and the single emission that follows it in FILL_RLE. -/
def Obligations.LiteralEmitsItsByteOnce : Prop :=
  ∀ (s : State) (v : Byte), v.toNat < 0xC0 → s.streamHolds [v] →
    exec (.lit v) s = .next { s with
      streamPos := BitVec.ofNat 32 (s.streamPos.toNat + 1), runVal := v, runCnt := 1 } ∧
    (s.runCnt = 0 → s.fillI.toNat < s.n → s.n ≤ s.params.scratchCap → ∃ t, fillPass s = .ok () t ∧
      t = { s with streamPos := BitVec.ofNat 32 (s.streamPos.toNat + 1), runVal := v, runCnt := 0,
                   fillI := BitVec.ofNat 32 (s.fillI.toNat + 1), scratch := t.scratch } ∧
      ∀ i, t.scratchByte i = if i = s.fillI.toNat then v else s.scratchByte i)

/-- R134: RUN, from its two bytes: the run it sets up, and the `min(n, N - FILL_I)` emissions that follow it in
FILL_RLE. -/
def Obligations.RunEmitsItsByteUpToTheCount : Prop :=
  ∀ (s : State) (n : BitVec 6) (v : Byte), n ≠ 0 → s.streamHolds [3#2 ++ n, v] →
    exec (.run n v) s = .next { s with
      streamPos := BitVec.ofNat 32 (s.streamPos.toNat + 2), runVal := v, runCnt := n } ∧
    (s.runCnt = 0 → s.fillI.toNat < s.n → s.n ≤ s.params.scratchCap →
      let m := min n.toNat (s.n - s.fillI.toNat)
      ∃ t, (∀ k, fillLoop (m + k) s = fillLoop k t) ∧
        t = { s with streamPos := BitVec.ofNat 32 (s.streamPos.toNat + 2), runVal := v,
                     runCnt := BitVec.ofNat 6 (n.toNat - m), fillI := BitVec.ofNat 32 (s.fillI.toNat + m),
                     scratch := t.scratch } ∧
        ∀ i, t.scratchByte i =
          if s.fillI.toNat ≤ i ∧ i < s.fillI.toNat + m then v else s.scratchByte i)

/-- R135: RUN0 consumes its two bytes under every policy; then NOP changes nothing else, CORRUPT fails just past the
value byte, FILL_REST writes the value to every remaining scratch byte. -/
def Obligations.ZeroRunFollowsThePolicy : Prop :=
  ∀ (s : State) (v : Byte), s.streamHolds [0xC0#8, v] → s.fillI.toNat ≤ s.n → s.n ≤ s.params.scratchCap →
    ∃ t, exec (.run0 v) s = .next t ∧
      match s.params.zeroRunPolicy with
      | .nop => t = { s with streamPos := BitVec.ofNat 32 (s.streamPos.toNat + 2) }
      | .corrupt => failedAt t .corrupt (s.streamPos.toNat + 2) ∧
          t = { s with runState := .failed, err := t.err, failPos := t.failPos, streamPos := s.streamOrigin,
                       ncolors := 0 }
      | .fillRest => t = { s with streamPos := BitVec.ofNat 32 (s.streamPos.toNat + 2), fillI := s.nbytes,
                                  scratch := t.scratch } ∧
          ∀ i, t.scratchByte i = if s.fillI.toNat ≤ i ∧ i < s.n then v else s.scratchByte i

/-- R134, R135, R138: a two-byte code whose value byte is missing fails with Truncated, one byte past its control byte,
under every policy. That exec of a code takes in the read of its control byte, and uses its operand even where the
stream holds another byte there, is the model's own choice (log entry 12). -/
def Obligations.MissingValueByteIsTruncated : Prop :=
  ∀ (s : State) (n : BitVec 6) (v : Byte),
    s.readable 1 → s.streamPos.toNat + 1 = s.streamLen.toNat →
    ∃ t, exec (.run n v) s = .next t ∧ exec (.run0 v) s = .next t ∧
      failedAt t .truncated (s.streamPos.toNat + 1) ∧
      t = { s with runState := .failed, err := t.err, failPos := t.failPos, streamPos := s.streamOrigin,
                   ncolors := 0 }

/-- R131: FILL_RAW: where N bytes are left they become scratch bytes 0 to N - 1, in order, whatever their values;
where fewer are left it fails with Truncated at its starting position (R62), no scratch byte written. -/
def Obligations.FillRawCopiesTheScanline : Prop :=
  ∀ s : State,
    (s.readable s.n → s.n ≤ s.params.scratchCap → ∃ t, exec .fillRaw s = .next t ∧
      t = { s with streamPos := BitVec.ofNat 32 (s.streamPos.toNat + s.n), scratch := t.scratch } ∧
      ∀ i, t.scratchByte i =
        if i < s.n then Memory.read s.stream (s.streamPos.toNat + i) else s.scratchByte i) ∧
    (s.streamLen.toNat < s.streamPos.toNat + s.n →
      exec .fillRaw s = .next { s with runState := .failed, err := some .truncated, failPos := s.streamPos,
                                       streamPos := s.streamOrigin, ncolors := 0 })

/-- R132, R136: FILL_RLE decodes the codes of the stream to exactly N scratch bytes, from run count 0 whatever the last
request left, with a run that goes past N cut there; scratch bytes from N on, and everything else, are untouched. -/
def Obligations.FillRleDecodesTheCodes : Prop :=
  ∀ (s : State) (pre : List Instr) (c : Instr), fillsWith s.params.zeroRunPolicy s.n pre c →
    s.streamHolds (codeBytes (pre ++ [c])) → s.n ≤ s.params.scratchCap → ∃ t, exec .fillRle s = .next t ∧
    t = { s with streamPos := BitVec.ofNat 32 (s.streamPos.toNat + (codeBytes (pre ++ [c])).length),
                 scratch := t.scratch, runCnt := t.runCnt, runVal := t.runVal, fillI := s.nbytes } ∧
    ∀ i, t.scratchByte i = if i < s.n then (emittedAll (pre ++ [c])).getD i 0 else s.scratchByte i

/-- R139: with N = 0 a request reads no stream byte in either mode and leaves the scratch buffer unchanged. -/
def Obligations.EmptyRequestReadsNothing : Prop :=
  ∀ s : State, s.n = 0 →
    exec .fillRle s = .next { s with runCnt := 0, fillI := 0 } ∧
    (s.streamPos.toNat ≤ s.streamLen.toNat → exec .fillRaw s = .next s)

/-- R130, R132, R137, R138: FILL_RLE always ends: it fills all N bytes, or it fails with Truncated at the end of the
stream, or, under ZERO_RUN_POLICY CORRUPT only, with Corrupt. It writes no scratch byte at N or above and no byte of
OUT. -/
def Obligations.FillRleAlwaysEnds : Prop :=
  ∀ s : State, s.n ≤ s.params.scratchCap → s.streamGuarantee → s.streamPos.toNat ≤ s.streamLen.toNat →
    ∃ t, exec .fillRle s = .next t ∧ t.out = s.out ∧ (∀ i, s.n ≤ i → t.scratchByte i = s.scratchByte i) ∧
      ((t.runState = s.runState ∧ t.fillI = s.nbytes ∧ s.streamPos.toNat ≤ t.streamPos.toNat ∧
          t.streamPos.toNat ≤ s.streamLen.toNat) ∨
        failedAt t .truncated s.streamLen.toNat ∨
        (s.params.zeroRunPolicy = .corrupt ∧ failedAt t .corrupt t.failPos.toNat))

/-- R140: `FILL n, v` and then codes for the other bytes decodes to a scanline whose first n bytes are v; n = 1, n = 63
and a run split across two control bytes among them. -/
def Obligations.FillCodesRoundTrip : Prop :=
  ∀ (s : State) (n : Nat) (v : Byte) (cs : List Instr), 1 ≤ n → (∀ c ∈ cs, emitsAlways c = true) →
    n + (emittedAll cs).length = s.n → s.streamHolds (codeBytes (fillCodes n v ++ cs)) →
    s.n ≤ s.params.scratchCap →
    ∃ t, exec .fillRle s = .next t ∧ t.runState = s.runState ∧
      (∀ i, i < n → t.scratchByte i = v) ∧
      (∀ j, j < (emittedAll cs).length → t.scratchByte (n + j) = (emittedAll cs).getD j 0) ∧
      t.streamPos.toNat = s.streamPos.toNat + (codeBytes (fillCodes n v ++ cs)).length

/-! ### The plane unpacker -/

/-- R161: CLEAR_ROW sets exactly the pixel bytes of row ROW_Y to 0. -/
def Obligations.ClearRowZeroesThePixelBytes : Prop :=
  ∀ s : State, s.rowFits → ∃ t, exec .clearRow s = .next t ∧ t = { s with out := t.out } ∧
    ∀ a, Memory.read t.out a =
      if s.base ≤ a ∧ a < s.base + s.width.toInt.toNat * s.outb.toNat then 0 else Memory.read s.out a

/-- R162: UNPACK_SUB ORs into the byte of column x the bit of each plane at that column, shifted by the plane; the bits
of columns past WIDTH are discarded, and no other byte of OUT changes. -/
def Obligations.UnpackSubOrsThePlaneBits : Prop :=
  ∀ (s : State) (np : Byte), np.toNat ≤ 4 → np.toNat * s.bpl.toNat ≤ s.params.scratchCap →
    s.base + s.width.toInt.toNat ≤ s.params.outSize →
    ∃ t, exec (.unpackSub np) s = .next t ∧ t = { s with out := t.out } ∧
    ∀ a, Memory.read t.out a =
      if s.base ≤ a ∧ a < s.base + s.width.toInt.toNat then
        Memory.read s.out a ||| subPixel s.scratchByte s.bpl.toNat np.toNat (a - s.base)
      else Memory.read s.out a

/-- R166: after CLEAR_ROW every pixel UNPACK_SUB writes is below `2^NP`. -/
def Obligations.SubPixelsAreBelowTwoToThePlanes : Prop :=
  ∀ (s t u : State) (np : Byte), np.toNat ≤ 4 → s.outb = 1 → exec .clearRow s = .next t →
    exec (.unpackSub np) t = .next u →
    ∀ x, x < s.width.toInt.toNat → (Memory.read u.out (s.base + x)).toNat < 2 ^ np.toNat

/-- R163: UNPACK_IDX8 copies `min(WIDTH, N)` scratch bytes to the row and changes nothing else. -/
def Obligations.UnpackIdx8CopiesTheScanline : Prop :=
  ∀ s : State, min s.width.toInt.toNat s.n ≤ s.params.scratchCap →
    s.base + min s.width.toInt.toNat s.n ≤ s.params.outSize →
    ∃ t, exec .unpackIdx8 s = .next t ∧ t = { s with out := t.out } ∧
    ∀ a, Memory.read t.out a =
      if s.base ≤ a ∧ a < s.base + min s.width.toInt.toNat s.n then s.scratchByte (a - s.base)
      else Memory.read s.out a

/-- R164: UNPACK_RGB24 where every plane has WIDTH bytes: output byte `3x + p` of the row is byte x of plane p, and
nothing else changes. -/
def Obligations.UnpackRgb24Interleaves : Prop :=
  ∀ s : State, 1 ≤ s.bpl → s.width.toInt ≤ s.bpl → (s.n : Int) = 3 * s.bpl → s.n ≤ s.params.scratchCap →
    3 * s.width.toInt.toNat ≤ s.cfgPitch.toNat → s.base + 3 * s.width.toInt.toNat ≤ s.params.outSize →
    ∃ t, exec .unpackRgb24 s = .next t ∧ t = { s with out := t.out } ∧
    ∀ a, Memory.read t.out a =
      if s.base ≤ a ∧ a < s.base + 3 * s.width.toInt.toNat then
        s.scratchByte ((a - s.base) % 3 * s.bpl.toNat + (a - s.base) / 3)
      else Memory.read s.out a

/-- R165: with a surface that START accepts, UNPACK_RGB24 fails with Corrupt exactly when `BPL <= 0` or `WIDTH > BPL`;
even then no byte of OUT outside the row changes. -/
def Obligations.UnpackRgb24CorruptExactlyWhenPlaneShort : Prop :=
  ∀ s : State, 1 ≤ s.width.toInt → (s.n : Int) = (if 0 < s.bpl then 3 * s.bpl else 0) →
    s.n ≤ s.params.scratchCap → 3 * s.width.toInt.toNat ≤ s.cfgPitch.toNat →
    s.base + 3 * s.width.toInt.toNat ≤ s.params.outSize →
    ∃ t, exec .unpackRgb24 s = .next t ∧
      (s.bpl ≤ 0 ∨ s.bpl < s.width.toInt → failedAt t .corrupt s.streamPos.toNat) ∧
      (¬(s.bpl ≤ 0 ∨ s.bpl < s.width.toInt) → t.runState = s.runState ∧ t.err = s.err) ∧
      ∀ a, ¬(s.base ≤ a ∧ a < s.base + 3 * s.width.toInt.toNat) → Memory.read t.out a = Memory.read s.out a

/-- R167: the row that CLEAR_ROW and then an unpacker leave depends on the scratch bytes below N and the configuration
only: two states that differ in every other scratch byte, in what OUT held, in the stream and in what the fill left
behind end with the same pixel bytes, and fail alike. -/
def Obligations.UnpackDependsOnScanlineOnly : Prop :=
  ∀ (i : Instr) (s u s1 t : State), i = .unpackSub s.cfgNplanes ∨ i = .unpackIdx8 ∨ i = .unpackRgb24 →
    u = { s with scratch := u.scratch, scratchZeroed := u.scratchZeroed, resetCount := u.resetCount,
                 stream := u.stream, streamPos := u.streamPos, runCnt := u.runCnt, runVal := u.runVal,
                 fillI := u.fillI, out := u.out } →
    s.n = s.scanBytes → (∀ j, j < s.n → u.scratchByte j = s.scratchByte j) →
    exec .clearRow s = .next s1 → exec i s1 = .next t →
    ∃ u1 t', exec .clearRow u = .next u1 ∧ exec i u1 = .next t' ∧ t'.runState = t.runState ∧ t'.err = t.err ∧
      ∀ a, s.inRow a → Memory.read t'.out a = Memory.read t.out a

/-! ### The palette resolver -/

/-- R191: PAL_INLINE copies the first `2^SRC_BITS` inline entries and reads no stream byte. -/
def Obligations.PalInlineCopiesTheHeaderPalette : Prop :=
  ∀ s : State, s.srcBits.toNat ≤ 4 → ∃ t, exec .palInline s = .next t ∧
    t = { s with colorTable := t.colorTable, ncolors := BitVec.ofNat 9 (2 ^ s.srcBits.toNat) } ∧
    ∀ i, t.colorTable.get i = if i < 2 ^ s.srcBits.toNat then s.inlinePal.get i else s.colorTable.get i

/-- R192, R194: PAL_TRAILING takes the first byte equal to 12 at or after STREAM_POS as the marker and the 768 bytes
after it as the table, red, green, blue. -/
def Obligations.PalTrailingReadsTheTableAfterTheMarker : Prop :=
  ∀ (s : State) (k : Nat), s.readable (k + 1 + 768) →
    (∀ j, j < k → Memory.read s.stream (s.streamPos.toNat + j) ≠ 12) →
    Memory.read s.stream (s.streamPos.toNat + k) = 12 →
    ∃ t, exec .palTrailing s = .next t ∧
      t = { s with streamPos := BitVec.ofNat 32 (s.streamPos.toNat + k + 769), colorTable := t.colorTable,
                   ncolors := 256 } ∧
      ∀ i, i < 256 →
        let byte (c : Nat) : Nat := (Memory.read s.stream (s.streamPos.toNat + k + 1 + 3 * i + c)).toNat
        (t.colorTable.get i).toNat = byte 0 + byte 1 * 256 + byte 2 * 65536

/-- R193: where no byte from STREAM_POS on is 12, the table is the last 768 bytes of the stream. -/
def Obligations.PalTrailingFallsBackToTheEnd : Prop :=
  ∀ s : State, s.streamGuarantee → 768 ≤ s.streamLen.toNat →
    (∀ a, s.streamPos.toNat ≤ a → a < s.streamLen.toNat → Memory.read s.stream a ≠ 12) →
    ∃ t, exec .palTrailing s = .next t ∧
      t = { s with streamPos := s.streamLen, colorTable := t.colorTable, ncolors := 256 } ∧
      ∀ i, i < 256 →
        let byte (c : Nat) : Nat := (Memory.read s.stream (s.streamLen.toNat - 768 + 3 * i + c)).toNat
        (t.colorTable.get i).toNat = byte 0 + byte 1 * 256 + byte 2 * 65536

/-- R192, R193, R195: the two ways the palette is truncated: fewer than 768 bytes after the marker (there is no
fallback then), and no marker in a stream shorter than 768 bytes. COLOR_TABLE is not written. -/
def Obligations.PalTrailingTruncated : Prop :=
  ∀ s : State, s.streamGuarantee → s.streamPos.toNat ≤ s.streamLen.toNat →
    (∀ k, s.streamPos.toNat + k < s.streamLen.toNat → s.streamLen.toNat < s.streamPos.toNat + k + 1 + 768 →
      (∀ j, j < k → Memory.read s.stream (s.streamPos.toNat + j) ≠ 12) →
      Memory.read s.stream (s.streamPos.toNat + k) = 12 →
      ∃ t, exec .palTrailing s = .next t ∧ failedAt t .truncated (s.streamPos.toNat + k + 1) ∧
        t.colorTable = s.colorTable ∧ t.out = s.out) ∧
    (s.streamLen.toNat < 768 →
      (∀ a, s.streamPos.toNat ≤ a → a < s.streamLen.toNat → Memory.read s.stream a ≠ 12) →
      ∃ t, exec .palTrailing s = .next t ∧ failedAt t .truncated s.streamLen.toNat ∧
        t.colorTable = s.colorTable ∧ t.out = s.out)

/-! ### Engine steps -/

/-- What a ROWS step that does not fail leaves, whatever the layout: the stream position moved past the scanline, the
row counted, the state after it; nothing else but OUT, the scratch buffer and the hidden run registers. -/
def rowDone (s t : State) (k : Nat) : Prop :=
  t = { s with streamPos := BitVec.ofNat 32 (s.streamPos.toNat + k), rowY := BitVec.ofNat 32 (s.rowY.toNat + 1),
               runState := t.runState, out := t.out, scratch := t.scratch, runCnt := t.runCnt, runVal := t.runVal,
               fillI := t.fillI } ∧
  t.runState = (if (s.rowY.toNat + 1 : Int) = s.height.toInt then
    (if s.layout = .rgb24 then .done else .palette) else .rows)

/-- `s` after the failure entry (R266) with `k` at stream position `p`, nothing else changed. -/
def afterFailure (s : State) (k : ErrKind) (p : Nat) : State :=
  { s with runState := .failed, err := some k, failPos := BitVec.ofNat 32 p, streamPos := s.streamOrigin, ncolors := 0 }

/-- R230 with R162: a ROWS step of a sub-byte layout, in a state of the invariant whose next request fills the scanline
`bs` from `k` stream bytes: every pixel of row ROW_Y is the composition of its plane bits, 0 past the planes' end; no
other byte of OUT changes. -/
def Obligations.RowStepDecodesSubRow : Prop :=
  ∀ (s : State) (bs : List Byte) (k : Nat), s.Inv → s.runState = .rows → s.layout = .sub → s.fillsTo bs k →
    ∃ t, exec .rowStep s = .next t ∧ rowDone s t k ∧
    ∀ a, Memory.read t.out a =
      if s.base ≤ a ∧ a < s.base + s.width.toInt.toNat then
        subPixel (fun j => bs.getD j 0) s.bpl.toNat s.np (a - s.base)
      else Memory.read s.out a

/-- R230 with R163: a ROWS step of the 8-bit layout: pixel x is scanline byte x, 0 past the scanline's end. -/
def Obligations.RowStepDecodesIdx8Row : Prop :=
  ∀ (s : State) (bs : List Byte) (k : Nat), s.Inv → s.runState = .rows → s.layout = .idx8 → s.fillsTo bs k →
    ∃ t, exec .rowStep s = .next t ∧ rowDone s t k ∧
    ∀ a, Memory.read t.out a =
      if s.base ≤ a ∧ a < s.base + s.width.toInt.toNat then bs.getD (a - s.base) 0 else Memory.read s.out a

/-- R230 with R164, R165: a ROWS step of the 24-bit layout: where the planes are wide enough, output byte `3x + p` is
byte x of plane p; where they are not, the step fails with Corrupt just past the scanline, with ROW_Y still the row. -/
def Obligations.RowStepDecodesRgb24Row : Prop :=
  ∀ (s : State) (bs : List Byte) (k : Nat), s.Inv → s.runState = .rows → s.layout = .rgb24 → s.fillsTo bs k →
    ∃ t, exec .rowStep s = .next t ∧
      (s.width.toInt ≤ s.bpl → rowDone s t k ∧
        ∀ a, Memory.read t.out a =
          if s.base ≤ a ∧ a < s.base + 3 * s.width.toInt.toNat then
            bs.getD ((a - s.base) % 3 * s.bpl.toNat + (a - s.base) / 3) 0
          else Memory.read s.out a) ∧
      (s.bpl < s.width.toInt → failedAt t .corrupt (s.streamPos.toNat + k) ∧ t.rowY = s.rowY)

/-- R230, R265, R266, program P5: a ROWS step whose fill fails does so before CLEAR_ROW: OUT is untouched, ROW_Y stays at the
row, STREAM_POS is rewound. The fill fails with Truncated on a raw row that the stream cannot fill, and on an RLE row
where the stream ends with room left: with STREAM_POS at its end or past it from the start, after codes that leave room,
or after those and a control byte whose value byte is missing; under CORRUPT it fails with Corrupt at a RUN0. -/
def Obligations.ShortRowIsTruncatedBeforeClearing : Prop :=
  ∀ s : State, s.runState = .rows →
    let rleFails (k : ErrKind) (p : Nat) : Prop := ∃ t, exec .rowStep s = .next t ∧
      t = { afterFailure s k p with scratch := t.scratch, runCnt := t.runCnt, runVal := t.runVal, fillI := t.fillI }
    (s.cfgEnc = 0 → s.streamLen.toNat < s.streamPos.toNat + s.n →
      exec .rowStep s = .next (afterFailure s .truncated s.streamPos.toNat)) ∧
    (s.cfgEnc = 1 → 0 < s.n → s.streamLen.toNat ≤ s.streamPos.toNat → rleFails .truncated s.streamPos.toNat) ∧
    (s.cfgEnc = 1 → s.n ≤ s.params.scratchCap →
      ∀ pre, (∀ i ∈ pre, plainCode s.params.zeroRunPolicy i = true) → (emittedAll pre).length < s.n →
      (∀ rest, rest = [] ∨ (∃ c : Byte, rest = [c] ∧ 0xC0 ≤ c.toNat) → s.streamHolds (codeBytes pre ++ rest) →
        s.streamPos.toNat + (codeBytes pre ++ rest).length = s.streamLen.toNat →
        rleFails .truncated s.streamLen.toNat) ∧
      (∀ v, s.params.zeroRunPolicy = .corrupt → s.streamHolds (codeBytes (pre ++ [.run0 v])) →
        rleFails .corrupt (s.streamPos.toNat + (codeBytes (pre ++ [.run0 v])).length)))

/-- R64, R160, R230: whatever a ROWS step does (a failing one too), it changes no byte of OUT but the pixel bytes of row
ROW_Y: row padding, the other rows and everything around them keep their values. -/
def Obligations.RowStepWritesOnlyItsRow : Prop :=
  ∀ s t : State, s.Inv → exec .rowStep s = .next t →
    ∀ a, ¬s.inRow a → Memory.read t.out a = Memory.read s.out a

/-- R231, R191 to R195: the PALETTE step runs the operation of its layout. The inline palette, the table after the
marker and the one at the end of the stream end it in DONE; a short table after the marker, and no marker in a stream
of fewer than 768 bytes, end it in FAILED with the colour table still 0. -/
def Obligations.PalStepFillsTheTableAndEnds : Prop :=
  ∀ s : State, s.Inv → s.runState = .palette →
    let tableAt (t : State) (a : Nat) : Prop := ∀ i, i < 256 → t.colorTable.get i =
      rgb (Memory.read s.stream (a + 3 * i)) (Memory.read s.stream (a + 3 * i + 1)) (Memory.read s.stream (a + 3 * i + 2))
    let ends (t : State) (p : Word) (n : BitVec 9) : Prop := exec .palStep s = .next t ∧
      t = { s with streamPos := p, colorTable := t.colorTable, ncolors := n, runState := .done }
    let truncated (p : Nat) : Prop := exec .palStep s = .next (afterFailure s .truncated p) ∧
      ∀ i, (afterFailure s .truncated p).colorTable.get i = 0
    let noMarkerBefore (a : Nat) : Prop := ∀ b, s.streamPos.toNat ≤ b → b < a → Memory.read s.stream b ≠ 12
    (s.layout = .sub → ∃ t, ends t s.streamPos (BitVec.ofNat 9 (2 ^ s.np)) ∧
      ∀ i, t.colorTable.get i = if i < 2 ^ s.np then s.inlinePal.get i else 0) ∧
    (s.layout = .idx8 →
      (∀ k, s.readable (k + 1) → noMarkerBefore (s.streamPos.toNat + k) →
        Memory.read s.stream (s.streamPos.toNat + k) = 12 →
        (s.readable (k + 1 + 768) → ∃ t, ends t (BitVec.ofNat 32 (s.streamPos.toNat + k + 769)) 256 ∧
          tableAt t (s.streamPos.toNat + k + 1)) ∧
        (s.streamLen.toNat < s.streamPos.toNat + k + 769 → truncated (s.streamPos.toNat + k + 1))) ∧
      (s.streamGuarantee → noMarkerBefore s.streamLen.toNat →
        (768 ≤ s.streamLen.toNat → ∃ t, ends t s.streamLen 256 ∧ tableAt t (s.streamLen.toNat - 768)) ∧
        (s.streamLen.toNat < 768 → truncated (max s.streamPos.toNat s.streamLen.toNat))))

/-- R305: from ROWS, with the engine given every turn, `HEIGHT - ROW_Y` steps end the rows: in the palette step for an
indexed output, in DONE for RGB24, unless the decode has failed. -/
def Obligations.RowsEndAfterHeightSteps : Prop :=
  ∀ s : State, s.Inv → s.runState = .rows → s.inbox = [] → s.streamGuarantee →
    ∃ t, core.run (s.height.toInt.toNat - s.rowY.toNat) s = .next t ∧
      (t.runState = .failed ∨
        ((t.rowY.toNat : Int) = s.height.toInt ∧
          t.runState = (if s.layout = .rgb24 then .done else .palette)))

/-- R234: what a step does depends on the stream below STREAM_LEN only: with the registers and OUT the same, states
whose streams agree there take the same engine step. -/
def Obligations.BytesPastStreamLenHaveNoInfluence : Prop :=
  ∀ (i : Instr) (s t : State) (m : Memory), i = .rowStep ∨ i = .palStep →
    (∀ a, a < s.streamLen.toNat → Memory.read m a = Memory.read s.stream a) → exec i s = .next t →
    exec i { s with stream := m } = .next { t with stream := m }

/-- R36: no engine step moves STREAM_POS past STREAM_LEN: it stays at or below it, or the step failed and rewound. -/
def Obligations.EngineStepKeepsStreamPosInStream : Prop :=
  ∀ (i : Instr) (s t : State), i = .rowStep ∨ i = .palStep → s.streamPos.toNat ≤ s.streamLen.toNat →
    exec i s = .next t →
    t.streamPos.toNat ≤ t.streamLen.toNat ∨ (t.runState = .failed ∧ t.streamPos = t.streamOrigin)

/-! ### The whole machine -/

/-- R24, R25, R26, R32, R60: no instruction writes a configuration register, STREAM_ORIGIN, STREAM_LEN, the inline
palette or the stream; nor the parameters, the inbox or the bus; and none but START the list of races. -/
def Obligations.NoInstructionWritesConfiguration : Prop :=
  ∀ (i : Instr) (s t : State), exec i s = .next t →
    s = { t with runState := s.runState, err := s.err, ign := s.ign, rowY := s.rowY, layout := s.layout,
                 outb := s.outb, srcBits := s.srcBits, width := s.width, height := s.height, nbytes := s.nbytes,
                 ncolors := s.ncolors, streamPos := s.streamPos, failPos := s.failPos, colorTable := s.colorTable,
                 scratch := s.scratch, scratchZeroed := s.scratchZeroed, runCnt := s.runCnt, runVal := s.runVal,
                 fillI := s.fillI, out := s.out, outRaced := s.outRaced } ∧
      (i ≠ .start → t.outRaced = s.outRaced)

/-- R27: nothing but VALIDATE writes the derived registers. -/
def Obligations.OnlyValidateWritesDerivedRegisters : Prop :=
  ∀ (i : Instr) (s t : State), exec i s = .next t → i ≠ .validate →
    t.layout = s.layout ∧ t.outb = s.outb ∧ t.srcBits = s.srcBits ∧ t.width = s.width ∧ t.height = s.height ∧
      t.nbytes = s.nbytes

/-- R38, R266: FAIL_POS changes only where the failure entry is taken. -/
def Obligations.FailPosChangesOnlyInFailure : Prop :=
  ∀ (i : Instr) (s t : State), exec i s = .next t → t.failPos = s.failPos ∨
    (t.runState = .failed ∧ t.err ≠ none ∧ t.streamPos = t.streamOrigin ∧ t.ncolors = 0)

/-- R268: no instruction but CLEAR leaves FAILED. -/
def Obligations.FailedIsLeftOnlyByClear : Prop :=
  ∀ (i : Instr) (s t : State), exec i s = .next t → s.runState = .failed → i ≠ .clear → t.runState = .failed

/-- R220, R221, R102: while the block is busy no host command changes anything but IGN. -/
def Obligations.NoCommandDisturbsBusyBlock : Prop :=
  ∀ (s : State) (offset : BitVec 12) (w : Word) (rest : List HostOp),
    s.runState = .rows ∨ s.runState = .palette → s.inbox = .write offset w :: rest → offset.toNat < 4 →
    step s = .next { s with inbox := rest, ign := decide (w.toNat % 8 ≠ 0) }

/-! ### The register window -/

/-- R34, R35, R226: a host write to a register other than CMD: inside its window it stores the held bits and leaves IGN
and every other register, the hidden ones and the scratch buffer too, as they were; outside it, or to a read-only or reserved offset, it sets IGN and nothing
else. -/
def Obligations.HostWriteFollowsItsWindow : Prop :=
  ∀ (s : State) (offset : BitVec 12) (w : Word) (rest : List HostOp), s.inbox = .write offset w :: rest →
    regAt offset ≠ .cmd → ∃ t, step s = .next t ∧
    (accepts (regAt offset) s.runState = true → readReg (regAt offset) t = w &&& heldMask (regAt offset) ∧
      (∀ o, regAt o ≠ regAt offset → readReg (regAt o) t = readReg (regAt o) s) ∧
      t.ign = s.ign ∧ t.stream = s.stream ∧ t.out = s.out ∧ t.inbox = rest ∧
      t.scratch = s.scratch ∧ t.scratchZeroed = s.scratchZeroed ∧ t.runCnt = s.runCnt ∧ t.runVal = s.runVal ∧
      t.fillI = s.fillI) ∧
    (accepts (regAt offset) s.runState = false → t = { s with inbox := rest, ign := true })

/-- R66, R70, R71, R227: a host read returns the register of the aligned offset, with unheld bits 0, and changes nothing
of the block. -/
def Obligations.HostReadHasNoSideEffect : Prop :=
  ∀ (s : State) (offset : BitVec 12) (rest : List HostOp), s.inbox = .read offset :: rest →
    ∃ w, step s = .next { s with inbox := rest, rdata := w } ∧
      w = readReg (regAt (offset &&& 0xFFC)) s ∧ w &&& ~~~heldMask (regAt offset) = 0

/-- R21, R35: the map of the window: the offsets of R21's table and nothing else; a reserved offset reads 0. -/
def Obligations.ReservedOffsetsReadZero : Prop :=
  ∀ (s : State) (offset : BitVec 12),
    (0x058 ≤ offset.toNat ∧ offset.toNat ≤ 0x0FF ∨ 0x140 ≤ offset.toNat ∧ offset.toNat ≤ 0x3FF ∨
      0x800 ≤ offset.toNat) ↔ regAt offset = .reserved ∧ readReg (regAt offset) s = 0

/-- R23: STATUS holds the codes of STATE, ERR and IGN at their places and 0 elsewhere; no state shows STATE or ERR 6 or
7. -/
def Obligations.StatusWordHasThreeFields : Prop :=
  ∀ s : State, s.statusWord.toNat =
      s.runState.code.toNat + 16 * (errCode s.err).toNat + (if s.ign then 256 else 0) ∧
    s.runState.code.toNat < 6 ∧ (errCode s.err).toNat < 6

/-- R106: WAIT leaves the engine its turns while the block is busy, and goes on when it is not. -/
def Obligations.WaitPollsUntilNotBusy : Prop :=
  ∀ (s : State) (rest : List HostOp), s.inbox = .wait :: rest →
    (s.runState = .rows → step s = exec .rowStep { s with rdata := s.statusWord }) ∧
    (s.runState = .palette → step s = exec .palStep { s with rdata := s.statusWord }) ∧
    (s.runState ≠ .rows → s.runState ≠ .palette →
      step s = .next { s with inbox := rest, rdata := s.statusWord })

/-! ### The invariant -/

/-- The state after reset meets the invariant. -/
def Obligations.ResetMeetsInvariant : Prop := State.reset.Inv

/-- Every step keeps the invariant, whatever the host does. -/
def Obligations.StepKeepsInvariant : Prop := ∀ s t : State, s.Inv → step s = .next t → t.Inv

/-- In a state of the invariant, with the host keeping its guarantee and its accesses inside the byte spaces, no step
ends in a fault or a refusal. -/
def Obligations.InvariantStatesNeverStop : Prop :=
  ∀ s : State, s.Inv → s.streamGuarantee → s.hostInSpace → Goes (step s)

/-! ### The surface as the host finds it -/

/-- R75, R233, R296: what the host finds in the output space. A load puts it on the bus and changes nothing else; a
store puts its byte in OUT, where the host finds it unless the byte is now raced for, and leaves every other byte. What
the host finds is what was stored last, at every address while the block is busy, and at every address not listed as
raced otherwise. A byte is listed only by a host store to a pixel byte of the busy block; a decode begins with none
listed, and OUT then holds what the host found. The list is the model's own (log entry 4). -/
def Obligations.SurfaceByteIsFreeOnlyAfterARace : Prop :=
  ∀ s t : State, step s = .next t →
    (∀ a rest, s.inbox = .loadSurface a :: rest →
      t = { s with inbox := rest, rdata := (s.surfaceByte a.toNat).setWidth 32 }) ∧
    (∀ a v rest, s.inbox = .storeSurface a v :: rest →
      t = { s with inbox := rest, out := t.out, outRaced := t.outRaced, raceCount := t.raceCount } ∧
      (∀ b, Memory.read t.out b = if b = a.toNat then v else Memory.read s.out b) ∧
      (∀ r, r.1 ≠ a.toNat → (r ∈ t.outRaced ↔ r ∈ s.outRaced)) ∧
      (s.busy = false ∨ s.isPixelByte a.toNat = false → ∀ r ∈ t.outRaced, r.1 ≠ a.toNat)) ∧
    (∀ a, t.busy = true ∨ (∀ r ∈ t.outRaced, r.1 ≠ a) → t.surfaceByte a = Memory.read t.out a) ∧
    (∀ r, r ∈ t.outRaced → r ∈ s.outRaced ∨ (s.busy = true ∧ s.isPixelByte r.1 = true ∧
      ∃ a v rest, s.inbox = .storeSurface a v :: rest ∧ a.toNat = r.1)) ∧
    (s.runState = .validated → t.runState = .rows →
      t.outRaced = [] ∧ ∀ a, Memory.read t.out a = s.surfaceByte a)
end

