-- ==== Sys2Proof/Laws/Memory.lean ====
section
/-! SUPPORT. The laws of byte memories and colour tables: read after write, and the canonical form every operation
keeps. -/

namespace Sys2Proof.Machine

@[simp] theorem Memory.lookup_nil (a : Nat) : Memory.lookup [] a = none := rfl

theorem Memory.lookup_cons (b : Nat) (w : Byte) (m : Memory) (a : Nat) :
    Memory.lookup ((b, w) :: m) a = if a = b then some w else Memory.lookup m a := rfl

theorem Memory.lookup_put (m : Memory) (a : Nat) (v : Byte) (c : Nat) :
    Memory.lookup (Memory.put m a v) c = if c = a then some v else Memory.lookup m c := by
  induction m with
  | nil => simp [Memory.put, Memory.lookup]
  | cons e m ih =>
    obtain ⟨b, w⟩ := e
    simp only [Memory.put]
    split
    · simp [Memory.lookup_cons]
    · split
      · next h => subst h; simp only [Memory.lookup_cons]; split <;> rfl
      · simp only [Memory.lookup_cons, ih]
        split <;> split <;> simp_all

theorem Memory.lookup_erase (m : Memory) (a c : Nat) :
    Memory.lookup (Memory.erase m a) c = if c = a then none else Memory.lookup m c := by
  induction m with
  | nil => simp [Memory.erase]
  | cons e m ih =>
    obtain ⟨b, w⟩ := e
    simp only [Memory.erase, List.filter_cons] at ih ⊢
    split
    · simp only [Memory.lookup_cons, ih]
      split <;> split <;> simp_all
    · simp only [ih, Memory.lookup_cons]
      split <;> simp_all

theorem Memory.read_put (m : Memory) (a : Nat) (v : Byte) (c : Nat) :
    Memory.read (Memory.put m a v) c = if c = a then v else Memory.read m c := by
  simp only [Memory.read, Memory.lookup_put]; split <;> simp

/-- Read after write, at every address. -/
theorem Memory.read_write (m : Memory) (a : Nat) (v : Byte) (c : Nat) :
    Memory.read (Memory.write m a v) c = if c = a then v else Memory.read m c := by
  simp only [Memory.write]
  split
  · next h => subst h; simp only [Memory.read, Memory.lookup_erase]; split <;> simp
  · exact Memory.read_put m a v c

@[simp] theorem Memory.read_write_same (m : Memory) (a : Nat) (v : Byte) :
    Memory.read (Memory.write m a v) a = v := by simp [Memory.read_write]

theorem Memory.read_write_other (m : Memory) {a c : Nat} (v : Byte) (h : c ≠ a) :
    Memory.read (Memory.write m a v) c = Memory.read m c := by simp [Memory.read_write, h]

@[simp] theorem Memory.length_readBytes (m : Memory) (a n : Nat) : (Memory.readBytes m a n).length = n := by
  simp [Memory.readBytes]

theorem Memory.getD_readBytes (m : Memory) (a n i : Nat) (d : Byte) (h : i < n) :
    (Memory.readBytes m a n).getD i d = Memory.read m (a + i) := by
  simp [Memory.readBytes, h]

theorem Memory.readBytes_succ (m : Memory) (a n : Nat) :
    Memory.readBytes m a (n + 1) = Memory.read m a :: Memory.readBytes m (a + 1) n := by
  simp only [Memory.readBytes, List.range_succ_eq_map, List.map_cons, List.map_map, Nat.add_zero]
  congr 1
  apply List.map_congr_left
  intro i _
  simp [Function.comp, Nat.add_assoc, Nat.add_comm 1]

/-! ### Canonical form -/

/-- Every listed address is at least `b`. -/
def Memory.above (b : Nat) (m : Memory) : Prop := ∀ c ∈ m, b ≤ c.1

theorem Memory.sorted_cons (a : Nat) (v : Byte) (m : Memory) :
    Memory.sorted ((a, v) :: m) = true ↔ Memory.above (a + 1) m ∧ Memory.sorted m = true := by
  induction m generalizing a v with
  | nil => simp [Memory.sorted, Memory.above]
  | cons e m ih =>
    obtain ⟨b, w⟩ := e
    simp only [Memory.sorted, Bool.and_eq_true, decide_eq_true_eq]
    constructor
    · rintro ⟨h1, h2⟩
      refine ⟨?_, h2⟩
      intro c hc
      rcases List.mem_cons.1 hc with rfl | hc
      · exact h1
      · have := (ih b w).1 h2
        have := this.1 c hc
        omega
    · rintro ⟨h1, h2⟩
      exact ⟨h1 (b, w) (by simp), h2⟩

theorem Memory.mem_put (m : Memory) (a : Nat) (v : Byte) (c : Host.Cell) (h : c ∈ Memory.put m a v) :
    c = (a, v) ∨ c ∈ m := by
  induction m with
  | nil => simp [Memory.put] at h; exact .inl h
  | cons e m ih =>
    obtain ⟨b, w⟩ := e
    simp only [Memory.put] at h
    split at h
    · rcases List.mem_cons.1 h with h | h
      · exact .inl h
      · exact .inr h
    · split at h
      · rcases List.mem_cons.1 h with h | h
        · exact .inl h
        · exact .inr (List.mem_cons_of_mem _ h)
      · rcases List.mem_cons.1 h with h | h
        · exact .inr (by simp [h])
        · rcases ih h with h | h
          · exact .inl h
          · exact .inr (List.mem_cons_of_mem _ h)

theorem Memory.sorted_put (m : Memory) (a : Nat) (v : Byte) (h : Memory.sorted m = true) :
    Memory.sorted (Memory.put m a v) = true := by
  induction m with
  | nil => simp [Memory.put, Memory.sorted]
  | cons e m ih =>
    obtain ⟨b, w⟩ := e
    have hs := (Memory.sorted_cons b w m).1 h
    simp only [Memory.put]
    split
    · next hab =>
      refine (Memory.sorted_cons a v _).2 ⟨?_, h⟩
      intro c hc
      rcases List.mem_cons.1 hc with rfl | hc
      · exact hab
      · have := hs.1 c hc
        omega
    · split
      · next hab => subst hab; exact (Memory.sorted_cons a v m).2 hs
      · refine (Memory.sorted_cons b w _).2 ⟨?_, ih hs.2⟩
        intro c hc
        rcases Memory.mem_put m a v c hc with rfl | hc
        · show b + 1 ≤ a
          omega
        · exact hs.1 c hc

theorem Memory.sorted_erase (m : Memory) (a : Nat) (h : Memory.sorted m = true) :
    Memory.sorted (Memory.erase m a) = true := by
  induction m with
  | nil => rfl
  | cons e m ih =>
    obtain ⟨b, w⟩ := e
    have hs := (Memory.sorted_cons b w m).1 h
    simp only [Memory.erase, List.filter_cons] at ih ⊢
    split
    · refine (Memory.sorted_cons b w _).2 ⟨?_, ih hs.2⟩
      intro c hc
      exact hs.1 c (List.mem_filter.1 hc).1
    · exact ih hs.2

theorem Memory.wf_iff (m : Memory) :
    Memory.wf m = true ↔ Memory.sorted m = true ∧ ∀ c ∈ m, c.2 ≠ Memory.unlisted := by
  simp [Memory.wf]

theorem Memory.wf_nil : Memory.wf [] = true := rfl

/-- Every store keeps the canonical form. -/
theorem Memory.wf_write (m : Memory) (a : Nat) (v : Byte) (h : Memory.wf m = true) :
    Memory.wf (Memory.write m a v) = true := by
  obtain ⟨hs, hz⟩ := (Memory.wf_iff m).1 h
  refine (Memory.wf_iff _).2 ?_
  simp only [Memory.write]
  split
  · exact ⟨Memory.sorted_erase m a hs, fun c hc => hz c (List.mem_filter.1 hc).1⟩
  · next hv =>
    refine ⟨Memory.sorted_put m a v hs, fun c hc => ?_⟩
    rcases Memory.mem_put m a v c hc with rfl | hc
    · exact hv
    · exact hz c hc

theorem Memory.sorted_write (m : Memory) (a : Nat) (v : Byte) (h : Memory.sorted m = true) :
    Memory.sorted (Memory.write m a v) = true := by
  simp only [Memory.write]
  split
  · exact Memory.sorted_erase m a h
  · exact Memory.sorted_put m a v h

theorem Memory.wf_writeBytes (m : Memory) (a : Nat) (vs : List Byte) (h : Memory.wf m = true) :
    Memory.wf (Memory.writeBytes m a vs) = true := by
  induction vs generalizing m a with
  | nil => exact h
  | cons v vs ih => exact ih _ _ (Memory.wf_write m a v h)

theorem Memory.lookup_none_of_above (m : Memory) (a : Nat) (h : Memory.above (a + 1) m) :
    Memory.lookup m a = none := by
  induction m with
  | nil => rfl
  | cons e m ih =>
    obtain ⟨b, w⟩ := e
    have hb := h (b, w) (by simp)
    simp only at hb
    rw [Memory.lookup_cons, if_neg (by omega)]
    exact ih fun c hc => h c (List.mem_cons_of_mem _ hc)

/-- Two canonical memories that read alike are the same list. -/
theorem Memory.ext_of_wf (m n : Memory) (hm : Memory.wf m = true) (hn : Memory.wf n = true)
    (h : ∀ a, Memory.read m a = Memory.read n a) : m = n := by
  obtain ⟨sm, zm⟩ := (Memory.wf_iff m).1 hm
  obtain ⟨sn, zn⟩ := (Memory.wf_iff n).1 hn
  have key : ∀ (m n : Memory), Memory.sorted m = true → (∀ c ∈ m, c.2 ≠ Memory.unlisted) →
      Memory.sorted n = true → (∀ c ∈ n, c.2 ≠ Memory.unlisted) →
      (∀ a, Memory.read m a = Memory.read n a) → m = n := by
    intro m
    induction m with
    | nil =>
      intro n _ _ sn zn h
      cases n with
      | nil => rfl
      | cons e n =>
        obtain ⟨b, w⟩ := e
        have := h b
        simp [Memory.read, Memory.lookup_cons] at this
        exact absurd this.symm (zn (b, w) (by simp))
    | cons e m ih =>
      intro n sm zm sn zn h
      obtain ⟨a, v⟩ := e
      have hsm := (Memory.sorted_cons a v m).1 sm
      cases n with
      | nil =>
        have := h a
        simp [Memory.read, Memory.lookup_cons] at this
        exact absurd this (zm (a, v) (by simp))
      | cons f n =>
        obtain ⟨b, w⟩ := f
        have hsn := (Memory.sorted_cons b w n).1 sn
        have hva : v ≠ Memory.unlisted := zm (a, v) (by simp)
        have hwb : w ≠ Memory.unlisted := zn (b, w) (by simp)
        have hab : a = b := by
          rcases Nat.lt_trichotomy a b with hlt | heq | hgt
          · exfalso
            have := h a
            rw [Memory.read, Memory.read, Memory.lookup_cons, if_pos rfl, Memory.lookup_cons,
              if_neg (by omega), Memory.lookup_none_of_above n a
                (fun c hc => by have := hsn.1 c hc; omega)] at this
            exact hva (by simpa using this)
          · exact heq
          · exfalso
            have := h b
            rw [Memory.read, Memory.read, Memory.lookup_cons, if_neg (by omega),
              Memory.lookup_none_of_above m b (fun c hc => by have := hsm.1 c hc; omega),
              Memory.lookup_cons, if_pos rfl] at this
            exact hwb (by simpa using this.symm)
        subst hab
        have hvw : v = w := by simpa [Memory.read, Memory.lookup_cons] using h a
        subst hvw
        congr 1
        refine ih n hsm.2 (fun c hc => zm c (List.mem_cons_of_mem _ hc)) hsn.2
          (fun c hc => zn c (List.mem_cons_of_mem _ hc)) fun c => ?_
        by_cases hc : c = a
        · subst hc
          simp [Memory.read, Memory.lookup_none_of_above m c hsm.1, Memory.lookup_none_of_above n c hsn.1]
        · have := h c
          simpa [Memory.read, Memory.lookup_cons, hc] using this
  exact key m n sm zm sn zn h

/-! ### Colour tables -/

@[simp] theorem RgbTable.get_zero (n i : Nat) : (RgbTable.zero n).get i = 0 := by
  by_cases h : i < n <;> simp [RgbTable.zero, RgbTable.get, h]

@[simp] theorem RgbTable.get_ofFn (n : Nat) (f : Nat → Rgb) (i : Nat) :
    (RgbTable.ofFn n f).get i = if i < n then f i else 0 := by
  by_cases h : i < n <;> simp [RgbTable.ofFn, RgbTable.get, h]

theorem RgbTable.get_of_le {n : Nat} (t : RgbTable n) (i : Nat) (h : n ≤ i) : t.get i = 0 := by
  have := t.size
  simp [RgbTable.get, this, h]

theorem RgbTable.get_set {n : Nat} (t : RgbTable n) (i : Nat) (v : Rgb) (j : Nat) :
    (t.set i v).get j = if j = i ∧ i < n then v else t.get j := by
  obtain ⟨l, hl⟩ := t
  subst hl
  simp only [RgbTable.get, RgbTable.set, List.getD_eq_getElem?_getD, List.getElem?_set]
  by_cases hij : i = j
  · subst hij
    by_cases hi : i < l.length
    · simp [hi]
    · simp [hi]
  · simp [hij, Ne.symm hij]

end Sys2Proof.Machine
end

