-- ==== Sys2Proof/Laws/State.lean ====
section
/-! SUPPORT. One lemma per field per named update of State, so that no proof unfolds a record update. -/

namespace Sys2Proof.Machine

/-! ### IGN set -/

@[simp] theorem State.withIgn_params (s : State) (b : Bool) : (s.withIgn b).params = s.params := rfl
@[simp] theorem State.withIgn_runState (s : State) (b : Bool) : (s.withIgn b).runState = s.runState := rfl
@[simp] theorem State.withIgn_err (s : State) (b : Bool) : (s.withIgn b).err = s.err := rfl
@[simp] theorem State.withIgn_ign (s : State) (b : Bool) : (s.withIgn b).ign = b := rfl
@[simp] theorem State.withIgn_rowY (s : State) (b : Bool) : (s.withIgn b).rowY = s.rowY := rfl
@[simp] theorem State.withIgn_layout (s : State) (b : Bool) : (s.withIgn b).layout = s.layout := rfl
@[simp] theorem State.withIgn_outb (s : State) (b : Bool) : (s.withIgn b).outb = s.outb := rfl
@[simp] theorem State.withIgn_srcBits (s : State) (b : Bool) : (s.withIgn b).srcBits = s.srcBits := rfl
@[simp] theorem State.withIgn_width (s : State) (b : Bool) : (s.withIgn b).width = s.width := rfl
@[simp] theorem State.withIgn_height (s : State) (b : Bool) : (s.withIgn b).height = s.height := rfl
@[simp] theorem State.withIgn_nbytes (s : State) (b : Bool) : (s.withIgn b).nbytes = s.nbytes := rfl
@[simp] theorem State.withIgn_ncolors (s : State) (b : Bool) : (s.withIgn b).ncolors = s.ncolors := rfl
@[simp] theorem State.withIgn_cfgEnc (s : State) (b : Bool) : (s.withIgn b).cfgEnc = s.cfgEnc := rfl
@[simp] theorem State.withIgn_cfgBpp (s : State) (b : Bool) : (s.withIgn b).cfgBpp = s.cfgBpp := rfl
@[simp] theorem State.withIgn_cfgNplanes (s : State) (b : Bool) : (s.withIgn b).cfgNplanes = s.cfgNplanes := rfl
@[simp] theorem State.withIgn_cfgBpl (s : State) (b : Bool) : (s.withIgn b).cfgBpl = s.cfgBpl := rfl
@[simp] theorem State.withIgn_cfgXmin (s : State) (b : Bool) : (s.withIgn b).cfgXmin = s.cfgXmin := rfl
@[simp] theorem State.withIgn_cfgYmin (s : State) (b : Bool) : (s.withIgn b).cfgYmin = s.cfgYmin := rfl
@[simp] theorem State.withIgn_cfgXmax (s : State) (b : Bool) : (s.withIgn b).cfgXmax = s.cfgXmax := rfl
@[simp] theorem State.withIgn_cfgYmax (s : State) (b : Bool) : (s.withIgn b).cfgYmax = s.cfgYmax := rfl
@[simp] theorem State.withIgn_cfgPitch (s : State) (b : Bool) : (s.withIgn b).cfgPitch = s.cfgPitch := rfl
@[simp] theorem State.withIgn_cfgOutBase (s : State) (b : Bool) : (s.withIgn b).cfgOutBase = s.cfgOutBase := rfl
@[simp] theorem State.withIgn_streamOrigin (s : State) (b : Bool) : (s.withIgn b).streamOrigin = s.streamOrigin := rfl
@[simp] theorem State.withIgn_streamPos (s : State) (b : Bool) : (s.withIgn b).streamPos = s.streamPos := rfl
@[simp] theorem State.withIgn_streamLen (s : State) (b : Bool) : (s.withIgn b).streamLen = s.streamLen := rfl
@[simp] theorem State.withIgn_failPos (s : State) (b : Bool) : (s.withIgn b).failPos = s.failPos := rfl
@[simp] theorem State.withIgn_inlinePal (s : State) (b : Bool) : (s.withIgn b).inlinePal = s.inlinePal := rfl
@[simp] theorem State.withIgn_colorTable (s : State) (b : Bool) : (s.withIgn b).colorTable = s.colorTable := rfl
@[simp] theorem State.withIgn_scratch (s : State) (b : Bool) : (s.withIgn b).scratch = s.scratch := rfl
@[simp] theorem State.withIgn_scratchZeroed (s : State) (b : Bool) :
    (s.withIgn b).scratchZeroed = s.scratchZeroed := rfl
@[simp] theorem State.withIgn_runCnt (s : State) (b : Bool) : (s.withIgn b).runCnt = s.runCnt := rfl
@[simp] theorem State.withIgn_runVal (s : State) (b : Bool) : (s.withIgn b).runVal = s.runVal := rfl
@[simp] theorem State.withIgn_fillI (s : State) (b : Bool) : (s.withIgn b).fillI = s.fillI := rfl
@[simp] theorem State.withIgn_stream (s : State) (b : Bool) : (s.withIgn b).stream = s.stream := rfl
@[simp] theorem State.withIgn_out (s : State) (b : Bool) : (s.withIgn b).out = s.out := rfl
@[simp] theorem State.withIgn_inbox (s : State) (b : Bool) : (s.withIgn b).inbox = s.inbox := rfl
@[simp] theorem State.withIgn_rdata (s : State) (b : Bool) : (s.withIgn b).rdata = s.rdata := rfl
@[simp] theorem State.withIgn_outRaced (s : State) (b : Bool) : (s.withIgn b).outRaced = s.outRaced := rfl
@[simp] theorem State.withIgn_raceCount (s : State) (b : Bool) : (s.withIgn b).raceCount = s.raceCount := rfl
@[simp] theorem State.withIgn_resetCount (s : State) (b : Bool) : (s.withIgn b).resetCount = s.resetCount := rfl

/-! ### STREAM_POS moved -/

@[simp] theorem State.withPos_params (s : State) (p : Nat) : (s.withPos p).params = s.params := rfl
@[simp] theorem State.withPos_runState (s : State) (p : Nat) : (s.withPos p).runState = s.runState := rfl
@[simp] theorem State.withPos_err (s : State) (p : Nat) : (s.withPos p).err = s.err := rfl
@[simp] theorem State.withPos_ign (s : State) (p : Nat) : (s.withPos p).ign = s.ign := rfl
@[simp] theorem State.withPos_rowY (s : State) (p : Nat) : (s.withPos p).rowY = s.rowY := rfl
@[simp] theorem State.withPos_layout (s : State) (p : Nat) : (s.withPos p).layout = s.layout := rfl
@[simp] theorem State.withPos_outb (s : State) (p : Nat) : (s.withPos p).outb = s.outb := rfl
@[simp] theorem State.withPos_srcBits (s : State) (p : Nat) : (s.withPos p).srcBits = s.srcBits := rfl
@[simp] theorem State.withPos_width (s : State) (p : Nat) : (s.withPos p).width = s.width := rfl
@[simp] theorem State.withPos_height (s : State) (p : Nat) : (s.withPos p).height = s.height := rfl
@[simp] theorem State.withPos_nbytes (s : State) (p : Nat) : (s.withPos p).nbytes = s.nbytes := rfl
@[simp] theorem State.withPos_ncolors (s : State) (p : Nat) : (s.withPos p).ncolors = s.ncolors := rfl
@[simp] theorem State.withPos_cfgEnc (s : State) (p : Nat) : (s.withPos p).cfgEnc = s.cfgEnc := rfl
@[simp] theorem State.withPos_cfgBpp (s : State) (p : Nat) : (s.withPos p).cfgBpp = s.cfgBpp := rfl
@[simp] theorem State.withPos_cfgNplanes (s : State) (p : Nat) : (s.withPos p).cfgNplanes = s.cfgNplanes := rfl
@[simp] theorem State.withPos_cfgBpl (s : State) (p : Nat) : (s.withPos p).cfgBpl = s.cfgBpl := rfl
@[simp] theorem State.withPos_cfgXmin (s : State) (p : Nat) : (s.withPos p).cfgXmin = s.cfgXmin := rfl
@[simp] theorem State.withPos_cfgYmin (s : State) (p : Nat) : (s.withPos p).cfgYmin = s.cfgYmin := rfl
@[simp] theorem State.withPos_cfgXmax (s : State) (p : Nat) : (s.withPos p).cfgXmax = s.cfgXmax := rfl
@[simp] theorem State.withPos_cfgYmax (s : State) (p : Nat) : (s.withPos p).cfgYmax = s.cfgYmax := rfl
@[simp] theorem State.withPos_cfgPitch (s : State) (p : Nat) : (s.withPos p).cfgPitch = s.cfgPitch := rfl
@[simp] theorem State.withPos_cfgOutBase (s : State) (p : Nat) : (s.withPos p).cfgOutBase = s.cfgOutBase := rfl
@[simp] theorem State.withPos_streamOrigin (s : State) (p : Nat) : (s.withPos p).streamOrigin = s.streamOrigin := rfl
@[simp] theorem State.withPos_streamPos (s : State) (p : Nat) : (s.withPos p).streamPos = BitVec.ofNat 32 p := rfl
@[simp] theorem State.withPos_streamLen (s : State) (p : Nat) : (s.withPos p).streamLen = s.streamLen := rfl
@[simp] theorem State.withPos_failPos (s : State) (p : Nat) : (s.withPos p).failPos = s.failPos := rfl
@[simp] theorem State.withPos_inlinePal (s : State) (p : Nat) : (s.withPos p).inlinePal = s.inlinePal := rfl
@[simp] theorem State.withPos_colorTable (s : State) (p : Nat) : (s.withPos p).colorTable = s.colorTable := rfl
@[simp] theorem State.withPos_scratch (s : State) (p : Nat) : (s.withPos p).scratch = s.scratch := rfl
@[simp] theorem State.withPos_scratchZeroed (s : State) (p : Nat) :
    (s.withPos p).scratchZeroed = s.scratchZeroed := rfl
@[simp] theorem State.withPos_runCnt (s : State) (p : Nat) : (s.withPos p).runCnt = s.runCnt := rfl
@[simp] theorem State.withPos_runVal (s : State) (p : Nat) : (s.withPos p).runVal = s.runVal := rfl
@[simp] theorem State.withPos_fillI (s : State) (p : Nat) : (s.withPos p).fillI = s.fillI := rfl
@[simp] theorem State.withPos_stream (s : State) (p : Nat) : (s.withPos p).stream = s.stream := rfl
@[simp] theorem State.withPos_out (s : State) (p : Nat) : (s.withPos p).out = s.out := rfl
@[simp] theorem State.withPos_inbox (s : State) (p : Nat) : (s.withPos p).inbox = s.inbox := rfl
@[simp] theorem State.withPos_rdata (s : State) (p : Nat) : (s.withPos p).rdata = s.rdata := rfl
@[simp] theorem State.withPos_outRaced (s : State) (p : Nat) : (s.withPos p).outRaced = s.outRaced := rfl
@[simp] theorem State.withPos_raceCount (s : State) (p : Nat) : (s.withPos p).raceCount = s.raceCount := rfl
@[simp] theorem State.withPos_resetCount (s : State) (p : Nat) : (s.withPos p).resetCount = s.resetCount := rfl

/-! ### The failure entry (R266) -/

@[simp] theorem State.failEntry_params (s : State) (k : ErrKind) : (s.failEntry k).params = s.params := rfl
@[simp] theorem State.failEntry_runState (s : State) (k : ErrKind) : (s.failEntry k).runState = .failed := rfl
@[simp] theorem State.failEntry_err (s : State) (k : ErrKind) : (s.failEntry k).err = some k := rfl
@[simp] theorem State.failEntry_ign (s : State) (k : ErrKind) : (s.failEntry k).ign = s.ign := rfl
@[simp] theorem State.failEntry_rowY (s : State) (k : ErrKind) : (s.failEntry k).rowY = s.rowY := rfl
@[simp] theorem State.failEntry_layout (s : State) (k : ErrKind) : (s.failEntry k).layout = s.layout := rfl
@[simp] theorem State.failEntry_outb (s : State) (k : ErrKind) : (s.failEntry k).outb = s.outb := rfl
@[simp] theorem State.failEntry_srcBits (s : State) (k : ErrKind) : (s.failEntry k).srcBits = s.srcBits := rfl
@[simp] theorem State.failEntry_width (s : State) (k : ErrKind) : (s.failEntry k).width = s.width := rfl
@[simp] theorem State.failEntry_height (s : State) (k : ErrKind) : (s.failEntry k).height = s.height := rfl
@[simp] theorem State.failEntry_nbytes (s : State) (k : ErrKind) : (s.failEntry k).nbytes = s.nbytes := rfl
@[simp] theorem State.failEntry_ncolors (s : State) (k : ErrKind) : (s.failEntry k).ncolors = 0 := rfl
@[simp] theorem State.failEntry_cfgEnc (s : State) (k : ErrKind) : (s.failEntry k).cfgEnc = s.cfgEnc := rfl
@[simp] theorem State.failEntry_cfgBpp (s : State) (k : ErrKind) : (s.failEntry k).cfgBpp = s.cfgBpp := rfl
@[simp] theorem State.failEntry_cfgNplanes (s : State) (k : ErrKind) :
    (s.failEntry k).cfgNplanes = s.cfgNplanes := rfl
@[simp] theorem State.failEntry_cfgBpl (s : State) (k : ErrKind) : (s.failEntry k).cfgBpl = s.cfgBpl := rfl
@[simp] theorem State.failEntry_cfgXmin (s : State) (k : ErrKind) : (s.failEntry k).cfgXmin = s.cfgXmin := rfl
@[simp] theorem State.failEntry_cfgYmin (s : State) (k : ErrKind) : (s.failEntry k).cfgYmin = s.cfgYmin := rfl
@[simp] theorem State.failEntry_cfgXmax (s : State) (k : ErrKind) : (s.failEntry k).cfgXmax = s.cfgXmax := rfl
@[simp] theorem State.failEntry_cfgYmax (s : State) (k : ErrKind) : (s.failEntry k).cfgYmax = s.cfgYmax := rfl
@[simp] theorem State.failEntry_cfgPitch (s : State) (k : ErrKind) : (s.failEntry k).cfgPitch = s.cfgPitch := rfl
@[simp] theorem State.failEntry_cfgOutBase (s : State) (k : ErrKind) :
    (s.failEntry k).cfgOutBase = s.cfgOutBase := rfl
@[simp] theorem State.failEntry_streamOrigin (s : State) (k : ErrKind) :
    (s.failEntry k).streamOrigin = s.streamOrigin := rfl
@[simp] theorem State.failEntry_streamPos (s : State) (k : ErrKind) :
    (s.failEntry k).streamPos = s.streamOrigin := rfl
@[simp] theorem State.failEntry_streamLen (s : State) (k : ErrKind) : (s.failEntry k).streamLen = s.streamLen := rfl
@[simp] theorem State.failEntry_failPos (s : State) (k : ErrKind) : (s.failEntry k).failPos = s.streamPos := rfl
@[simp] theorem State.failEntry_inlinePal (s : State) (k : ErrKind) : (s.failEntry k).inlinePal = s.inlinePal := rfl
@[simp] theorem State.failEntry_colorTable (s : State) (k : ErrKind) :
    (s.failEntry k).colorTable = s.colorTable := rfl
@[simp] theorem State.failEntry_scratch (s : State) (k : ErrKind) : (s.failEntry k).scratch = s.scratch := rfl
@[simp] theorem State.failEntry_scratchZeroed (s : State) (k : ErrKind) :
    (s.failEntry k).scratchZeroed = s.scratchZeroed := rfl
@[simp] theorem State.failEntry_runCnt (s : State) (k : ErrKind) : (s.failEntry k).runCnt = s.runCnt := rfl
@[simp] theorem State.failEntry_runVal (s : State) (k : ErrKind) : (s.failEntry k).runVal = s.runVal := rfl
@[simp] theorem State.failEntry_fillI (s : State) (k : ErrKind) : (s.failEntry k).fillI = s.fillI := rfl
@[simp] theorem State.failEntry_stream (s : State) (k : ErrKind) : (s.failEntry k).stream = s.stream := rfl
@[simp] theorem State.failEntry_out (s : State) (k : ErrKind) : (s.failEntry k).out = s.out := rfl
@[simp] theorem State.failEntry_inbox (s : State) (k : ErrKind) : (s.failEntry k).inbox = s.inbox := rfl
@[simp] theorem State.failEntry_rdata (s : State) (k : ErrKind) : (s.failEntry k).rdata = s.rdata := rfl
@[simp] theorem State.failEntry_outRaced (s : State) (k : ErrKind) : (s.failEntry k).outRaced = s.outRaced := rfl
@[simp] theorem State.failEntry_raceCount (s : State) (k : ErrKind) : (s.failEntry k).raceCount = s.raceCount := rfl
@[simp] theorem State.failEntry_resetCount (s : State) (k : ErrKind) :
    (s.failEntry k).resetCount = s.resetCount := rfl

/-! ### CLEAR (R224) -/

@[simp] theorem State.clearToIdle_params (s : State) : s.clearToIdle.params = s.params := rfl
@[simp] theorem State.clearToIdle_runState (s : State) : s.clearToIdle.runState = .idle := rfl
@[simp] theorem State.clearToIdle_err (s : State) : s.clearToIdle.err = none := rfl
@[simp] theorem State.clearToIdle_ign (s : State) : s.clearToIdle.ign = s.ign := rfl
@[simp] theorem State.clearToIdle_rowY (s : State) : s.clearToIdle.rowY = s.rowY := rfl
@[simp] theorem State.clearToIdle_layout (s : State) : s.clearToIdle.layout = s.layout := rfl
@[simp] theorem State.clearToIdle_outb (s : State) : s.clearToIdle.outb = s.outb := rfl
@[simp] theorem State.clearToIdle_srcBits (s : State) : s.clearToIdle.srcBits = s.srcBits := rfl
@[simp] theorem State.clearToIdle_width (s : State) : s.clearToIdle.width = s.width := rfl
@[simp] theorem State.clearToIdle_height (s : State) : s.clearToIdle.height = s.height := rfl
@[simp] theorem State.clearToIdle_nbytes (s : State) : s.clearToIdle.nbytes = s.nbytes := rfl
@[simp] theorem State.clearToIdle_ncolors (s : State) : s.clearToIdle.ncolors = s.ncolors := rfl
@[simp] theorem State.clearToIdle_cfgEnc (s : State) : s.clearToIdle.cfgEnc = s.cfgEnc := rfl
@[simp] theorem State.clearToIdle_cfgBpp (s : State) : s.clearToIdle.cfgBpp = s.cfgBpp := rfl
@[simp] theorem State.clearToIdle_cfgNplanes (s : State) : s.clearToIdle.cfgNplanes = s.cfgNplanes := rfl
@[simp] theorem State.clearToIdle_cfgBpl (s : State) : s.clearToIdle.cfgBpl = s.cfgBpl := rfl
@[simp] theorem State.clearToIdle_cfgXmin (s : State) : s.clearToIdle.cfgXmin = s.cfgXmin := rfl
@[simp] theorem State.clearToIdle_cfgYmin (s : State) : s.clearToIdle.cfgYmin = s.cfgYmin := rfl
@[simp] theorem State.clearToIdle_cfgXmax (s : State) : s.clearToIdle.cfgXmax = s.cfgXmax := rfl
@[simp] theorem State.clearToIdle_cfgYmax (s : State) : s.clearToIdle.cfgYmax = s.cfgYmax := rfl
@[simp] theorem State.clearToIdle_cfgPitch (s : State) : s.clearToIdle.cfgPitch = s.cfgPitch := rfl
@[simp] theorem State.clearToIdle_cfgOutBase (s : State) : s.clearToIdle.cfgOutBase = s.cfgOutBase := rfl
@[simp] theorem State.clearToIdle_streamOrigin (s : State) : s.clearToIdle.streamOrigin = s.streamOrigin := rfl
@[simp] theorem State.clearToIdle_streamPos (s : State) : s.clearToIdle.streamPos = s.streamPos := rfl
@[simp] theorem State.clearToIdle_streamLen (s : State) : s.clearToIdle.streamLen = s.streamLen := rfl
@[simp] theorem State.clearToIdle_failPos (s : State) : s.clearToIdle.failPos = s.failPos := rfl
@[simp] theorem State.clearToIdle_inlinePal (s : State) : s.clearToIdle.inlinePal = s.inlinePal := rfl
@[simp] theorem State.clearToIdle_colorTable (s : State) : s.clearToIdle.colorTable = s.colorTable := rfl
@[simp] theorem State.clearToIdle_scratch (s : State) : s.clearToIdle.scratch = s.scratch := rfl
@[simp] theorem State.clearToIdle_scratchZeroed (s : State) : s.clearToIdle.scratchZeroed = s.scratchZeroed := rfl
@[simp] theorem State.clearToIdle_runCnt (s : State) : s.clearToIdle.runCnt = s.runCnt := rfl
@[simp] theorem State.clearToIdle_runVal (s : State) : s.clearToIdle.runVal = s.runVal := rfl
@[simp] theorem State.clearToIdle_fillI (s : State) : s.clearToIdle.fillI = s.fillI := rfl
@[simp] theorem State.clearToIdle_stream (s : State) : s.clearToIdle.stream = s.stream := rfl
@[simp] theorem State.clearToIdle_out (s : State) : s.clearToIdle.out = s.out := rfl
@[simp] theorem State.clearToIdle_inbox (s : State) : s.clearToIdle.inbox = s.inbox := rfl
@[simp] theorem State.clearToIdle_rdata (s : State) : s.clearToIdle.rdata = s.rdata := rfl
@[simp] theorem State.clearToIdle_outRaced (s : State) : s.clearToIdle.outRaced = s.outRaced := rfl
@[simp] theorem State.clearToIdle_raceCount (s : State) : s.clearToIdle.raceCount = s.raceCount := rfl
@[simp] theorem State.clearToIdle_resetCount (s : State) : s.clearToIdle.resetCount = s.resetCount := rfl

/-! ### The start of a scanline request (R136) -/

@[simp] theorem State.startRequest_params (s : State) : s.startRequest.params = s.params := rfl
@[simp] theorem State.startRequest_runState (s : State) : s.startRequest.runState = s.runState := rfl
@[simp] theorem State.startRequest_err (s : State) : s.startRequest.err = s.err := rfl
@[simp] theorem State.startRequest_ign (s : State) : s.startRequest.ign = s.ign := rfl
@[simp] theorem State.startRequest_rowY (s : State) : s.startRequest.rowY = s.rowY := rfl
@[simp] theorem State.startRequest_layout (s : State) : s.startRequest.layout = s.layout := rfl
@[simp] theorem State.startRequest_outb (s : State) : s.startRequest.outb = s.outb := rfl
@[simp] theorem State.startRequest_srcBits (s : State) : s.startRequest.srcBits = s.srcBits := rfl
@[simp] theorem State.startRequest_width (s : State) : s.startRequest.width = s.width := rfl
@[simp] theorem State.startRequest_height (s : State) : s.startRequest.height = s.height := rfl
@[simp] theorem State.startRequest_nbytes (s : State) : s.startRequest.nbytes = s.nbytes := rfl
@[simp] theorem State.startRequest_ncolors (s : State) : s.startRequest.ncolors = s.ncolors := rfl
@[simp] theorem State.startRequest_cfgEnc (s : State) : s.startRequest.cfgEnc = s.cfgEnc := rfl
@[simp] theorem State.startRequest_cfgBpp (s : State) : s.startRequest.cfgBpp = s.cfgBpp := rfl
@[simp] theorem State.startRequest_cfgNplanes (s : State) : s.startRequest.cfgNplanes = s.cfgNplanes := rfl
@[simp] theorem State.startRequest_cfgBpl (s : State) : s.startRequest.cfgBpl = s.cfgBpl := rfl
@[simp] theorem State.startRequest_cfgXmin (s : State) : s.startRequest.cfgXmin = s.cfgXmin := rfl
@[simp] theorem State.startRequest_cfgYmin (s : State) : s.startRequest.cfgYmin = s.cfgYmin := rfl
@[simp] theorem State.startRequest_cfgXmax (s : State) : s.startRequest.cfgXmax = s.cfgXmax := rfl
@[simp] theorem State.startRequest_cfgYmax (s : State) : s.startRequest.cfgYmax = s.cfgYmax := rfl
@[simp] theorem State.startRequest_cfgPitch (s : State) : s.startRequest.cfgPitch = s.cfgPitch := rfl
@[simp] theorem State.startRequest_cfgOutBase (s : State) : s.startRequest.cfgOutBase = s.cfgOutBase := rfl
@[simp] theorem State.startRequest_streamOrigin (s : State) : s.startRequest.streamOrigin = s.streamOrigin := rfl
@[simp] theorem State.startRequest_streamPos (s : State) : s.startRequest.streamPos = s.streamPos := rfl
@[simp] theorem State.startRequest_streamLen (s : State) : s.startRequest.streamLen = s.streamLen := rfl
@[simp] theorem State.startRequest_failPos (s : State) : s.startRequest.failPos = s.failPos := rfl
@[simp] theorem State.startRequest_inlinePal (s : State) : s.startRequest.inlinePal = s.inlinePal := rfl
@[simp] theorem State.startRequest_colorTable (s : State) : s.startRequest.colorTable = s.colorTable := rfl
@[simp] theorem State.startRequest_scratch (s : State) : s.startRequest.scratch = s.scratch := rfl
@[simp] theorem State.startRequest_scratchZeroed (s : State) : s.startRequest.scratchZeroed = s.scratchZeroed := rfl
@[simp] theorem State.startRequest_runCnt (s : State) : s.startRequest.runCnt = 0 := rfl
@[simp] theorem State.startRequest_runVal (s : State) : s.startRequest.runVal = s.runVal := rfl
@[simp] theorem State.startRequest_fillI (s : State) : s.startRequest.fillI = 0 := rfl
@[simp] theorem State.startRequest_stream (s : State) : s.startRequest.stream = s.stream := rfl
@[simp] theorem State.startRequest_out (s : State) : s.startRequest.out = s.out := rfl
@[simp] theorem State.startRequest_inbox (s : State) : s.startRequest.inbox = s.inbox := rfl
@[simp] theorem State.startRequest_rdata (s : State) : s.startRequest.rdata = s.rdata := rfl
@[simp] theorem State.startRequest_outRaced (s : State) : s.startRequest.outRaced = s.outRaced := rfl
@[simp] theorem State.startRequest_raceCount (s : State) : s.startRequest.raceCount = s.raceCount := rfl
@[simp] theorem State.startRequest_resetCount (s : State) : s.startRequest.resetCount = s.resetCount := rfl

/-! ### The zeroed scratch buffer (R222) -/

@[simp] theorem State.zeroScratch_params (s : State) : s.zeroScratch.params = s.params := rfl
@[simp] theorem State.zeroScratch_runState (s : State) : s.zeroScratch.runState = s.runState := rfl
@[simp] theorem State.zeroScratch_err (s : State) : s.zeroScratch.err = s.err := rfl
@[simp] theorem State.zeroScratch_ign (s : State) : s.zeroScratch.ign = s.ign := rfl
@[simp] theorem State.zeroScratch_rowY (s : State) : s.zeroScratch.rowY = s.rowY := rfl
@[simp] theorem State.zeroScratch_layout (s : State) : s.zeroScratch.layout = s.layout := rfl
@[simp] theorem State.zeroScratch_outb (s : State) : s.zeroScratch.outb = s.outb := rfl
@[simp] theorem State.zeroScratch_srcBits (s : State) : s.zeroScratch.srcBits = s.srcBits := rfl
@[simp] theorem State.zeroScratch_width (s : State) : s.zeroScratch.width = s.width := rfl
@[simp] theorem State.zeroScratch_height (s : State) : s.zeroScratch.height = s.height := rfl
@[simp] theorem State.zeroScratch_nbytes (s : State) : s.zeroScratch.nbytes = s.nbytes := rfl
@[simp] theorem State.zeroScratch_ncolors (s : State) : s.zeroScratch.ncolors = s.ncolors := rfl
@[simp] theorem State.zeroScratch_cfgEnc (s : State) : s.zeroScratch.cfgEnc = s.cfgEnc := rfl
@[simp] theorem State.zeroScratch_cfgBpp (s : State) : s.zeroScratch.cfgBpp = s.cfgBpp := rfl
@[simp] theorem State.zeroScratch_cfgNplanes (s : State) : s.zeroScratch.cfgNplanes = s.cfgNplanes := rfl
@[simp] theorem State.zeroScratch_cfgBpl (s : State) : s.zeroScratch.cfgBpl = s.cfgBpl := rfl
@[simp] theorem State.zeroScratch_cfgXmin (s : State) : s.zeroScratch.cfgXmin = s.cfgXmin := rfl
@[simp] theorem State.zeroScratch_cfgYmin (s : State) : s.zeroScratch.cfgYmin = s.cfgYmin := rfl
@[simp] theorem State.zeroScratch_cfgXmax (s : State) : s.zeroScratch.cfgXmax = s.cfgXmax := rfl
@[simp] theorem State.zeroScratch_cfgYmax (s : State) : s.zeroScratch.cfgYmax = s.cfgYmax := rfl
@[simp] theorem State.zeroScratch_cfgPitch (s : State) : s.zeroScratch.cfgPitch = s.cfgPitch := rfl
@[simp] theorem State.zeroScratch_cfgOutBase (s : State) : s.zeroScratch.cfgOutBase = s.cfgOutBase := rfl
@[simp] theorem State.zeroScratch_streamOrigin (s : State) : s.zeroScratch.streamOrigin = s.streamOrigin := rfl
@[simp] theorem State.zeroScratch_streamPos (s : State) : s.zeroScratch.streamPos = s.streamPos := rfl
@[simp] theorem State.zeroScratch_streamLen (s : State) : s.zeroScratch.streamLen = s.streamLen := rfl
@[simp] theorem State.zeroScratch_failPos (s : State) : s.zeroScratch.failPos = s.failPos := rfl
@[simp] theorem State.zeroScratch_inlinePal (s : State) : s.zeroScratch.inlinePal = s.inlinePal := rfl
@[simp] theorem State.zeroScratch_colorTable (s : State) : s.zeroScratch.colorTable = s.colorTable := rfl
@[simp] theorem State.zeroScratch_scratch (s : State) : s.zeroScratch.scratch = [] := rfl
@[simp] theorem State.zeroScratch_scratchZeroed (s : State) : s.zeroScratch.scratchZeroed = true := rfl
@[simp] theorem State.zeroScratch_runCnt (s : State) : s.zeroScratch.runCnt = s.runCnt := rfl
@[simp] theorem State.zeroScratch_runVal (s : State) : s.zeroScratch.runVal = s.runVal := rfl
@[simp] theorem State.zeroScratch_fillI (s : State) : s.zeroScratch.fillI = s.fillI := rfl
@[simp] theorem State.zeroScratch_stream (s : State) : s.zeroScratch.stream = s.stream := rfl
@[simp] theorem State.zeroScratch_out (s : State) : s.zeroScratch.out = s.out := rfl
@[simp] theorem State.zeroScratch_inbox (s : State) : s.zeroScratch.inbox = s.inbox := rfl
@[simp] theorem State.zeroScratch_rdata (s : State) : s.zeroScratch.rdata = s.rdata := rfl
@[simp] theorem State.zeroScratch_outRaced (s : State) : s.zeroScratch.outRaced = s.outRaced := rfl
@[simp] theorem State.zeroScratch_raceCount (s : State) : s.zeroScratch.raceCount = s.raceCount := rfl
@[simp] theorem State.zeroScratch_resetCount (s : State) : s.zeroScratch.resetCount = s.resetCount := rfl

/-! ### VALIDATE's registers (R222) -/

@[simp] theorem State.withGeometry_params (s : State) : s.withGeometry.params = s.params := rfl
@[simp] theorem State.withGeometry_runState (s : State) : s.withGeometry.runState = s.runState := rfl
@[simp] theorem State.withGeometry_err (s : State) : s.withGeometry.err = s.err := rfl
@[simp] theorem State.withGeometry_ign (s : State) : s.withGeometry.ign = s.ign := rfl
@[simp] theorem State.withGeometry_rowY (s : State) : s.withGeometry.rowY = 0 := rfl
@[simp] theorem State.withGeometry_layout (s : State) :
    s.withGeometry.layout = (layoutTable s.cfgBpp s.cfgNplanes).1 := rfl
@[simp] theorem State.withGeometry_outb (s : State) :
    s.withGeometry.outb = (layoutTable s.cfgBpp s.cfgNplanes).2 := rfl
@[simp] theorem State.withGeometry_srcBits (s : State) :
    s.withGeometry.srcBits = BitVec.ofNat 16 (s.bpp * s.np) := rfl
@[simp] theorem State.withGeometry_width (s : State) : s.withGeometry.width = BitVec.ofInt 32 s.boxWidth := rfl
@[simp] theorem State.withGeometry_height (s : State) : s.withGeometry.height = BitVec.ofInt 32 s.boxHeight := rfl
@[simp] theorem State.withGeometry_nbytes (s : State) : s.withGeometry.nbytes = BitVec.ofNat 32 s.scanBytes := rfl
@[simp] theorem State.withGeometry_ncolors (s : State) : s.withGeometry.ncolors = 0 := rfl
@[simp] theorem State.withGeometry_cfgEnc (s : State) : s.withGeometry.cfgEnc = s.cfgEnc := rfl
@[simp] theorem State.withGeometry_cfgBpp (s : State) : s.withGeometry.cfgBpp = s.cfgBpp := rfl
@[simp] theorem State.withGeometry_cfgNplanes (s : State) : s.withGeometry.cfgNplanes = s.cfgNplanes := rfl
@[simp] theorem State.withGeometry_cfgBpl (s : State) : s.withGeometry.cfgBpl = s.cfgBpl := rfl
@[simp] theorem State.withGeometry_cfgXmin (s : State) : s.withGeometry.cfgXmin = s.cfgXmin := rfl
@[simp] theorem State.withGeometry_cfgYmin (s : State) : s.withGeometry.cfgYmin = s.cfgYmin := rfl
@[simp] theorem State.withGeometry_cfgXmax (s : State) : s.withGeometry.cfgXmax = s.cfgXmax := rfl
@[simp] theorem State.withGeometry_cfgYmax (s : State) : s.withGeometry.cfgYmax = s.cfgYmax := rfl
@[simp] theorem State.withGeometry_cfgPitch (s : State) : s.withGeometry.cfgPitch = s.cfgPitch := rfl
@[simp] theorem State.withGeometry_cfgOutBase (s : State) : s.withGeometry.cfgOutBase = s.cfgOutBase := rfl
@[simp] theorem State.withGeometry_streamOrigin (s : State) : s.withGeometry.streamOrigin = s.streamOrigin := rfl
@[simp] theorem State.withGeometry_streamPos (s : State) : s.withGeometry.streamPos = s.streamPos := rfl
@[simp] theorem State.withGeometry_streamLen (s : State) : s.withGeometry.streamLen = s.streamLen := rfl
@[simp] theorem State.withGeometry_failPos (s : State) : s.withGeometry.failPos = s.failPos := rfl
@[simp] theorem State.withGeometry_inlinePal (s : State) : s.withGeometry.inlinePal = s.inlinePal := rfl
@[simp] theorem State.withGeometry_colorTable (s : State) : s.withGeometry.colorTable = RgbTable.zero 256 := rfl
@[simp] theorem State.withGeometry_scratch (s : State) : s.withGeometry.scratch = s.scratch := rfl
@[simp] theorem State.withGeometry_scratchZeroed (s : State) : s.withGeometry.scratchZeroed = s.scratchZeroed := rfl
@[simp] theorem State.withGeometry_runCnt (s : State) : s.withGeometry.runCnt = 0 := rfl
@[simp] theorem State.withGeometry_runVal (s : State) : s.withGeometry.runVal = 0 := rfl
@[simp] theorem State.withGeometry_fillI (s : State) : s.withGeometry.fillI = 0 := rfl
@[simp] theorem State.withGeometry_stream (s : State) : s.withGeometry.stream = s.stream := rfl
@[simp] theorem State.withGeometry_out (s : State) : s.withGeometry.out = s.out := rfl
@[simp] theorem State.withGeometry_inbox (s : State) : s.withGeometry.inbox = s.inbox := rfl
@[simp] theorem State.withGeometry_rdata (s : State) : s.withGeometry.rdata = s.rdata := rfl
@[simp] theorem State.withGeometry_outRaced (s : State) : s.withGeometry.outRaced = s.outRaced := rfl
@[simp] theorem State.withGeometry_raceCount (s : State) : s.withGeometry.raceCount = s.raceCount := rfl
@[simp] theorem State.withGeometry_resetCount (s : State) : s.withGeometry.resetCount = s.resetCount := rfl

/-! ### The end of a ROWS step (R230) -/

@[simp] theorem State.finishRow_params (s : State) : s.finishRow.params = s.params := rfl
@[simp] theorem State.finishRow_runState (s : State) :
    s.finishRow.runState = if (s.rowY.toNat + 1 : Int) = s.h then if s.layout = .sub ∨ s.layout = .idx8 then .palette else .done else s.runState := rfl
@[simp] theorem State.finishRow_err (s : State) : s.finishRow.err = s.err := rfl
@[simp] theorem State.finishRow_ign (s : State) : s.finishRow.ign = s.ign := rfl
@[simp] theorem State.finishRow_rowY (s : State) : s.finishRow.rowY = BitVec.ofNat 32 (s.rowY.toNat + 1) := rfl
@[simp] theorem State.finishRow_layout (s : State) : s.finishRow.layout = s.layout := rfl
@[simp] theorem State.finishRow_outb (s : State) : s.finishRow.outb = s.outb := rfl
@[simp] theorem State.finishRow_srcBits (s : State) : s.finishRow.srcBits = s.srcBits := rfl
@[simp] theorem State.finishRow_width (s : State) : s.finishRow.width = s.width := rfl
@[simp] theorem State.finishRow_height (s : State) : s.finishRow.height = s.height := rfl
@[simp] theorem State.finishRow_nbytes (s : State) : s.finishRow.nbytes = s.nbytes := rfl
@[simp] theorem State.finishRow_ncolors (s : State) : s.finishRow.ncolors = s.ncolors := rfl
@[simp] theorem State.finishRow_cfgEnc (s : State) : s.finishRow.cfgEnc = s.cfgEnc := rfl
@[simp] theorem State.finishRow_cfgBpp (s : State) : s.finishRow.cfgBpp = s.cfgBpp := rfl
@[simp] theorem State.finishRow_cfgNplanes (s : State) : s.finishRow.cfgNplanes = s.cfgNplanes := rfl
@[simp] theorem State.finishRow_cfgBpl (s : State) : s.finishRow.cfgBpl = s.cfgBpl := rfl
@[simp] theorem State.finishRow_cfgXmin (s : State) : s.finishRow.cfgXmin = s.cfgXmin := rfl
@[simp] theorem State.finishRow_cfgYmin (s : State) : s.finishRow.cfgYmin = s.cfgYmin := rfl
@[simp] theorem State.finishRow_cfgXmax (s : State) : s.finishRow.cfgXmax = s.cfgXmax := rfl
@[simp] theorem State.finishRow_cfgYmax (s : State) : s.finishRow.cfgYmax = s.cfgYmax := rfl
@[simp] theorem State.finishRow_cfgPitch (s : State) : s.finishRow.cfgPitch = s.cfgPitch := rfl
@[simp] theorem State.finishRow_cfgOutBase (s : State) : s.finishRow.cfgOutBase = s.cfgOutBase := rfl
@[simp] theorem State.finishRow_streamOrigin (s : State) : s.finishRow.streamOrigin = s.streamOrigin := rfl
@[simp] theorem State.finishRow_streamPos (s : State) : s.finishRow.streamPos = s.streamPos := rfl
@[simp] theorem State.finishRow_streamLen (s : State) : s.finishRow.streamLen = s.streamLen := rfl
@[simp] theorem State.finishRow_failPos (s : State) : s.finishRow.failPos = s.failPos := rfl
@[simp] theorem State.finishRow_inlinePal (s : State) : s.finishRow.inlinePal = s.inlinePal := rfl
@[simp] theorem State.finishRow_colorTable (s : State) : s.finishRow.colorTable = s.colorTable := rfl
@[simp] theorem State.finishRow_scratch (s : State) : s.finishRow.scratch = s.scratch := rfl
@[simp] theorem State.finishRow_scratchZeroed (s : State) : s.finishRow.scratchZeroed = s.scratchZeroed := rfl
@[simp] theorem State.finishRow_runCnt (s : State) : s.finishRow.runCnt = s.runCnt := rfl
@[simp] theorem State.finishRow_runVal (s : State) : s.finishRow.runVal = s.runVal := rfl
@[simp] theorem State.finishRow_fillI (s : State) : s.finishRow.fillI = s.fillI := rfl
@[simp] theorem State.finishRow_stream (s : State) : s.finishRow.stream = s.stream := rfl
@[simp] theorem State.finishRow_out (s : State) : s.finishRow.out = s.out := rfl
@[simp] theorem State.finishRow_inbox (s : State) : s.finishRow.inbox = s.inbox := rfl
@[simp] theorem State.finishRow_rdata (s : State) : s.finishRow.rdata = s.rdata := rfl
@[simp] theorem State.finishRow_outRaced (s : State) : s.finishRow.outRaced = s.outRaced := rfl
@[simp] theorem State.finishRow_raceCount (s : State) : s.finishRow.raceCount = s.raceCount := rfl
@[simp] theorem State.finishRow_resetCount (s : State) : s.finishRow.resetCount = s.resetCount := rfl

/-! ### The races of the last decode settled -/

@[simp] theorem State.settleRaces_params (s : State) : s.settleRaces.params = s.params := rfl
@[simp] theorem State.settleRaces_runState (s : State) : s.settleRaces.runState = s.runState := rfl
@[simp] theorem State.settleRaces_err (s : State) : s.settleRaces.err = s.err := rfl
@[simp] theorem State.settleRaces_ign (s : State) : s.settleRaces.ign = s.ign := rfl
@[simp] theorem State.settleRaces_rowY (s : State) : s.settleRaces.rowY = s.rowY := rfl
@[simp] theorem State.settleRaces_layout (s : State) : s.settleRaces.layout = s.layout := rfl
@[simp] theorem State.settleRaces_outb (s : State) : s.settleRaces.outb = s.outb := rfl
@[simp] theorem State.settleRaces_srcBits (s : State) : s.settleRaces.srcBits = s.srcBits := rfl
@[simp] theorem State.settleRaces_width (s : State) : s.settleRaces.width = s.width := rfl
@[simp] theorem State.settleRaces_height (s : State) : s.settleRaces.height = s.height := rfl
@[simp] theorem State.settleRaces_nbytes (s : State) : s.settleRaces.nbytes = s.nbytes := rfl
@[simp] theorem State.settleRaces_ncolors (s : State) : s.settleRaces.ncolors = s.ncolors := rfl
@[simp] theorem State.settleRaces_cfgEnc (s : State) : s.settleRaces.cfgEnc = s.cfgEnc := rfl
@[simp] theorem State.settleRaces_cfgBpp (s : State) : s.settleRaces.cfgBpp = s.cfgBpp := rfl
@[simp] theorem State.settleRaces_cfgNplanes (s : State) : s.settleRaces.cfgNplanes = s.cfgNplanes := rfl
@[simp] theorem State.settleRaces_cfgBpl (s : State) : s.settleRaces.cfgBpl = s.cfgBpl := rfl
@[simp] theorem State.settleRaces_cfgXmin (s : State) : s.settleRaces.cfgXmin = s.cfgXmin := rfl
@[simp] theorem State.settleRaces_cfgYmin (s : State) : s.settleRaces.cfgYmin = s.cfgYmin := rfl
@[simp] theorem State.settleRaces_cfgXmax (s : State) : s.settleRaces.cfgXmax = s.cfgXmax := rfl
@[simp] theorem State.settleRaces_cfgYmax (s : State) : s.settleRaces.cfgYmax = s.cfgYmax := rfl
@[simp] theorem State.settleRaces_cfgPitch (s : State) : s.settleRaces.cfgPitch = s.cfgPitch := rfl
@[simp] theorem State.settleRaces_cfgOutBase (s : State) : s.settleRaces.cfgOutBase = s.cfgOutBase := rfl
@[simp] theorem State.settleRaces_streamOrigin (s : State) : s.settleRaces.streamOrigin = s.streamOrigin := rfl
@[simp] theorem State.settleRaces_streamPos (s : State) : s.settleRaces.streamPos = s.streamPos := rfl
@[simp] theorem State.settleRaces_streamLen (s : State) : s.settleRaces.streamLen = s.streamLen := rfl
@[simp] theorem State.settleRaces_failPos (s : State) : s.settleRaces.failPos = s.failPos := rfl
@[simp] theorem State.settleRaces_inlinePal (s : State) : s.settleRaces.inlinePal = s.inlinePal := rfl
@[simp] theorem State.settleRaces_colorTable (s : State) : s.settleRaces.colorTable = s.colorTable := rfl
@[simp] theorem State.settleRaces_scratch (s : State) : s.settleRaces.scratch = s.scratch := rfl
@[simp] theorem State.settleRaces_scratchZeroed (s : State) : s.settleRaces.scratchZeroed = s.scratchZeroed := rfl
@[simp] theorem State.settleRaces_runCnt (s : State) : s.settleRaces.runCnt = s.runCnt := rfl
@[simp] theorem State.settleRaces_runVal (s : State) : s.settleRaces.runVal = s.runVal := rfl
@[simp] theorem State.settleRaces_fillI (s : State) : s.settleRaces.fillI = s.fillI := rfl
@[simp] theorem State.settleRaces_stream (s : State) : s.settleRaces.stream = s.stream := rfl
@[simp] theorem State.settleRaces_out (s : State) : s.settleRaces.out = settled s.out s.outRaced := rfl
@[simp] theorem State.settleRaces_inbox (s : State) : s.settleRaces.inbox = s.inbox := rfl
@[simp] theorem State.settleRaces_rdata (s : State) : s.settleRaces.rdata = s.rdata := rfl
@[simp] theorem State.settleRaces_outRaced (s : State) : s.settleRaces.outRaced = [] := rfl
@[simp] theorem State.settleRaces_raceCount (s : State) : s.settleRaces.raceCount = s.raceCount := rfl
@[simp] theorem State.settleRaces_resetCount (s : State) : s.settleRaces.resetCount = s.resetCount := rfl

end Sys2Proof.Machine
end

