-- ==== Sys2Proof/Laws/Ops.lean ====
section
/-! SUPPORT. One lemma per shared operation that says everything it can do, and the loop rules. -/

namespace Sys2Proof.Machine

/-! ### Flow -/

@[simp] theorem Flow.bind_ok {α β : Type} (a : α) (s : State) (f : α → State → Flow β) :
    (Flow.ok a s).bind f = f a s := rfl

@[simp] theorem Flow.bind_fail {α β : Type} (k : ErrKind) (s : State) (f : α → State → Flow β) :
    (Flow.fail k s : Flow α).bind f = .fail k s := rfl

@[simp] theorem Flow.bind_fault {α β : Type} (e : Fault) (f : α → State → Flow β) :
    (Flow.fault e : Flow α).bind f = .fault e := rfl

@[simp] theorem Flow.bind_refuse {α β : Type} (r : Refusal) (f : α → State → Flow β) :
    (Flow.refuse r : Flow α).bind f = .refuse r := rfl

theorem Flow.bind_assoc {α β γ : Type} (x : Flow α) (f : α → State → Flow β) (g : β → State → Flow γ) :
    (x.bind f).bind g = x.bind fun a s => (f a s).bind g := by cases x <;> rfl

@[simp] theorem Flow.bind_unit (x : Flow Unit) : (x.bind fun _ s => .ok () s) = x := by cases x <;> rfl

@[simp] theorem Flow.finish_ok (s : State) : (Flow.ok () s).finish = .next s := rfl

@[simp] theorem Flow.finish_fail (k : ErrKind) (s : State) : (Flow.fail k s).finish = .next (s.failEntry k) := rfl

/-- Where an operation ends in a next state, it went to its end or it raised a failure. -/
theorem Flow.finish_next {x : Flow Unit} {t : State} (h : x.finish = .next t) :
    x = .ok () t ∨ ∃ k s, x = .fail k s ∧ t = s.failEntry k := by
  cases x with
  | ok a s => simp only [Flow.finish, Host.Outcome.next.injEq] at h; subst h; exact .inl rfl
  | fail k s => simp only [Flow.finish, Host.Outcome.next.injEq] at h; exact .inr ⟨k, s, rfl, h.symm⟩
  | fault f => simp [Flow.finish] at h
  | refuse r => simp [Flow.finish] at h

/-- Every state an operation ends with, by its end or by a `raise`, meets `P`. -/
def Flow.Ends {α : Type} (x : Flow α) (P : State → Prop) : Prop :=
  match x with
  | .ok _ s => P s
  | .fail _ s => P s
  | .fault _ => True
  | .refuse _ => True

theorem Flow.Ends.bind {α β : Type} {x : Flow α} {f : α → State → Flow β} {P Q : State → Prop} (hx : x.Ends P)
    (hf : ∀ a s, P s → (f a s).Ends Q) (hPQ : ∀ s, P s → Q s) : (x.bind f).Ends Q := by
  cases x with
  | ok a s => exact hf a s hx
  | fail k s => exact hPQ s hx
  | fault e => trivial
  | refuse r => trivial

theorem Flow.Ends.mono {α : Type} {x : Flow α} {P Q : State → Prop} (hx : x.Ends P) (h : ∀ s, P s → Q s) :
    x.Ends Q := by
  cases x with
  | ok a s => exact h s hx
  | fail k s => exact h s hx
  | fault e => trivial
  | refuse r => trivial

/-- What holds of every state an operation can end with holds, after the failure entry where it failed, of the next
state. -/
theorem Flow.Ends.finish {x : Flow Unit} {P Q : State → Prop} {t : State} (hx : x.Ends P) (h : x.finish = .next t)
    (hok : ∀ s, P s → Q s) (hfail : ∀ s k, P s → Q (s.failEntry k)) : Q t := by
  rcases Flow.finish_next h with rfl | ⟨k, s, rfl, rfl⟩
  · exact hok t hx
  · exact hfail s k hx

/-- An operation that can only go on or fail: no access outside the spaces, no missing operation. -/
def Flow.Runs {α : Type} (x : Flow α) (P : α → State → Prop) : Prop :=
  match x with
  | .ok a s => P a s
  | .fail _ _ => True
  | .fault _ => False
  | .refuse _ => False

theorem Flow.Runs.bind {α β : Type} {x : Flow α} {f : α → State → Flow β} {P : α → State → Prop}
    {Q : β → State → Prop} (hx : x.Runs P) (hf : ∀ a s, P a s → (f a s).Runs Q) : (x.bind f).Runs Q := by
  cases x with
  | ok a s => exact hf a s hx
  | fail k s => trivial
  | fault e => exact hx.elim
  | refuse r => exact hx.elim

theorem Flow.Runs.mono {α : Type} {x : Flow α} {P Q : α → State → Prop} (hx : x.Runs P)
    (h : ∀ a s, P a s → Q a s) : x.Runs Q := by
  cases x with
  | ok a s => exact h a s hx
  | fail k s => trivial
  | fault e => exact hx
  | refuse r => exact hx

theorem Flow.Runs.goes {x : Flow Unit} {P : Unit → State → Prop} (hx : x.Runs P) : Goes x.finish := by
  cases x with
  | ok a s => exact ⟨s, rfl⟩
  | fail k s => exact ⟨_, rfl⟩
  | fault e => exact hx.elim
  | refuse r => exact hx.elim

/-! ### Loops -/

@[simp] theorem forFrom_zero (a : Nat) (f : Nat → State → Flow Unit) (s : State) : forFrom a 0 f s = .ok () s := rfl

theorem forFrom_succ (a k : Nat) (f : Nat → State → Flow Unit) (s : State) :
    forFrom a (k + 1) f s = (f a s).bind fun _ s' => forFrom (a + 1) k f s' := rfl

/-- The loop rule: where each pass ends in `.ok` and takes `P i` to `P (i + 1)`, the loop ends in `.ok` with the last
one. -/
theorem forFrom_ok {P : Nat → State → Prop} {f : Nat → State → Flow Unit} (k : Nat) :
    ∀ (a : Nat) (s : State), P a s → (∀ i s, a ≤ i → i < a + k → P i s → ∃ t, f i s = .ok () t ∧ P (i + 1) t) →
      ∃ t, forFrom a k f s = .ok () t ∧ P (a + k) t := by
  induction k with
  | zero => intro a s h _; exact ⟨s, rfl, h⟩
  | succ k ih =>
    intro a s h hf
    obtain ⟨t, ht, hP⟩ := hf a s (Nat.le_refl a) (by omega) h
    obtain ⟨u, hu, hPu⟩ := ih (a + 1) t hP fun i s h1 h2 h3 => hf i s (by omega) (by omega) h3
    refine ⟨u, ?_, ?_⟩
    · rw [forFrom_succ, ht]; exact hu
    · rwa [Nat.add_right_comm] at hPu

theorem forN_ok {P : Nat → State → Prop} {f : Nat → State → Flow Unit} (n : Nat) (s : State) (h : P 0 s)
    (hf : ∀ i s, i < n → P i s → ∃ t, f i s = .ok () t ∧ P (i + 1) t) : ∃ t, forN n f s = .ok () t ∧ P n t := by
  obtain ⟨t, ht, hP⟩ := forFrom_ok n 0 s h fun i s _ h2 h3 => hf i s (by omega) h3
  exact ⟨t, ht, by simpa using hP⟩

/-- The loop rule for a failure: passes 0 to m - 1 go on, pass m fails. -/
theorem forFrom_fail {P : Nat → State → Prop} {Q : State → Prop} {f : Nat → State → Flow Unit} {e : ErrKind} (m : Nat) :
    ∀ (a k : Nat) (s : State), m < k → P a s →
      (∀ i s, a ≤ i → i < a + m → P i s → ∃ t, f i s = .ok () t ∧ P (i + 1) t) →
      (∀ s, P (a + m) s → ∃ t, f (a + m) s = .fail e t ∧ Q t) → ∃ t, forFrom a k f s = .fail e t ∧ Q t := by
  induction m with
  | zero =>
    intro a k s hk h _ hq
    obtain ⟨k, rfl⟩ : ∃ j, k = j + 1 := ⟨k - 1, by omega⟩
    obtain ⟨t, ht, hQ⟩ := hq s h
    exact ⟨t, by rw [forFrom_succ, show f a s = .fail e t from ht]; rfl, hQ⟩
  | succ m ih =>
    intro a k s hk h hf hq
    obtain ⟨k, rfl⟩ : ∃ j, k = j + 1 := ⟨k - 1, by omega⟩
    obtain ⟨t, ht, hP⟩ := hf a s (Nat.le_refl a) (by omega) h
    obtain ⟨u, hu, hQ⟩ := ih (a + 1) k t (by omega) hP (fun i s h1 h2 h3 => hf i s (by omega) (by omega) h3)
      (by rw [Nat.add_right_comm]; exact hq)
    exact ⟨u, by rw [forFrom_succ, ht]; exact hu, hQ⟩

theorem forN_fail {P : Nat → State → Prop} {Q : State → Prop} {f : Nat → State → Flow Unit} {e : ErrKind} (n m : Nat)
    (s : State) (hm : m < n) (h : P 0 s) (hf : ∀ i s, i < m → P i s → ∃ t, f i s = .ok () t ∧ P (i + 1) t)
    (hq : ∀ s, P m s → ∃ t, f m s = .fail e t ∧ Q t) : ∃ t, forN n f s = .fail e t ∧ Q t :=
  forFrom_fail m 0 n s hm h (fun i s _ h2 h3 => hf i s (by omega) h3) (by simpa using hq)

/-- What every pass keeps, the loop keeps. -/
theorem forFrom_ends {P : State → Prop} {f : Nat → State → Flow Unit} (k : Nat) :
    ∀ (a : Nat) (s : State), P s → (∀ i s, a ≤ i → i < a + k → P s → (f i s).Ends P) → (forFrom a k f s).Ends P := by
  induction k with
  | zero => intro a s h _; exact h
  | succ k ih =>
    intro a s h hf
    exact (hf a s (Nat.le_refl a) (by omega) h).bind
      (fun _ s hs => ih (a + 1) s hs fun i s h1 h2 h3 => hf i s (by omega) (by omega) h3) fun _ h => h

theorem forN_ends {P : State → Prop} {f : Nat → State → Flow Unit} (n : Nat) (s : State) (h : P s)
    (hf : ∀ i s, i < n → P s → (f i s).Ends P) : (forN n f s).Ends P :=
  forFrom_ends n 0 s h fun i s _ h2 h3 => hf i s (by omega) h3

theorem forFrom_runs {P : State → Prop} {f : Nat → State → Flow Unit} (k : Nat) :
    ∀ (a : Nat) (s : State), P s → (∀ i s, a ≤ i → i < a + k → P s → (f i s).Runs fun _ => P) →
      (forFrom a k f s).Runs fun _ => P := by
  induction k with
  | zero => intro a s h _; exact h
  | succ k ih =>
    intro a s h hf
    exact (hf a s (Nat.le_refl a) (by omega) h).bind
      fun _ s hs => ih (a + 1) s hs fun i s h1 h2 h3 => hf i s (by omega) (by omega) h3

theorem forN_runs {P : State → Prop} {f : Nat → State → Flow Unit} (n : Nat) (s : State) (h : P s)
    (hf : ∀ i s, i < n → P s → (f i s).Runs fun _ => P) : (forN n f s).Runs fun _ => P :=
  forFrom_runs n 0 s h fun i s _ h2 h3 => hf i s (by omega) h3

/-! ### Two runs side by side -/

/-- Two operations that end alike, with states related by `R`. -/
def Flow.Rel {α : Type} (R : State → State → Prop) (x y : Flow α) : Prop :=
  match x, y with
  | .ok a s, .ok b t => a = b ∧ R s t
  | .fail k s, .fail l t => k = l ∧ R s t
  | .fault e, .fault f => e = f
  | .refuse p, .refuse q => p = q
  | .ok _ _, .fail _ _ | .ok _ _, .fault _ | .ok _ _, .refuse _ | .fail _ _, .ok _ _ | .fail _ _, .fault _
  | .fail _ _, .refuse _ | .fault _, .ok _ _ | .fault _, .fail _ _ | .fault _, .refuse _ | .refuse _, .ok _ _
  | .refuse _, .fail _ _ | .refuse _, .fault _ => False

theorem Flow.Rel.bind {α β : Type} {R : State → State → Prop} {x y : Flow α} {f g : α → State → Flow β}
    (h : x.Rel R y) (hf : ∀ a s t, R s t → (f a s).Rel R (g a t)) : (x.bind f).Rel R (y.bind g) := by
  cases x <;> cases y <;> try exact h.elim
  · obtain ⟨rfl, hR⟩ := h; exact hf _ _ _ hR
  · exact h
  · exact h
  · exact h

theorem forFrom_rel {R : State → State → Prop} {f g : Nat → State → Flow Unit} (k : Nat) :
    ∀ (a : Nat) (s t : State), R s t → (∀ i s t, a ≤ i → i < a + k → R s t → (f i s).Rel R (g i t)) →
      (forFrom a k f s).Rel R (forFrom a k g t) := by
  induction k with
  | zero => intro a s t h _; exact ⟨rfl, h⟩
  | succ k ih =>
    intro a s t h hf
    exact (hf a s t (Nat.le_refl a) (by omega) h).bind
      fun _ s t hs => ih (a + 1) s t hs fun i s t h1 h2 h3 => hf i s t (by omega) (by omega) h3

theorem forN_rel {R : State → State → Prop} {f g : Nat → State → Flow Unit} (n : Nat) {s t : State} (h : R s t)
    (hf : ∀ i s t, i < n → R s t → (f i s).Rel R (g i t)) : (forN n f s).Rel R (forN n g t) :=
  forFrom_rel n 0 s t h fun i s t _ h2 h3 => hf i s t (by omega) h3

/-- Two operations that end alike give next states alike: both went to their end, or both took the same failure entry. -/
theorem Flow.Rel.finish {R : State → State → Prop} {x y : Flow Unit} {s' : State} (h : x.Rel R y)
    (hx : x.finish = .next s') : ∃ t', y.finish = .next t' ∧
      (R s' t' ∨ ∃ k u v, R u v ∧ s' = u.failEntry k ∧ t' = v.failEntry k) := by
  cases x <;> cases y <;> try exact h.elim
  · simp only [Flow.finish, Host.Outcome.next.injEq] at hx
    subst hx
    exact ⟨_, rfl, .inl h.2⟩
  · obtain ⟨rfl, hR⟩ := h
    simp only [Flow.finish, Host.Outcome.next.injEq] at hx
    subst hx
    exact ⟨_, rfl, .inr ⟨_, _, _, hR, rfl, rfl⟩⟩
  · cases hx
  · cases hx

/-! ### Stream primitives -/

/-- `StreamRead1`: EOF, a refusal outside the stream space, or the byte at STREAM_POS and STREAM_POS one on. -/
theorem streamRead1_cases (s : State) :
    (s.streamLen.toNat ≤ s.streamPos.toNat ∧ streamRead1 s = .ok none s) ∨
    (s.streamPos.toNat < s.streamLen.toNat ∧ s.params.streamSpace ≤ s.streamPos.toNat ∧
      streamRead1 s = .refuse .streamBeyondSpace) ∨
    (s.readable 1 ∧ streamRead1 s =
      .ok (some (Memory.read s.stream s.streamPos.toNat)) (s.withPos (s.streamPos.toNat + 1))) := by
  simp only [streamRead1, State.readable]
  split
  · next h => exact .inl ⟨h, rfl⟩
  · split
    · next h1 h2 => exact .inr (.inl ⟨by omega, h2, rfl⟩)
    · next h1 h2 => exact .inr (.inr ⟨⟨by omega, by omega⟩, rfl⟩)

theorem streamRead1_eof {s : State} (h : s.streamLen.toNat ≤ s.streamPos.toNat) : streamRead1 s = .ok none s := by
  simp [streamRead1, h]

theorem streamRead1_byte {s : State} (h : s.readable 1) :
    streamRead1 s = .ok (some (Memory.read s.stream s.streamPos.toNat)) (s.withPos (s.streamPos.toNat + 1)) := by
  obtain ⟨h1, h2⟩ := h
  simp only [streamRead1]
  rw [if_neg (by omega), if_neg (by omega)]

theorem streamReadN_short {s : State} {n : Nat} (h : s.streamLen.toNat < s.streamPos.toNat + n) :
    streamReadN n s = .ok none s := by simp [streamReadN, h]

theorem streamReadN_bytes {s : State} {n : Nat} (h : s.readable n) :
    streamReadN n s =
      .ok (some (Memory.readBytes s.stream s.streamPos.toNat n)) (s.withPos (s.streamPos.toNat + n)) := by
  obtain ⟨h1, h2⟩ := h
  simp only [streamReadN]
  rw [if_neg (by omega), if_neg (by omega)]

/-- `StreamReadN`: SHORT, a refusal outside the stream space, or the n bytes and STREAM_POS n on. -/
theorem streamReadN_cases (n : Nat) (s : State) :
    (s.streamLen.toNat < s.streamPos.toNat + n ∧ streamReadN n s = .ok none s) ∨
    (n ≠ 0 ∧ s.params.streamSpace < s.streamPos.toNat + n ∧ streamReadN n s = .refuse .streamBeyondSpace) ∨
    (s.streamPos.toNat + n ≤ s.streamLen.toNat ∧ (n = 0 ∨ s.streamPos.toNat + n ≤ s.params.streamSpace) ∧
      streamReadN n s =
        .ok (some (Memory.readBytes s.stream s.streamPos.toNat n)) (s.withPos (s.streamPos.toNat + n))) := by
  simp only [streamReadN]
  split
  · next h => exact .inl ⟨h, rfl⟩
  · split
    · next h1 h2 => exact .inr (.inl ⟨h2.1, h2.2, rfl⟩)
    · next h1 h2 => exact .inr (.inr ⟨by omega, by omega, rfl⟩)

/-- `StreamSeekFromEnd`: SEEKFAIL, or STREAM_POS k before the end. -/
theorem streamSeekFromEnd_cases (k : Nat) (s : State) :
    (s.streamLen.toNat < k ∧ streamSeekFromEnd k s = .ok false s) ∨
    (k ≤ s.streamLen.toNat ∧ streamSeekFromEnd k s = .ok true (s.withPos (s.streamLen.toNat - k))) := by
  simp only [streamSeekFromEnd]
  split
  · next h => exact .inl ⟨h, rfl⟩
  · next h => exact .inr ⟨by omega, rfl⟩

/-! ### Output and scratch -/

theorem outWrite_ok {a : Nat} {v : Byte} {s : State} (h : a < s.params.outSize) :
    outWrite a v s = .ok () { s with out := Memory.write s.out a v } := by simp [outWrite, h]

theorem outRead_ok {a : Nat} {s : State} (h : a < s.params.outSize) :
    outRead a s = .ok (Memory.read s.out a) s := by simp [outRead, h]

/-- What settling leaves at an address: the newest race's free value, or the byte that was there. -/
theorem read_settled (m : Memory) (races : List (Nat × Nat)) (a : Nat) :
    Memory.read (settled m races) a = raceOr races a (Memory.read m a) := by
  induction races with
  | nil => rfl
  | cons r races ih =>
    obtain ⟨b, k⟩ := r
    rw [settled, Memory.read_write, ih, raceOr, raceOr, List.lookup_cons]
    by_cases h : a = b
    · simp [h]
    · simp [h, beq_false_of_ne h]

theorem wf_settled (m : Memory) (races : List (Nat × Nat)) (h : Memory.wf m = true) :
    Memory.wf (settled m races) = true := by
  induction races with
  | nil => exact h
  | cons r races ih => exact Memory.wf_write _ _ _ ih

/-- While the block is busy the host finds what was stored last (R75). -/
theorem State.surfaceByte_busy {s : State} (h : s.busy = true) (a : Nat) : s.surfaceByte a = Memory.read s.out a := by
  rw [State.surfaceByte, if_pos h]

/-- The host finds what was stored last at every address that no race is listed for. -/
theorem State.surfaceByte_notRaced {s : State} {a : Nat} (h : ∀ r ∈ s.outRaced, r.1 ≠ a) :
    s.surfaceByte a = Memory.read s.out a := by
  have hl : s.outRaced.lookup a = none := by
    rw [List.lookup_eq_none_iff]
    exact fun r hr => by simpa using (h r hr).symm
  simp [State.surfaceByte, raceOr, hl]

/-- Settling makes the contents of OUT what the host finds there while the block is not busy. -/
theorem State.read_settleRaces {s : State} (h : s.busy = false) (a : Nat) :
    Memory.read s.settleRaces.out a = s.surfaceByte a := by
  rw [State.settleRaces_out, read_settled, State.surfaceByte, if_neg (by simp [h])]

theorem scratchWrite_ok {i : Nat} {v : Byte} {s : State} (h : i < s.params.scratchCap) :
    scratchWrite i v s = .ok () { s with scratch := scratchPut s i v } := by simp [scratchWrite, h]

theorem scratchRead_ok {i : Nat} {s : State} (h : i < s.params.scratchCap) :
    scratchRead i s = .ok (s.scratchByte i) s := by simp [scratchRead, h]

/-- A scratch byte after a scratch store. -/
theorem scratchByte_put (s : State) (i : Nat) (v : Byte) (j : Nat) :
    State.scratchByte { s with scratch := scratchPut s i v } j = if j = i then v else s.scratchByte j := by
  simp only [State.scratchByte, scratchPut]
  by_cases hz : s.scratchZeroed
  · simp only [hz, if_true, Memory.write]
    by_cases hv : v = Memory.unlisted
    · subst hv
      simp only [if_true, Memory.lookup_erase]
      by_cases hj : j = i <;> simp [hj]
    · simp only [hv, if_false, Memory.lookup_put]
      by_cases hj : j = i <;> simp [hj]
  · simp only [hz, Bool.false_eq_true, if_false, Memory.lookup_put]
    by_cases hj : j = i <;> simp [hj]

/-- A scratch byte depends on the scratch list, on whether the buffer was zeroed and on the reset count only. -/
theorem scratchByte_congr {s t : State} (h1 : t.scratch = s.scratch) (h2 : t.scratchZeroed = s.scratchZeroed)
    (h3 : t.resetCount = s.resetCount) (i : Nat) : t.scratchByte i = s.scratchByte i := by
  simp [State.scratchByte, h1, h2, h3]

/-- A scratch store keeps the scratch list in address order, and canonical once the buffer has been zeroed. -/
theorem scratchPut_wf (s : State) (i : Nat) (v : Byte) (hs : Memory.sorted s.scratch = true)
    (hw : s.scratchZeroed = true → Memory.wf s.scratch = true) :
    Memory.sorted (scratchPut s i v) = true ∧ (s.scratchZeroed = true → Memory.wf (scratchPut s i v) = true) := by
  simp only [scratchPut]
  split
  · next h => exact ⟨Memory.sorted_write _ _ _ hs, fun _ => Memory.wf_write _ _ _ (hw h)⟩
  · next h => exact ⟨Memory.sorted_put _ _ _ hs, fun hz => absurd hz h⟩

end Sys2Proof.Machine
end

