-- ==== Sys2Proof/Laws/Commands.lean ====
section
/-! SUPPORT. What the commands do (spec/43_control.md R220 to R225): the exact values of the derived registers, the
checks of VALIDATE and START case by case, and what each command leaves unchanged. -/

namespace Sys2Proof.Machine

/-! ### Derived registers (R27) -/

theorem half_toInt_bounds (x : Half) : -32768 ≤ x.toInt ∧ x.toInt ≤ 32767 := by
  have h1 := BitVec.toInt_lt (x := x)
  have h2 := BitVec.le_toInt (x := x)
  norm_num at h1 h2
  omega

theorem word_ofInt_toInt {x : Int} (h1 : -65536 ≤ x) (h2 : x ≤ 65536) : (BitVec.ofInt 32 x).toInt = x := by
  rw [BitVec.toInt_ofInt]
  exact Int.bmod_eq_of_le (by omega) (by omega)

/-- WIDTH holds `XMAX - XMIN + 1`, exact. -/
theorem withGeometry_w (s : State) : s.withGeometry.w = s.boxWidth := by
  have h1 := half_toInt_bounds s.cfgXmax
  have h2 := half_toInt_bounds s.cfgXmin
  simp only [State.w, State.withGeometry_width]
  exact word_ofInt_toInt (by unfold State.boxWidth; omega) (by unfold State.boxWidth; omega)

/-- HEIGHT holds `YMAX - YMIN + 1`, exact. -/
theorem withGeometry_h (s : State) : s.withGeometry.h = s.boxHeight := by
  have h1 := half_toInt_bounds s.cfgYmax
  have h2 := half_toInt_bounds s.cfgYmin
  simp only [State.h, State.withGeometry_height]
  exact word_ofInt_toInt (by unfold State.boxHeight; omega) (by unfold State.boxHeight; omega)

theorem scanBytes_le (s : State) : s.scanBytes ≤ 255 * 32767 := by
  unfold State.scanBytes
  split
  · have h1 := half_toInt_bounds s.cfgBpl
    have h2 := s.cfgNplanes.isLt
    exact Nat.mul_le_mul (by unfold State.np; omega) (by unfold State.bpl; omega)
  · omega

/-- NBYTES holds N, exact. -/
theorem withGeometry_n (s : State) : s.withGeometry.n = s.scanBytes := by
  have := scanBytes_le s
  simp only [State.n, State.withGeometry_nbytes, BitVec.toNat_ofNat]
  exact Nat.mod_eq_of_lt (by omega)

/-- FORMAT.SRC_BITS holds `BPP * NP`, exact. -/
theorem withGeometry_srcBits_toNat (s : State) : s.withGeometry.srcBits.toNat = s.bpp * s.np := by
  have h1 : s.bpp ≤ 255 := by have := s.cfgBpp.isLt; unfold State.bpp; omega
  have h2 : s.np ≤ 255 := by have := s.cfgNplanes.isLt; unfold State.np; omega
  have := Nat.mul_le_mul h1 h2
  simp only [State.withGeometry_srcBits, BitVec.toNat_ofNat]
  exact Nat.mod_eq_of_lt (by omega)

/-! ### VALIDATE and START -/

/-- VALIDATE's checks, in their order (R222, R267). -/
theorem validateChecks_cases (s : State) :
    (¬(s.cfgEnc = 0 ∨ s.cfgEnc = 1) ∧ validateChecks s = .fail .unsupportedFormat s) ∨
    ((s.cfgEnc = 0 ∨ s.cfgEnc = 1) ∧ s.layout = .none ∧ validateChecks s = .fail .unsupportedFormat s) ∨
    ((s.cfgEnc = 0 ∨ s.cfgEnc = 1) ∧ s.layout ≠ .none ∧ (s.w < 1 ∨ s.h < 1) ∧
      validateChecks s = .fail .unsupportedFormat s) ∨
    ((s.cfgEnc = 0 ∨ s.cfgEnc = 1) ∧ s.layout ≠ .none ∧ 1 ≤ s.w ∧ 1 ≤ s.h ∧ s.params.scratchCap < s.n ∧
      validateChecks s = .fail .outOfMemory s) ∨
    ((s.cfgEnc = 0 ∨ s.cfgEnc = 1) ∧ s.layout ≠ .none ∧ 1 ≤ s.w ∧ 1 ≤ s.h ∧ s.n ≤ s.params.scratchCap ∧
      validateChecks s = .ok () { s.zeroScratch with runState := .validated }) := by
  simp only [validateChecks]
  split
  · next h => exact .inl ⟨by rintro (e | e) <;> simp [e] at h, rfl⟩
  · next h =>
    have he : s.cfgEnc = 0 ∨ s.cfgEnc = 1 := by
      by_contra hc
      exact h ⟨fun e => hc (.inl e), fun e => hc (.inr e)⟩
    split
    · next h1 => exact .inr (.inl ⟨he, h1, rfl⟩)
    · next h1 =>
      split
      · next h2 => exact .inr (.inr (.inl ⟨he, h1, h2, rfl⟩))
      · next h2 =>
        split
        · next h3 => exact .inr (.inr (.inr (.inl ⟨he, h1, by omega, by omega, h3, rfl⟩)))
        · next h3 => exact .inr (.inr (.inr (.inr ⟨he, h1, by omega, by omega, by omega, rfl⟩)))

/-- START's two checks and its end (R223). -/
theorem startRule_cases (s : State) :
    ((s.cfgPitch.toNat : Int) < s.w * s.outb.toNat ∧ startRule s = .fail .allocationFailed s) ∨
    (s.w * s.outb.toNat ≤ s.cfgPitch.toNat ∧
      (s.params.outSize : Int) < s.cfgOutBase.toNat + (s.h - 1) * s.cfgPitch.toNat + s.w * s.outb.toNat ∧
      startRule s = .fail .allocationFailed s) ∨
    (s.w * s.outb.toNat ≤ s.cfgPitch.toNat ∧
      s.cfgOutBase.toNat + (s.h - 1) * s.cfgPitch.toNat + s.w * s.outb.toNat ≤ (s.params.outSize : Int) ∧
      startRule s = .ok () { s.settleRaces with rowY := 0, runState := .rows }) := by
  simp only [startRule]
  split
  · next h => exact .inl ⟨h, rfl⟩
  · next h =>
    split
    · next h1 => exact .inr (.inl ⟨by omega, h1, rfl⟩)
    · next h1 => exact .inr (.inr ⟨by omega, by omega, rfl⟩)

/-- A command that is not accepted (R220). -/
theorem issue_ignored {b : Bool} {rule : State → Flow Unit} {s : State} (h : b = false) :
    issue b rule s = .next (s.withIgn true) := by simp [issue, h]

/-- A command that is accepted (R220). -/
theorem issue_accepted {b : Bool} {rule : State → Flow Unit} {s : State} (h : b = true) :
    issue b rule s = (rule (s.withIgn false)).finish := by simp [issue, h]

/-- Every command goes on: the next state, or the failure entry. -/
theorem issue_goes {b : Bool} {rule : State → Flow Unit} {s : State}
    (h : (rule (s.withIgn false)).Runs fun _ _ => True) : Goes (issue b rule s) := by
  cases b
  · exact ⟨_, rfl⟩
  · exact Flow.Runs.goes h

theorem validateRule_runs (s : State) : (validateRule s).Runs fun _ _ => True := by
  rw [validateRule]
  rcases validateChecks_cases s.withGeometry with ⟨_, e⟩ | ⟨_, _, e⟩ | ⟨_, _, _, e⟩ | ⟨_, _, _, _, _, e⟩ |
    ⟨_, _, _, _, _, e⟩ <;> rw [e] <;> trivial

theorem startRule_runs (s : State) : (startRule s).Runs fun _ _ => True := by
  rcases startRule_cases s with ⟨_, e⟩ | ⟨_, _, e⟩ | ⟨_, _, e⟩ <;> rw [e] <;> trivial

end Sys2Proof.Machine
end

