-- ==== Sys2Proof/Laws/Decode.lean ====
section
/-! SUPPORT. What the decoder reads from the bytes the encoder writes (spec/30_encoding.md R91 to R96). -/

namespace Sys2Proof

theorem tag_of_literal : ∀ v : Byte, litValueOk v = true → tagIsRun v = false ∧ v ≠ 0xC0#8 := by decide

theorem literal_of_tag : ∀ v : Byte, tagIsRun v = false → litValueOk v = true := by decide

theorem tag_of_run : ∀ n : BitVec 6, tagIsRun (3#2 ++ n) = true ∧ countOf (3#2 ++ n) = n := by decide

theorem run_ne_zeroRun : ∀ n : BitVec 6, n ≠ 0 → (3#2 ++ n : Byte) ≠ 0xC0#8 := by decide

theorem run_of_tag : ∀ c : Byte, tagIsRun c = true → c ≠ 0xC0#8 → countOf c ≠ 0 ∧ 3#2 ++ countOf c = c := by decide

theorem codeOf_lit (v w : Byte) (h : litValueOk v = true) : codeOf v w = .lit v := by
  obtain ⟨h1, h2⟩ := tag_of_literal v h
  simp [codeOf, h1, h2]

theorem codeOf_run (n : BitVec 6) (v : Byte) (h : n ≠ 0) : codeOf (3#2 ++ n) v = .run n v := by
  obtain ⟨h1, h2⟩ := tag_of_run n
  simp [codeOf, h1, h2, run_ne_zeroRun n h]

@[simp] theorem codeOf_run0 (v : Byte) : codeOf 0xC0#8 v = .run0 v := by simp [codeOf]

/-- Every pair of bytes makes a LIT, a RUN or a RUN0 (R95). -/
theorem codeOf_cases (c v : Byte) :
    (litValueOk c = true ∧ codeOf c v = .lit c) ∨ (c = 0xC0#8 ∧ codeOf c v = .run0 v) ∨
    (countOf c ≠ 0 ∧ 3#2 ++ countOf c = c ∧ codeOf c v = .run (countOf c) v) := by
  by_cases h0 : c = 0xC0#8
  · subst h0; exact .inr (.inl ⟨rfl, codeOf_run0 v⟩)
  · by_cases ht : tagIsRun c = true
    · obtain ⟨h1, h2⟩ := run_of_tag c ht h0
      exact .inr (.inr ⟨h1, h2, by simp [codeOf, h0, ht]⟩)
    · have ht : tagIsRun c = false := by simpa using ht
      exact .inl ⟨literal_of_tag c ht, by simp [codeOf, h0, ht]⟩

@[simp] theorem codeBytes_nil : codeBytes [] = [] := rfl

@[simp] theorem codeBytes_cons (i : Instr) (cs : List Instr) :
    codeBytes (i :: cs) = (encode i).bytes ++ codeBytes cs := by simp [codeBytes]

@[simp] theorem codeBytes_append (as bs : List Instr) : codeBytes (as ++ bs) = codeBytes as ++ codeBytes bs := by
  simp [codeBytes]

namespace Machine

@[simp] theorem emittedAll_nil : emittedAll [] = [] := rfl

@[simp] theorem emittedAll_cons (i : Instr) (cs : List Instr) :
    emittedAll (i :: cs) = emitted i ++ emittedAll cs := by simp [emittedAll]

@[simp] theorem emittedAll_append (as bs : List Instr) : emittedAll (as ++ bs) = emittedAll as ++ emittedAll bs := by
  simp [emittedAll]

end Machine

end Sys2Proof
end

