-- ==== Sys2Proof/Laws/Rle.lean ====
section
/-! SUPPORT. What the run-length decoder does (spec/40_rle_decoder.md R130 to R140): the frame of a fill, each code,
one pass, and the whole loop. -/

namespace Sys2Proof.Machine

/-- `t` is `s` with what a fill may change: STREAM_POS, the scratch bytes and the hidden run registers. -/
def FillFrame (s t : State) : Prop :=
  t = { s with streamPos := t.streamPos, scratch := t.scratch, runCnt := t.runCnt, runVal := t.runVal,
               fillI := t.fillI }

theorem FillFrame.refl (s : State) : FillFrame s s := rfl

theorem FillFrame.trans {s t u : State} (h1 : FillFrame s t) (h2 : FillFrame t u) : FillFrame s u := by
  unfold FillFrame at *; rw [h2, h1]

theorem FillFrame.n {s t : State} (h : FillFrame s t) : t.n = s.n := by rw [h]; rfl
theorem FillFrame.nbytes {s t : State} (h : FillFrame s t) : t.nbytes = s.nbytes := by rw [h]
theorem FillFrame.params {s t : State} (h : FillFrame s t) : t.params = s.params := by rw [h]
theorem FillFrame.stream {s t : State} (h : FillFrame s t) : t.stream = s.stream := by rw [h]
theorem FillFrame.streamLen {s t : State} (h : FillFrame s t) : t.streamLen = s.streamLen := by rw [h]
theorem FillFrame.streamOrigin {s t : State} (h : FillFrame s t) : t.streamOrigin = s.streamOrigin := by rw [h]
theorem FillFrame.out {s t : State} (h : FillFrame s t) : t.out = s.out := by rw [h]
theorem FillFrame.runState {s t : State} (h : FillFrame s t) : t.runState = s.runState := by rw [h]
theorem FillFrame.scratchZeroed {s t : State} (h : FillFrame s t) : t.scratchZeroed = s.scratchZeroed := by rw [h]
theorem FillFrame.resetCount {s t : State} (h : FillFrame s t) : t.resetCount = s.resetCount := by rw [h]

theorem FillFrame.withPos (s : State) (p : Nat) : FillFrame s (s.withPos p) := rfl
theorem FillFrame.startRequest (s : State) : FillFrame s s.startRequest := rfl

/-- Scratch bytes of two states with the same scratch list. -/
theorem FillFrame.scratchByte {s t : State} (h : FillFrame s t) (hs : t.scratch = s.scratch) (i : Nat) :
    t.scratchByte i = s.scratchByte i := scratchByte_congr hs h.scratchZeroed h.resetCount i

/-! ### Reading codes -/

/-- A one-byte read goes on by one byte, fails with Truncated where the stream ends, or is refused outside the stream
space. -/
theorem readByteOrFail_cases (s : State) :
    (s.streamLen.toNat ≤ s.streamPos.toNat ∧ readByteOrFail s = .fail .truncated s) ∨
    (s.streamPos.toNat < s.streamLen.toNat ∧ s.params.streamSpace ≤ s.streamPos.toNat ∧
      readByteOrFail s = .refuse .streamBeyondSpace) ∨
    (s.readable 1 ∧ readByteOrFail s =
      .ok (Memory.read s.stream s.streamPos.toNat) (s.withPos (s.streamPos.toNat + 1))) := by
  rcases streamRead1_cases s with ⟨h, e⟩ | ⟨h1, h2, e⟩ | ⟨h, e⟩
  · exact .inl ⟨h, by simp [readByteOrFail, e]⟩
  · exact .inr (.inl ⟨h1, h2, by simp [readByteOrFail, e]⟩)
  · exact .inr (.inr ⟨h, by simp [readByteOrFail, e]⟩)

theorem readByteOrFail_ok {s : State} (h : s.readable 1) : readByteOrFail s =
    .ok (Memory.read s.stream s.streamPos.toNat) (s.withPos (s.streamPos.toNat + 1)) := by
  simp [readByteOrFail, streamRead1_byte h]

theorem State.withPos_toNat {s : State} {p : Nat} (h : p ≤ s.streamLen.toNat) :
    (s.withPos p).streamPos.toNat = p := by
  have := s.streamLen.isLt
  simp only [State.withPos_streamPos, BitVec.toNat_ofNat]
  exact Nat.mod_eq_of_lt (by omega)

theorem State.withPos_self (s : State) : s.withPos s.streamPos.toNat = s := by
  simp [State.withPos]

theorem State.withPos_withPos (s : State) (p q : Nat) : (s.withPos p).withPos q = s.withPos q := rfl

theorem State.readable_mono {s : State} {m n : Nat} (h : s.readable n) (hm : m ≤ n) : s.readable m :=
  ⟨by have := h.1; omega, by have := h.2; omega⟩

/-- `readable` of a sum, flat (`omega` does not take a large literal inside a nested sum). -/
theorem State.readable_add {s : State} {m n : Nat} (h : s.readable (m + n)) :
    s.streamPos.toNat + m + n ≤ s.streamLen.toNat ∧ s.streamPos.toNat + m + n ≤ s.params.streamSpace := by
  rw [Nat.add_assoc]; exact h

theorem State.readable_withPos {s : State} {m n : Nat} (h : s.readable (m + n)) :
    (s.withPos (s.streamPos.toNat + m)).readable n := by
  have h1 := h.1
  refine ⟨?_, ?_⟩
  · rw [State.withPos_toNat (by omega)]; simp only [State.withPos_streamLen]; omega
  · rw [State.withPos_toNat (by omega)]; have := h.2; simp only [State.withPos_params]; omega

/-- Two successive one-byte reads. -/
theorem readTwo_ok {α : Type} {s : State} (h : s.readable 2) (f : State → Flow α) :
    ((readByteOrFail s).bind fun _ s => (readByteOrFail s).bind fun _ s => f s) =
      f (s.withPos (s.streamPos.toNat + 2)) := by
  have h1 : s.readable (1 + 1) := h
  have h2 := State.readable_withPos h1
  rw [readByteOrFail_ok (State.readable_mono h1 (by omega)), Flow.bind_ok, readByteOrFail_ok h2, Flow.bind_ok,
    State.withPos_toNat (by have := h.1; omega)]
  rfl

theorem lit_ok {s : State} (v : Byte) (h : s.readable 1) :
    lit v s = .ok () { s.withPos (s.streamPos.toNat + 1) with runVal := v, runCnt := 1 } := by
  rw [lit, readByteOrFail_ok h]; rfl

theorem run_ok {s : State} (n : BitVec 6) (v : Byte) (h : s.readable 2) :
    run n v s = .ok () { s.withPos (s.streamPos.toNat + 2) with runVal := v, runCnt := n } := by
  rw [run, readTwo_ok h]

theorem run0_ok {s : State} (v : Byte) (h : s.readable 2) :
    run0 v s = run0Policy v (s.withPos (s.streamPos.toNat + 2)) := by
  rw [run0, readTwo_ok h]

/-- The value byte of a two-byte code is missing: Truncated one byte past the control byte (R138). -/
theorem readTwo_truncated {α : Type} {s : State} (h : s.readable 1)
    (he : s.streamPos.toNat + 1 = s.streamLen.toNat) (f : State → Flow α) :
    ((readByteOrFail s).bind fun _ s => (readByteOrFail s).bind fun _ s => f s) =
      .fail .truncated (s.withPos (s.streamPos.toNat + 1)) := by
  rw [readByteOrFail_ok h, Flow.bind_ok]
  rcases readByteOrFail_cases (s.withPos (s.streamPos.toNat + 1)) with ⟨-, e⟩ | ⟨h1, -, -⟩ | ⟨h1, -⟩
  · rw [e]; rfl
  · rw [State.withPos_toNat (by omega)] at h1; simp only [State.withPos_streamLen] at h1; omega
  · have := h1.1
    rw [State.withPos_toNat (by omega)] at this; simp only [State.withPos_streamLen] at this; omega

/-- Two successive one-byte reads: both bytes, or the failure or refusal of the first or of the second. -/
theorem readTwo_cases {α : Type} (s : State) (f : State → Flow α) :
    (s.streamLen.toNat ≤ s.streamPos.toNat ∧
      ((readByteOrFail s).bind fun _ s => (readByteOrFail s).bind fun _ s => f s) = .fail .truncated s) ∨
    (s.readable 1 ∧ s.streamPos.toNat + 1 = s.streamLen.toNat ∧
      ((readByteOrFail s).bind fun _ s => (readByteOrFail s).bind fun _ s => f s) =
        .fail .truncated (s.withPos (s.streamPos.toNat + 1))) ∨
    (s.params.streamSpace < s.streamLen.toNat ∧
      ((readByteOrFail s).bind fun _ s => (readByteOrFail s).bind fun _ s => f s) = .refuse .streamBeyondSpace) ∨
    (s.readable 2 ∧ ((readByteOrFail s).bind fun _ s => (readByteOrFail s).bind fun _ s => f s) =
      f (s.withPos (s.streamPos.toNat + 2))) := by
  rcases readByteOrFail_cases s with ⟨h, e⟩ | ⟨h1, h2, e⟩ | ⟨h, e⟩
  · exact .inl ⟨h, by rw [e]; rfl⟩
  · exact .inr (.inr (.inl ⟨by omega, by rw [e]; rfl⟩))
  · have hp := State.withPos_toNat h.1
    rcases readByteOrFail_cases (s.withPos (s.streamPos.toNat + 1)) with ⟨h1, _⟩ | ⟨h1, h2, e1⟩ | ⟨h1, _⟩
    · rw [hp] at h1
      have he : s.streamPos.toNat + 1 = s.streamLen.toNat := Nat.le_antisymm h.1 h1
      exact .inr (.inl ⟨h, he, readTwo_truncated h he f⟩)
    · rw [hp] at h1 h2
      refine .inr (.inr (.inl ⟨?_, by rw [e, Flow.bind_ok, e1]; rfl⟩))
      exact Nat.lt_of_le_of_lt h2 h1
    · have h2 : s.readable 2 := ⟨by have := h1.1; rw [hp] at this; exact this, by have := h1.2; rw [hp] at this; exact this⟩
      exact .inr (.inr (.inr ⟨h2, readTwo_ok h2 f⟩))

/-! ### What the stream holds -/

theorem State.streamHolds_append {s : State} {as bs : List Byte} (h : s.streamHolds (as ++ bs)) :
    s.streamHolds as ∧ (s.withPos (s.streamPos.toNat + as.length)).streamHolds bs := by
  obtain ⟨hr, hb⟩ := h
  rw [List.length_append] at hr hb
  have h1 := hr.1
  have hsplit : Memory.readBytes s.stream s.streamPos.toNat (as.length + bs.length) =
      Memory.readBytes s.stream s.streamPos.toNat as.length ++
        Memory.readBytes s.stream (s.streamPos.toNat + as.length) bs.length := by
    simp [Memory.readBytes, List.range_add, Function.comp_def, Nat.add_assoc]
  rw [hsplit] at hb
  obtain ⟨e1, e2⟩ := List.append_inj hb (by simp)
  refine ⟨⟨State.readable_mono hr (by omega), e1⟩, State.readable_withPos hr, ?_⟩
  rw [State.withPos_toNat (by omega)]
  exact e2

theorem State.streamHolds_congr {s t : State} (bs : List Byte) (h1 : t.stream = s.stream)
    (h2 : t.streamLen = s.streamLen) (h3 : t.streamPos = s.streamPos) (h4 : t.params = s.params) :
    t.streamHolds bs ↔ s.streamHolds bs := by
  simp [State.streamHolds, State.readable, h1, h2, h3, h4]

theorem State.streamHolds_one {s : State} {v : Byte} (h : s.streamHolds [v]) :
    Memory.read s.stream s.streamPos.toNat = v := by
  have := h.2
  simpa [Memory.readBytes] using this

theorem State.streamHolds_two {s : State} {v w : Byte} (h : s.streamHolds [v, w]) :
    Memory.read s.stream s.streamPos.toNat = v ∧ Memory.read s.stream (s.streamPos.toNat + 1) = w := by
  have := h.2
  simpa [Memory.readBytes, List.range_succ] using this

/-- The code at STREAM_POS is the one whose bytes the stream holds. -/
theorem nextCode_lit {s : State} {v : Byte} (hv : litValueOk v = true) (h : s.streamHolds [v]) :
    nextCode s = some (.lit v) := by
  have h1 := h.1.1
  simp only [List.length_singleton] at h1
  rw [nextCode, if_neg (by omega), State.streamHolds_one h, codeOf_lit _ _ hv]

theorem nextCode_run {s : State} {n : BitVec 6} {v : Byte} (hn : n ≠ 0) (h : s.streamHolds [3#2 ++ n, v]) :
    nextCode s = some (.run n v) := by
  have h1 := h.1.1
  simp only [List.length_cons, List.length_nil] at h1
  obtain ⟨e1, e2⟩ := State.streamHolds_two h
  rw [nextCode, if_neg (by omega), e1, e2, codeOf_run _ _ hn]

theorem nextCode_run0 {s : State} {v : Byte} (h : s.streamHolds [0xC0#8, v]) : nextCode s = some (.run0 v) := by
  have h1 := h.1.1
  simp only [List.length_cons, List.length_nil] at h1
  obtain ⟨e1, e2⟩ := State.streamHolds_two h
  rw [nextCode, if_neg (by omega), e1, e2, codeOf_run0]

/-- Reading a code that emits (LIT or RUN): the run it sets up. -/
theorem readCode_emits {s : State} {c : Instr} (hc : emitsAlways c = true) (h : s.streamHolds (encode c).bytes) :
    ∃ v m, emitted c = List.replicate m v ∧ 1 ≤ m ∧ m ≤ 63 ∧
      readCode s = .ok () { s.withPos (s.streamPos.toNat + (encode c).bytes.length) with
        runVal := v, runCnt := BitVec.ofNat 6 m } := by
  cases c with
  | lit v =>
    refine ⟨v, 1, rfl, by omega, by omega, ?_⟩
    simp only [readCode, nextCode_lit hc h, runCode]
    exact lit_ok v h.1
  | run n v =>
    have hn : n ≠ 0 := by simpa [emitsAlways, runCountOk] using hc
    refine ⟨v, n.toNat, rfl, ?_, ?_, ?_⟩
    · have : n.toNat ≠ 0 := fun h => hn (BitVec.eq_of_toNat_eq (by simpa using h))
      omega
    · have := n.isLt; omega
    · simp only [readCode, nextCode_run hn h, runCode, BitVec.ofNat_toNat, BitVec.setWidth_eq]
      exact run_ok n v h.1
  | run0 _ | fillRaw | fillRle | unpackSub _ | unpackIdx8 | unpackRgb24 | clearRow | palInline | palTrailing | rowStep
  | palStep | nop | validate | start | clear | reservedCmd _ => simp [emitsAlways] at hc

/-- Reading a code: a literal, a run, a RUN0 (whose effect is its policy's), a truncation, or a refusal outside the
stream space. -/
theorem readCode_cases (s : State) :
    (s.streamLen.toNat ≤ s.streamPos.toNat ∧ readCode s = .fail .truncated s) ∨
    (s.readable 1 ∧ s.streamPos.toNat + 1 = s.streamLen.toNat ∧
      readCode s = .fail .truncated (s.withPos (s.streamPos.toNat + 1))) ∨
    (s.params.streamSpace < s.streamLen.toNat ∧ readCode s = .refuse .streamBeyondSpace) ∨
    (s.readable 1 ∧ ∃ v, readCode s =
      .ok () { s.withPos (s.streamPos.toNat + 1) with runVal := v, runCnt := 1 }) ∨
    (s.readable 2 ∧ ∃ (n : BitVec 6) (v : Byte), n ≠ 0 ∧ readCode s =
      .ok () { s.withPos (s.streamPos.toNat + 2) with runVal := v, runCnt := n }) ∨
    (s.readable 2 ∧ ∃ v, readCode s = run0Policy v (s.withPos (s.streamPos.toNat + 2))) := by
  by_cases hlen : s.streamLen.toNat ≤ s.streamPos.toNat
  · exact .inl ⟨hlen, by simp [readCode, nextCode, hlen]⟩
  · have hr : readCode s = runCode (codeOf (Memory.read s.stream s.streamPos.toNat)
        (Memory.read s.stream (s.streamPos.toNat + 1))) s := by simp [readCode, nextCode, hlen]
    rw [hr]
    rcases codeOf_cases (Memory.read s.stream s.streamPos.toNat) (Memory.read s.stream (s.streamPos.toNat + 1)) with
      ⟨_, e⟩ | ⟨_, e⟩ | ⟨hn, _, e⟩ <;> rw [e]
    · rcases readByteOrFail_cases s with ⟨h, _⟩ | ⟨h1, h2, e1⟩ | ⟨h, _⟩
      · exact absurd h hlen
      · exact .inr (.inr (.inl ⟨by omega, by simp only [runCode, lit, e1]; rfl⟩))
      · exact .inr (.inr (.inr (.inl ⟨h, _, lit_ok _ h⟩)))
    · rcases readTwo_cases s (run0Policy (Memory.read s.stream (s.streamPos.toNat + 1))) with
        ⟨h, _⟩ | ⟨h, h1, e1⟩ | ⟨h, e1⟩ | ⟨h, e1⟩
      · exact absurd h hlen
      · exact .inr (.inl ⟨h, h1, e1⟩)
      · exact .inr (.inr (.inl ⟨h, e1⟩))
      · exact .inr (.inr (.inr (.inr (.inr ⟨h, _, e1⟩))))
    · rcases readTwo_cases s (fun t => Flow.ok () { t with
          runVal := Memory.read s.stream (s.streamPos.toNat + 1), runCnt := countOf (Memory.read s.stream s.streamPos.toNat) })
        with ⟨h, _⟩ | ⟨h, h1, e1⟩ | ⟨h, e1⟩ | ⟨h, e1⟩
      · exact absurd h hlen
      · exact .inr (.inl ⟨h, h1, e1⟩)
      · exact .inr (.inr (.inl ⟨h, e1⟩))
      · exact .inr (.inr (.inr (.inr (.inl ⟨h, _, _, hn, e1⟩))))

/-- FILL_REST writes the value to every remaining byte (R135). -/
theorem fillRest_ok (v : Byte) (s : State) (hp : s.params.zeroRunPolicy = .fillRest)
    (hi : s.fillI.toNat ≤ s.n) (hcap : s.n ≤ s.params.scratchCap) :
    ∃ t, run0Policy v s = .ok () t ∧ t = { s with fillI := s.nbytes, scratch := t.scratch } ∧
      ∀ i, t.scratchByte i = if s.fillI.toNat ≤ i ∧ i < s.n then v else s.scratchByte i := by
  obtain ⟨t, ht, hte, hts⟩ := forFrom_ok (P := fun k t => t = { s with scratch := t.scratch } ∧
      ∀ i, t.scratchByte i = if s.fillI.toNat ≤ i ∧ i < k then v else s.scratchByte i)
    (f := fun i s => scratchWrite i v s) (s.n - s.fillI.toNat) s.fillI.toNat s
    ⟨rfl, fun i => by rw [if_neg (by omega)]⟩ (by
      rintro i t h1 h2 ⟨h3, h4⟩
      refine ⟨_, scratchWrite_ok (by rw [show t.params = s.params by rw [h3]]; omega), ?_, fun j => ?_⟩
      · show _ = _
        rw [h3]
      · rw [scratchByte_put, h4]
        by_cases hj : j = i
        · subst hj; rw [if_pos rfl, if_pos ⟨by omega, by omega⟩]
        · rw [if_neg hj]
          by_cases hj2 : s.fillI.toNat ≤ j ∧ j < i
          · rw [if_pos hj2, if_pos ⟨by omega, by omega⟩]
          · rw [if_neg hj2, if_neg (by omega)])
  rw [show s.fillI.toNat + (s.n - s.fillI.toNat) = s.n by omega] at hts
  refine ⟨{ t with fillI := s.nbytes }, ?_, ?_, hts⟩
  · simp only [run0Policy, hp, ht, Flow.bind_ok, show t.nbytes = s.nbytes by rw [hte]]
  · show _ = _
    rw [hte]

/-! ### One pass -/

/-- No emission where no run is left. -/
theorem emit_none {s : State} (h : s.runCnt = 0) : emit s = .ok () s := by simp only [emit]; rw [if_pos h]

theorem fillLoop_succ (k : Nat) (s : State) (h : s.fillI.toNat < s.n) :
    fillLoop (k + 1) s = (fillPass s).bind fun _ s => fillLoop k s := by simp [fillLoop, h]

theorem fillLoop_done (k : Nat) (s : State) (h : s.n ≤ s.fillI.toNat) : fillLoop k s = .ok () s := by
  cases k with
  | zero => rfl
  | succ k => simp [fillLoop, Nat.not_lt.2 h]

/-- A pass that reads a code with a run in it is the pass that follows that code. -/
theorem fillLoop_readCode {s t : State} (k : Nat) (h0 : s.runCnt = 0) (hi : s.fillI.toNat < s.n)
    (hr : readCode s = .ok () t) (ht : t.runCnt ≠ 0) (hti : t.fillI.toNat < t.n) :
    fillLoop (k + 1) s = fillLoop (k + 1) t := by
  rw [fillLoop_succ k s hi, fillLoop_succ k t hti, fillPass, fillPass, if_pos h0, if_neg ht, hr]

/-- The state after `m` emissions of the current run. -/
theorem emitRun (s : State) (hn : s.n ≤ s.params.scratchCap) : ∀ m : Nat, m ≤ s.runCnt.toNat →
    s.fillI.toNat + m ≤ s.n → ∃ t, (∀ k, fillLoop (m + k) s = fillLoop k t) ∧
      t = { s with runCnt := BitVec.ofNat 6 (s.runCnt.toNat - m), fillI := BitVec.ofNat 32 (s.fillI.toNat + m),
                   scratch := t.scratch } ∧
      ∀ i, t.scratchByte i = if s.fillI.toNat ≤ i ∧ i < s.fillI.toNat + m then s.runVal else s.scratchByte i := by
  intro m
  induction m with
  | zero =>
    intro _ _
    refine ⟨s, fun k => by rw [Nat.zero_add], by simp, fun i => ?_⟩
    rw [if_neg (by omega)]
  | succ m ih =>
    intro h1 h2
    obtain ⟨t, ht, hte, hts⟩ := ih (by omega) (by omega)
    have hcnt : t.runCnt = BitVec.ofNat 6 (s.runCnt.toNat - m) := by rw [hte]
    have hval : t.runVal = s.runVal := by rw [hte]
    have hfi : t.fillI = BitVec.ofNat 32 (s.fillI.toNat + m) := by rw [hte]
    have htn : t.n = s.n := by rw [hte]; rfl
    have hpar : t.params = s.params := by rw [hte]
    have hlt := s.runCnt.isLt
    have hnlt : s.n < 2 ^ 32 := s.nbytes.isLt
    have hcntN : t.runCnt.toNat = s.runCnt.toNat - m := by
      rw [hcnt, BitVec.toNat_ofNat]; exact Nat.mod_eq_of_lt (by omega)
    have hfiN : t.fillI.toNat = s.fillI.toNat + m := by
      rw [hfi, BitVec.toNat_ofNat]; exact Nat.mod_eq_of_lt (by omega)
    have hcnt0 : t.runCnt ≠ 0 := fun h => by
      have : t.runCnt.toNat = 0 := by rw [h]; rfl
      omega
    refine ⟨{ t with runCnt := t.runCnt - 1, fillI := BitVec.ofNat 32 (t.fillI.toNat + 1),
                     scratch := scratchPut t t.fillI.toNat t.runVal }, ?_, ?_, ?_⟩
    · intro k
      rw [show m + 1 + k = m + (k + 1) by omega, ht (k + 1), fillLoop_succ k t (by omega)]
      simp only [fillPass, emit, hcnt0, if_false, Flow.bind_ok]
      rw [scratchWrite_ok (by rw [hpar]; omega)]
      rfl
    · have e1 : t.runCnt - 1 = BitVec.ofNat 6 (s.runCnt.toNat - (m + 1)) := by
        apply BitVec.eq_of_toNat_eq
        rw [BitVec.toNat_sub, hcntN, BitVec.toNat_ofNat, show (1 : BitVec 6).toNat = 1 from rfl]
        omega
      have e2 : t.fillI.toNat + 1 = s.fillI.toNat + (m + 1) := by omega
      rw [e1, e2, hte]
    · intro i
      show State.scratchByte { t with scratch := scratchPut t t.fillI.toNat t.runVal } i = _
      rw [scratchByte_put, hfiN, hts, hval]
      by_cases hi : i = s.fillI.toNat + m
      · subst hi; rw [if_pos rfl, if_pos ⟨by omega, by omega⟩]
      · rw [if_neg hi]
        by_cases hr : s.fillI.toNat ≤ i ∧ i < s.fillI.toNat + m
        · rw [if_pos hr, if_pos ⟨hr.1, by omega⟩]
        · rw [if_neg hr, if_neg (by omega)]

/-- A code that emits, with all its emissions that fit (R133, R134, R136). -/
theorem codeRun (s : State) (c : Instr) (hc : emitsAlways c = true) (h : s.streamHolds (encode c).bytes)
    (h0 : s.runCnt = 0) (hi : s.fillI.toNat < s.n) (hn : s.n ≤ s.params.scratchCap) :
    ∃ v m t, emitted c = List.replicate m v ∧ 1 ≤ m ∧ m ≤ 63 ∧
      (∀ k, fillLoop (min m (s.n - s.fillI.toNat) + k) s = fillLoop k t) ∧
      t = { s with streamPos := BitVec.ofNat 32 (s.streamPos.toNat + (encode c).bytes.length), runVal := v,
                   runCnt := BitVec.ofNat 6 (m - min m (s.n - s.fillI.toNat)),
                   fillI := BitVec.ofNat 32 (s.fillI.toNat + min m (s.n - s.fillI.toNat)), scratch := t.scratch } ∧
      ∀ i, t.scratchByte i = if s.fillI.toNat ≤ i ∧ i < s.fillI.toNat + min m (s.n - s.fillI.toNat) then v
        else s.scratchByte i := by
  obtain ⟨v, m, he, hm1, hm2, hr⟩ := readCode_emits hc h
  have hmN : (BitVec.ofNat 6 m).toNat = m := by
    rw [BitVec.toNat_ofNat]; exact Nat.mod_eq_of_lt (by omega)
  have hm0 : BitVec.ofNat 6 m ≠ 0 := fun e => by
    rw [e] at hmN; simp at hmN; omega
  obtain ⟨t, ht, hte, hts⟩ := emitRun { s.withPos (s.streamPos.toNat + (encode c).bytes.length) with
    runVal := v, runCnt := BitVec.ofNat 6 m } hn (min m (s.n - s.fillI.toNat))
    (by simp only [hmN]; omega) (by show s.fillI.toNat + _ ≤ s.n; omega)
  refine ⟨v, m, t, he, hm1, hm2, ?_, ?_, hts⟩
  · intro k
    rw [show min m (s.n - s.fillI.toNat) + k = (min m (s.n - s.fillI.toNat) + k - 1) + 1 by omega,
      fillLoop_readCode _ h0 hi hr hm0 hi,
      show (min m (s.n - s.fillI.toNat) + k - 1) + 1 = min m (s.n - s.fillI.toNat) + k by omega]
    exact ht k
  · simp only [hmN] at hte
    exact hte

/-! ### The whole fill -/

/-- A code that neither ends the decode nor fills the scanline emits, or is a RUN0 under NOP. -/
theorem plainCode_cases {p : Config.ZeroRunPolicy} {i : Instr} (h : plainCode p i = true) :
    emitsAlways i = true ∨ ∃ v, i = .run0 v ∧ p = .nop := by
  cases i <;> simp_all [plainCode, emitsAlways]

/-- The loop on codes that leave room (R132): after a number of passes that the bytes left bound, it goes on past them
with what they emit in the scratch buffer from FILL_I on, and no run left. -/
theorem fillLoop_plain : ∀ (pre : List Instr) (s : State),
    (∀ i ∈ pre, plainCode s.params.zeroRunPolicy i = true) → s.streamHolds (codeBytes pre) → s.runCnt = 0 →
    s.n ≤ s.params.scratchCap → s.fillI.toNat + (emittedAll pre).length < s.n →
    ∃ m t, m ≤ (emittedAll pre).length + (codeBytes pre).length ∧ (∀ k, fillLoop (m + k) s = fillLoop k t) ∧
      t = { s with streamPos := BitVec.ofNat 32 (s.streamPos.toNat + (codeBytes pre).length), runCnt := 0,
                   runVal := t.runVal, fillI := BitVec.ofNat 32 (s.fillI.toNat + (emittedAll pre).length),
                   scratch := t.scratch } ∧
      ∀ i, t.scratchByte i = if s.fillI.toNat ≤ i ∧ i < s.fillI.toNat + (emittedAll pre).length then
        (emittedAll pre).getD (i - s.fillI.toNat) 0 else s.scratchByte i := by
  intro pre
  induction pre with
  | nil =>
    intro s _ _ h0 _ _
    refine ⟨0, s, by simp, fun k => by rw [Nat.zero_add], ?_, fun i => ?_⟩
    · simp [← h0]
    · rw [if_neg (by simp)]
  | cons d pre ih =>
    intro s hp hh h0 hcap hlt
    have hd := hp d (by simp)
    have hp' : ∀ i ∈ pre, plainCode s.params.zeroRunPolicy i = true := fun i hi => hp i (by simp [hi])
    rw [codeBytes_cons] at hh
    obtain ⟨hh1, hh2⟩ := State.streamHolds_append hh
    simp only [emittedAll_cons, codeBytes_cons, List.length_append] at hlt ⊢
    have hnlt : s.n < 2 ^ 32 := s.nbytes.isLt
    have hpos := State.withPos_toNat hh1.1.1
    by_cases hde : emitsAlways d = true
    · obtain ⟨v, m, t, he, hm1, hm2, ht, hte, hts⟩ := codeRun s d hde hh1 h0 (by omega) hcap
      rw [he, List.length_replicate] at hlt
      have hmin : min m (s.n - s.fillI.toNat) = m := by omega
      rw [hmin] at ht hts
      rw [hmin, Nat.sub_self] at hte
      have hfiN : t.fillI.toNat = s.fillI.toNat + m := by
        rw [hte]; simp only [BitVec.toNat_ofNat]; exact Nat.mod_eq_of_lt (by omega)
      have htn : t.n = s.n := by rw [hte]; rfl
      have htp : t.params = s.params := by rw [hte]
      have hpos2 : t.streamPos.toNat = s.streamPos.toNat + (encode d).bytes.length := by rw [hte]; exact hpos
      obtain ⟨m2, u, hm3, hu, hue, hus⟩ := ih t (by rw [htp]; exact hp')
        ((State.streamHolds_congr _ (by rw [hte]; rfl) (by rw [hte]; rfl) (by rw [hte]; rfl) (by rw [hte]; rfl)).2 hh2)
        (by rw [hte]; rfl) (by rw [htn, htp]; exact hcap) (by rw [hfiN, htn]; omega)
      refine ⟨m + m2, u, by rw [he, List.length_replicate]; omega, fun k => by rw [Nat.add_assoc, ht, hu], ?_, fun i => ?_⟩
      · rw [hfiN, hpos2, Nat.add_assoc, Nat.add_assoc] at hue
        rw [he, List.length_replicate, hue, hte]
      · rw [hus i, hfiN, hts i, he, List.length_replicate]
        by_cases h1 : s.fillI.toNat + m ≤ i ∧ i < s.fillI.toNat + m + (emittedAll pre).length
        · rw [if_pos h1, if_pos ⟨by omega, by omega⟩, List.getD_append_right _ _ _ _ (by simp; omega)]
          simp only [List.length_replicate]
          rw [show i - (s.fillI.toNat + m) = i - s.fillI.toNat - m by omega]
        · rw [if_neg h1]
          by_cases h2 : s.fillI.toNat ≤ i ∧ i < s.fillI.toNat + m
          · rw [if_pos h2, if_pos ⟨h2.1, by omega⟩, List.getD_append _ _ _ _ (by simp; omega),
              List.getD_eq_getElem?_getD, List.getElem?_replicate, if_pos (by omega)]
            rfl
          · rw [if_neg h2, if_neg (by omega)]
    · obtain ⟨v, rfl, hnop⟩ := (plainCode_cases hd).resolve_left hde
      have hr : readCode s = .ok () (s.withPos (s.streamPos.toNat + 2)) := by
        simp only [readCode, nextCode_run0 hh1, runCode]
        rw [run0_ok v hh1.1]
        simp [run0Policy, hnop]
      have hlen : (encode (.run0 v)).bytes.length = 2 := rfl
      have hem : emitted (.run0 v) = [] := rfl
      rw [hlen] at hpos hh2 ⊢
      rw [hem, List.length_nil, Nat.zero_add] at hlt
      simp only [hem, List.nil_append, List.length_nil, Nat.zero_add]
      obtain ⟨m2, u, hm3, hu, hue, hus⟩ := ih (s.withPos (s.streamPos.toNat + 2)) hp' hh2 h0 hcap hlt
      refine ⟨m2 + 1, u, by omega, fun k => ?_, ?_, hus⟩
      · rw [show m2 + 1 + k = m2 + k + 1 by omega, fillLoop_succ _ s (by omega)]
        simp only [fillPass, h0, if_true, hr, Flow.bind_ok, emit, State.withPos_runCnt]
        exact hu k
      · rw [hpos, Nat.add_assoc] at hue
        exact hue

/-- The same for a scanline request (R136): past the codes `pre`, with passes left for what follows. -/
theorem fillRle_plain {s : State} {pre : List Instr} {rest : List Byte}
    (hp : ∀ i ∈ pre, plainCode s.params.zeroRunPolicy i = true) (hh : s.streamHolds (codeBytes pre ++ rest))
    (hcap : s.n ≤ s.params.scratchCap) (hlt : (emittedAll pre).length < s.n) :
    ∃ k t, s.n - (emittedAll pre).length + (s.streamLen.toNat - t.streamPos.toNat) ≤ k ∧ fillRle s = fillLoop k t ∧
      FillFrame s t ∧ t.runCnt = 0 ∧ t.streamPos.toNat = s.streamPos.toNat + (codeBytes pre).length ∧ t.streamHolds rest ∧
      t.fillI.toNat = (emittedAll pre).length ∧
      ∀ i, t.scratchByte i = if i < (emittedAll pre).length then (emittedAll pre).getD i 0 else s.scratchByte i := by
  obtain ⟨h1, h2⟩ := State.streamHolds_append hh
  have hnlt : s.n < 2 ^ 32 := s.nbytes.isLt
  have hlen := h1.1.1
  obtain ⟨m, t, hm, ht, hte, hts⟩ := fillLoop_plain pre s.startRequest hp h1 rfl hcap
    (by show 0 + _ < s.n; omega)
  have hpos : t.streamPos.toNat = s.streamPos.toNat + (codeBytes pre).length := by
    rw [hte]; exact State.withPos_toNat hlen
  have hz : s.startRequest.fillI.toNat = 0 := rfl
  simp only [hz, Nat.zero_add, Nat.zero_le, true_and, Nat.sub_zero] at hte hts
  refine ⟨s.passBound - m, t, ?_, ?_, ?_, by rw [hte], hpos, ?_, ?_, hts⟩
  · rw [hpos]; unfold State.passBound; omega
  · rw [fillRle, ← ht, show m + (s.passBound - m) = s.passBound by unfold State.passBound; omega]
  · unfold FillFrame; rw [hte]; rfl
  · exact (State.streamHolds_congr _ (by rw [hte]; rfl) (by rw [hte]; rfl) (by rw [hte]; rfl) (by rw [hte]; rfl)).2 h2
  · rw [hte]
    simp only [BitVec.toNat_ofNat]
    exact Nat.mod_eq_of_lt (by omega)

/-- FILL_RLE on the codes `pre` and then `c` (R132, R136). -/
theorem fillRle_ok (s : State) (pre : List Instr) (c : Instr) (hf : fillsWith s.params.zeroRunPolicy s.n pre c)
    (hh : s.streamHolds (codeBytes (pre ++ [c]))) (hcap : s.n ≤ s.params.scratchCap) :
    ∃ t, fillRle s = .ok () t ∧
      t = { s with streamPos := BitVec.ofNat 32 (s.streamPos.toNat + (codeBytes (pre ++ [c])).length),
                   scratch := t.scratch, runCnt := t.runCnt, runVal := t.runVal, fillI := s.nbytes } ∧
      ∀ i, t.scratchByte i = if i < s.n then (emittedAll (pre ++ [c])).getD i 0 else s.scratchByte i := by
  obtain ⟨h1, h2, h3, h4⟩ := hf
  rw [codeBytes_append, codeBytes_cons, codeBytes_nil, List.append_nil] at hh
  obtain ⟨k, t, hk, ht, hff, h0, hpos, hth, hfi, hts⟩ := fillRle_plain h1 hh hcap h3
  have htn := hff.n
  have htp := hff.params
  obtain ⟨v, m, u, he, hm1, hm2, hu, hue, hus⟩ := codeRun t c h2 hth h0 (by omega)
    (by rw [htn, htp]; exact hcap)
  rw [he, List.length_replicate] at h4
  have hmin : min m (t.n - t.fillI.toNat) = s.n - (emittedAll pre).length := by omega
  have hsum : (emittedAll pre).length + (s.n - (emittedAll pre).length) = s.n := by omega
  rw [hmin] at hu hue hus
  rw [hfi, hsum] at hue hus
  have hufi : u.fillI = s.nbytes := by rw [hue]; simp [State.n]
  refine ⟨u, ?_, ?_, fun i => ?_⟩
  · rw [ht, show k = s.n - (emittedAll pre).length + (k - (s.n - (emittedAll pre).length)) by omega, hu]
    exact fillLoop_done _ u (by rw [hufi, hue]; exact Nat.le_of_eq htn)
  · have hup : u.streamPos = BitVec.ofNat 32 (t.streamPos.toNat + (encode c).bytes.length) := by rw [hue]
    have huf : FillFrame s u := hff.trans (by unfold FillFrame; rw [hue])
    unfold FillFrame at huf
    rw [hup, hufi, hpos, Nat.add_assoc] at huf
    rw [codeBytes_append, codeBytes_cons, codeBytes_nil, List.append_nil, List.length_append]
    exact huf
  · rw [hus i, hts i, emittedAll_append, emittedAll_cons, emittedAll_nil, List.append_nil, he]
    by_cases h5 : (emittedAll pre).length ≤ i ∧ i < s.n
    · rw [if_pos h5, if_pos h5.2, List.getD_append_right _ _ _ _ h5.1, List.getD_eq_getElem?_getD,
        List.getElem?_replicate, if_pos (by omega)]
      rfl
    · rw [if_neg h5]
      by_cases h6 : i < (emittedAll pre).length
      · rw [if_pos h6, if_pos (by omega), List.getD_append _ _ _ _ h6]
      · rw [if_neg h6, if_neg (by omega)]

/-- The next pass of a fill with no run in progress fails where its code fails. -/
theorem fillLoop_fail {k : Nat} {s t : State} {e : ErrKind} (h0 : s.runCnt = 0) (hi : s.fillI.toNat < s.n)
    (hk : 1 ≤ k) (h : readCode s = .fail e t) : fillLoop k s = .fail e t := by
  rw [show k = k - 1 + 1 by omega, fillLoop_succ _ s hi]
  simp only [fillPass, h0, if_true, h]
  rfl

/-- FILL_RLE fails with `e` at stream position `p`, having changed only what a fill may. -/
def FailsAt (s : State) (e : ErrKind) (p : Nat) : Prop :=
  ∃ t, fillRle s = .fail e t ∧ FillFrame s t ∧ t.streamPos.toNat = p

/-- FILL_RLE on codes that leave room and then the end of the stream: nothing after them, or a control byte whose value
byte is missing (R132, R138). -/
theorem fillRle_truncated {s : State} {pre : List Instr} {rest : List Byte}
    (hp : ∀ i ∈ pre, plainCode s.params.zeroRunPolicy i = true) (hlt : (emittedAll pre).length < s.n)
    (hh : s.streamHolds (codeBytes pre ++ rest)) (hcap : s.n ≤ s.params.scratchCap)
    (hend : s.streamPos.toNat + (codeBytes pre ++ rest).length = s.streamLen.toNat)
    (hrest : rest = [] ∨ ∃ c, rest = [c] ∧ 0xC0 ≤ c.toNat) : FailsAt s .truncated s.streamLen.toNat := by
  obtain ⟨k, t, hk, ht, hff, h0, hpos, hth, hfi, -⟩ := fillRle_plain hp hh hcap hlt
  have htn := hff.n
  have htl := hff.streamLen
  rw [List.length_append] at hend
  rcases hrest with rfl | ⟨c, rfl, hc⟩
  · have hr : readCode t = .fail .truncated t := by
      have : t.streamLen.toNat ≤ t.streamPos.toNat := by rw [htl, hpos]; simp at hend; omega
      simp only [readCode, nextCode, if_pos this]
    exact ⟨t, by rw [ht, fillLoop_fail h0 (by omega) (by omega) hr], hff, by rw [hpos]; simpa using hend⟩
  · have he : t.streamPos.toNat + 1 = t.streamLen.toNat := by rw [htl, hpos]; simpa [Nat.add_assoc] using hend
    have hr : readCode t = .fail .truncated (t.withPos (t.streamPos.toNat + 1)) := by
      rcases readCode_cases t with ⟨h, _⟩ | ⟨_, _, e⟩ | ⟨h, _⟩ | ⟨_, v, e⟩ | ⟨h, _⟩ | ⟨h, _⟩
      · omega
      · exact e
      · have := hth.1.2
        simp only [List.length_singleton] at this
        omega
      · exfalso
        have hn : nextCode t = some (codeOf c (Memory.read t.stream (t.streamPos.toNat + 1))) := by
          rw [nextCode, if_neg (by omega), State.streamHolds_one hth]
        rw [readCode, hn] at e
        rcases codeOf_cases c (Memory.read t.stream (t.streamPos.toNat + 1)) with ⟨h, _⟩ | ⟨_, e1⟩ | ⟨_, _, e1⟩
        · have : ¬0xC0 ≤ c.toNat := by
            have key : ∀ c : Byte, litValueOk c = true → ¬0xC0 ≤ c.toNat := by decide
            exact key c h
          exact this hc
        · rw [e1] at e
          have e : run0 _ t = _ := e
          rw [run0, readTwo_truncated hth.1 he] at e
          cases e
        · rw [e1] at e
          have e : run _ _ t = _ := e
          rw [run, readTwo_truncated hth.1 he] at e
          cases e
      · have := h.1; omega
      · have := h.1; omega
    refine ⟨_, by rw [ht, fillLoop_fail h0 (by omega) (by omega) hr], hff.trans (FillFrame.withPos _ _), ?_⟩
    rw [State.withPos_toNat (by omega), he, htl]

/-- FILL_RLE on codes that leave room and then a RUN0, under CORRUPT (R135). -/
theorem fillRle_corrupt {s : State} {pre : List Instr} {v : Byte} (hpol : s.params.zeroRunPolicy = .corrupt)
    (hp : ∀ i ∈ pre, plainCode s.params.zeroRunPolicy i = true) (hlt : (emittedAll pre).length < s.n)
    (hh : s.streamHolds (codeBytes (pre ++ [.run0 v]))) (hcap : s.n ≤ s.params.scratchCap) :
    FailsAt s .corrupt (s.streamPos.toNat + (codeBytes (pre ++ [.run0 v])).length) := by
  rw [codeBytes_append, codeBytes_cons, codeBytes_nil, List.append_nil] at hh ⊢
  obtain ⟨k, t, hk, ht, hff, h0, hpos, hth, hfi, -⟩ := fillRle_plain hp hh hcap hlt
  have htn := hff.n
  have htp := hff.params
  have hr : readCode t = .fail .corrupt (t.withPos (t.streamPos.toNat + 2)) := by
    simp only [readCode, nextCode_run0 hth, runCode]
    rw [run0_ok v hth.1]
    simp [run0Policy, htp, hpol]
  refine ⟨_, by rw [ht, fillLoop_fail h0 (by omega) (by omega) hr], hff.trans (FillFrame.withPos _ _), ?_⟩
  show (t.withPos (t.streamPos.toNat + (encode (.run0 v)).bytes.length)).streamPos.toNat = _
  rw [State.withPos_toNat hth.1.1, hpos, List.length_append, Nat.add_assoc]

/-- FILL_RLE on codes that leave room and then a RUN0, under FILL_REST (R135). -/
theorem fillRle_rest {s : State} {pre : List Instr} {v : Byte} (hpol : s.params.zeroRunPolicy = .fillRest)
    (hp : ∀ i ∈ pre, plainCode s.params.zeroRunPolicy i = true) (hlt : (emittedAll pre).length < s.n)
    (hh : s.streamHolds (codeBytes (pre ++ [.run0 v]))) (hcap : s.n ≤ s.params.scratchCap) :
    ∃ t, fillRle s = .ok () t ∧ FillFrame s t ∧
      t.streamPos = BitVec.ofNat 32 (s.streamPos.toNat + (codeBytes (pre ++ [.run0 v])).length) ∧
      ∀ i, i < s.n → t.scratchByte i =
        (emittedAll pre ++ List.replicate (s.n - (emittedAll pre).length) v).getD i 0 := by
  rw [codeBytes_append, codeBytes_cons, codeBytes_nil, List.append_nil] at hh ⊢
  obtain ⟨k, t, hk, ht, hff, h0, hpos, hth, hfi, hts⟩ := fillRle_plain hp hh hcap hlt
  have htn := hff.n
  have htp := hff.params
  obtain ⟨u, hu, hue, hus⟩ := fillRest_ok v (t.withPos (t.streamPos.toNat + 2)) (by rw [← hpol, ← htp]; rfl)
    (show t.fillI.toNat ≤ t.n by omega) (show t.n ≤ t.params.scratchCap by rw [htn, htp]; exact hcap)
  have hr : readCode t = .ok () u := by
    simp only [readCode, nextCode_run0 hth, runCode]
    rw [run0_ok v hth.1, hu]
  have hu0 : u.runCnt = 0 := by rw [hue]; exact h0
  have hfu : FillFrame s u := hff.trans (by unfold FillFrame; rw [hue]; rfl)
  refine ⟨u, ?_, hfu, ?_, fun i hi => ?_⟩
  · rw [ht, show k = k - 1 + 1 by omega, fillLoop_succ _ t (by omega)]
    simp only [fillPass, h0, if_true, hr, Flow.bind_ok, emit_none hu0]
    exact fillLoop_done _ u (by rw [hue]; exact Nat.le_refl _)
  · rw [hue, List.length_append, ← Nat.add_assoc, ← hpos]; rfl
  · rw [hus i]
    show (if t.fillI.toNat ≤ i ∧ i < t.n then v else t.scratchByte i) = _
    rw [hfi, htn, hts]
    by_cases h : i < (emittedAll pre).length
    · rw [if_neg (by omega), if_pos h, List.getD_append _ _ _ _ h]
    · rw [if_pos ⟨by omega, hi⟩, List.getD_append_right _ _ _ _ (by omega), List.getD_eq_getElem?_getD,
        List.getElem?_replicate, if_pos (by omega)]
      rfl

/-- FILL_RAW where N bytes are left (R131). -/
theorem fillRaw_ok (s : State) (hr : s.readable s.n) (hcap : s.n ≤ s.params.scratchCap) :
    ∃ t, fillRaw s = .ok () t ∧
      t = { s with streamPos := BitVec.ofNat 32 (s.streamPos.toNat + s.n), scratch := t.scratch } ∧
      ∀ i, t.scratchByte i = if i < s.n then Memory.read s.stream (s.streamPos.toNat + i) else s.scratchByte i := by
  let bytes := Memory.readBytes s.stream s.streamPos.toNat s.n
  obtain ⟨t, ht, hte, hts⟩ := forN_ok (P := fun k t =>
      t = { s with streamPos := BitVec.ofNat 32 (s.streamPos.toNat + s.n), scratch := t.scratch } ∧
      ∀ i, t.scratchByte i = if i < k then Memory.read s.stream (s.streamPos.toNat + i) else s.scratchByte i)
    (f := fun i s => scratchWrite i (bytes.getD i 0) s) s.n (s.withPos (s.streamPos.toNat + s.n))
    ⟨rfl, fun i => by simp; rfl⟩ (by
      rintro i t hi ⟨h1, h2⟩
      refine ⟨_, scratchWrite_ok (by rw [show t.params = s.params by rw [h1]]; omega), ?_, fun j => ?_⟩
      · show _ = _
        rw [h1]
      · rw [scratchByte_put, h2, Memory.getD_readBytes _ _ _ _ _ hi]
        by_cases hj : j = i
        · subst hj; rw [if_pos rfl, if_pos (by omega)]
        · rw [if_neg hj]
          by_cases hj2 : j < i
          · rw [if_pos hj2, if_pos (by omega)]
          · rw [if_neg hj2, if_neg (by omega)])
  refine ⟨t, ?_, hte, hts⟩
  rw [fillRaw, streamReadN_bytes hr]
  exact ht

/-! ### What every fill keeps -/

/-- The frame of a fill, with what it keeps of the scratch buffer: bytes from N on, and the form of its list. -/
structure FillKeeps (s t : State) : Prop where
  frame : FillFrame s t
  above : ∀ i, s.n ≤ i → t.scratchByte i = s.scratchByte i
  sorted : Memory.sorted s.scratch = true → Memory.sorted t.scratch = true
  wf : Memory.sorted s.scratch = true → (s.scratchZeroed = true → Memory.wf s.scratch = true) →
    s.scratchZeroed = true → Memory.wf t.scratch = true

theorem FillKeeps.refl (s : State) : FillKeeps s s := ⟨FillFrame.refl s, fun _ _ => rfl, id, fun _ h => h⟩

theorem FillKeeps.trans {s t u : State} (h1 : FillKeeps s t) (h2 : FillKeeps t u) : FillKeeps s u where
  frame := h1.frame.trans h2.frame
  above i hi := (h2.above i (by rw [h1.frame.n]; exact hi)).trans (h1.above i hi)
  sorted h := h2.sorted (h1.sorted h)
  wf hs hw hz := h2.wf (h1.sorted hs) (fun _ => h1.wf hs hw hz) (by rw [h1.frame.scratchZeroed]; exact hz)

/-- A change of STREAM_POS and the run registers only. -/
theorem FillKeeps.of_scratch {s t : State} (h : FillFrame s t) (hs : t.scratch = s.scratch) : FillKeeps s t where
  frame := h
  above i _ := h.scratchByte hs i
  sorted h := hs ▸ h
  wf _ hw hz := hs ▸ hw hz

/-- A store below N. -/
theorem FillKeeps.store (s : State) (i : Nat) (v : Byte) (h : i < s.n) :
    FillKeeps s { s with scratch := scratchPut s i v } where
  frame := rfl
  above j hj := by rw [scratchByte_put, if_neg (by omega)]
  sorted hs := by
    show Memory.sorted (scratchPut s i v) = true
    unfold scratchPut; split
    · exact Memory.sorted_write _ _ _ hs
    · exact Memory.sorted_put _ _ _ hs
  wf hs hw hz := (scratchPut_wf s i v hs hw).2 hz

/-- A store below N, wherever it stops. -/
theorem scratchWrite_keeps {s t : State} (i : Nat) (v : Byte) (h : i < t.n) (hk : FillKeeps s t) :
    (scratchWrite i v t).Ends (FillKeeps s) := by
  unfold scratchWrite
  split
  · exact hk.trans (FillKeeps.store t i v h)
  · trivial

theorem readByteOrFail_keeps {s t : State} (hk : FillKeeps s t) : (readByteOrFail t).Ends (FillKeeps s) := by
  rcases readByteOrFail_cases t with ⟨_, e⟩ | ⟨_, _, e⟩ | ⟨_, e⟩ <;> rw [e]
  · exact hk
  · trivial
  · exact hk.trans (FillKeeps.of_scratch (FillFrame.withPos _ _) rfl)

theorem lit_keeps (v : Byte) (s : State) : (lit v s).Ends (FillKeeps s) :=
  (readByteOrFail_keeps (FillKeeps.refl s)).bind
    (fun _ _ h => h.trans (FillKeeps.of_scratch rfl rfl)) fun _ h => h

theorem run_keeps (n : BitVec 6) (v : Byte) (s : State) : (run n v s).Ends (FillKeeps s) :=
  (readByteOrFail_keeps (FillKeeps.refl s)).bind (fun _ _ h =>
    (readByteOrFail_keeps h).bind (fun _ _ h => h.trans (FillKeeps.of_scratch rfl rfl)) fun _ h => h) fun _ h => h

theorem run0Policy_keeps {s t : State} (v : Byte) (hk : FillKeeps s t) : (run0Policy v t).Ends (FillKeeps s) := by
  unfold run0Policy
  split
  · exact hk
  · exact hk
  · refine Flow.Ends.bind (P := FillKeeps s) (forFrom_ends _ _ t hk fun i u h1 h2 hu => ?_) (fun _ u hu =>
      hu.trans (FillKeeps.of_scratch rfl rfl)) fun _ h => h
    exact scratchWrite_keeps i v (by rw [hu.frame.n]; rw [hk.frame.n] at h2; omega) hu

theorem run0_keeps (v : Byte) (s : State) : (run0 v s).Ends (FillKeeps s) :=
  (readByteOrFail_keeps (FillKeeps.refl s)).bind (fun _ _ h =>
    (readByteOrFail_keeps h).bind (fun _ _ h => run0Policy_keeps v h) fun _ h => h) fun _ h => h

/-- Reading a code: STREAM_POS, the run registers and, under FILL_REST, scratch bytes below N. -/
theorem readCode_keeps (s : State) : (readCode s).Ends (FillKeeps s) := by
  rcases readCode_cases s with ⟨_, e⟩ | ⟨_, _, e⟩ | ⟨_, e⟩ | ⟨_, v, e⟩ | ⟨_, n, v, _, e⟩ | ⟨_, v, e⟩ <;> rw [e]
  · exact FillKeeps.refl s
  · exact FillKeeps.of_scratch rfl rfl
  · trivial
  · exact FillKeeps.of_scratch rfl rfl
  · exact FillKeeps.of_scratch rfl rfl
  · exact run0Policy_keeps v (FillKeeps.of_scratch rfl rfl)

/-- RUN0 leaves no run. -/
theorem run0Policy_runCnt {v : Byte} {s t : State} (h : run0Policy v s = .ok () t) : t.runCnt = s.runCnt := by
  have key : (run0Policy v s).Ends fun t => t.runCnt = s.runCnt := by
    unfold run0Policy
    split
    · rfl
    · rfl
    · refine Flow.Ends.bind (P := fun t => t.runCnt = s.runCnt) (forFrom_ends _ _ s rfl fun i u _ _ hu => ?_)
        (fun _ u hu => hu) fun _ h => h
      unfold scratchWrite
      split
      · exact hu
      · trivial
  rw [h] at key
  exact key

/-- Where reading a code leaves a run, FILL_I has not moved. -/
theorem readCode_room {s t : State} (h0 : s.runCnt = 0) (h : readCode s = .ok () t) (ht : t.runCnt ≠ 0) :
    t.fillI = s.fillI := by
  rcases readCode_cases s with ⟨_, e⟩ | ⟨_, _, e⟩ | ⟨_, e⟩ | ⟨_, v, e⟩ | ⟨_, n, v, _, e⟩ | ⟨_, v, e⟩ <;> rw [e] at h
  · cases h
  · cases h
  · cases h
  · cases h; rfl
  · cases h; rfl
  · exact absurd (run0Policy_runCnt h) (by rw [show (s.withPos (s.streamPos.toNat + 2)).runCnt = s.runCnt from rfl, h0]; exact ht)

/-- An emission below N. -/
theorem emit_keeps {s t : State} (hk : FillKeeps s t) (h : t.runCnt ≠ 0 → t.fillI.toNat < t.n) :
    (emit t).Ends (FillKeeps s) := by
  unfold emit
  split
  · exact hk
  · next h0 =>
    exact (scratchWrite_keeps _ _ (h h0) hk).bind (fun _ _ h => h.trans (FillKeeps.of_scratch rfl rfl)) fun _ h => h

theorem fillPass_keeps {s t : State} (hk : FillKeeps s t) (h : t.fillI.toNat < t.n) :
    (fillPass t).Ends (FillKeeps s) := by
  unfold fillPass
  split
  · next h0 =>
    have hr := readCode_keeps t
    cases hc : readCode t with
    | ok a u =>
      rw [hc] at hr
      have hr : FillKeeps t u := hr
      refine emit_keeps (hk.trans hr) fun hu => ?_
      rw [readCode_room h0 hc hu, hr.frame.n]; exact h
    | fail k u => rw [hc] at hr; exact hk.trans hr
    | fault _ => trivial
    | refuse _ => trivial
  · exact emit_keeps hk fun _ => h

theorem fillLoop_keeps {s : State} : ∀ (k : Nat) (t : State), FillKeeps s t → (fillLoop k t).Ends (FillKeeps s)
  | 0, _, hk => hk
  | k + 1, t, hk => by
    unfold fillLoop
    split
    · next h => exact (fillPass_keeps hk h).bind (fun _ u hu => fillLoop_keeps k u hu) fun _ h => h
    · exact hk

theorem fillRle_keeps (s : State) : (fillRle s).Ends (FillKeeps s) :=
  fillLoop_keeps _ _ (FillKeeps.of_scratch (FillFrame.startRequest s) rfl)

theorem fillRaw_keeps (s : State) : (fillRaw s).Ends (FillKeeps s) := by
  unfold fillRaw
  rcases streamReadN_cases s.n s with ⟨_, e⟩ | ⟨_, _, e⟩ | ⟨_, _, e⟩ <;> rw [e]
  · exact FillKeeps.refl s
  · trivial
  · refine forN_ends (P := FillKeeps s) _ _ (FillKeeps.of_scratch (FillFrame.withPos _ _) rfl) fun i t hi ht => ?_
    exact scratchWrite_keeps i _ (by rw [ht.frame.n]; exact hi) ht

/-- R130: whatever a scanline request does, it changes only STREAM_POS, the run registers and scratch bytes below N. -/
theorem fill_keeps (s : State) : (fill s).Ends (FillKeeps s) := by
  unfold fill
  split
  · exact fillRaw_keeps s
  · split
    · exact fillRle_keeps s
    · trivial

/-! ### Every fill ends (R137) -/

/-- R137's measure: the scratch bytes and the stream bytes that are left. -/
def State.fillLeft (s : State) : Nat := (s.n - s.fillI.toNat) + (s.streamLen.toNat - s.streamPos.toNat)

/-- The stream position has only moved forward, inside the stream. -/
def PosForward (s t : State) : Prop :=
  s.streamPos.toNat ≤ t.streamPos.toNat ∧ t.streamPos.toNat ≤ s.streamLen.toNat

/-- What the policy of a RUN0 does where there is room. -/
theorem run0Policy_cases (v : Byte) (s : State) (hi : s.fillI.toNat ≤ s.n) (hcap : s.n ≤ s.params.scratchCap) :
    (s.params.zeroRunPolicy = .nop ∧ run0Policy v s = .ok () s) ∨
    (s.params.zeroRunPolicy = .corrupt ∧ run0Policy v s = .fail .corrupt s) ∨
    (s.params.zeroRunPolicy = .fillRest ∧ ∃ t, run0Policy v s = .ok () t ∧
      t = { s with fillI := s.nbytes, scratch := t.scratch }) := by
  cases hp : s.params.zeroRunPolicy with
  | nop => exact .inl ⟨rfl, by simp [run0Policy, hp]⟩
  | corrupt => exact .inr (.inl ⟨rfl, by simp [run0Policy, hp]⟩)
  | fillRest =>
    obtain ⟨t, ht, hte, -⟩ := fillRest_ok v s hp hi hcap
    exact .inr (.inr ⟨rfl, t, ht, hte⟩)

/-- An emission where there is room. -/
theorem emit_ok (s : State) (h0 : s.runCnt ≠ 0) (hi : s.fillI.toNat < s.n) (hcap : s.n ≤ s.params.scratchCap) :
    ∃ t, emit s = .ok () t ∧ t.fillI.toNat = s.fillI.toNat + 1 ∧ t.streamPos = s.streamPos := by
  have hn : s.n < 2 ^ 32 := s.nbytes.isLt
  simp only [emit]
  rw [if_neg h0, scratchWrite_ok (by omega), Flow.bind_ok]
  refine ⟨_, rfl, ?_, rfl⟩
  simp only [BitVec.toNat_ofNat]
  exact Nat.mod_eq_of_lt (by omega)

/-- One pass makes progress, or ends the request at the end of the stream, or, under CORRUPT, at a RUN0. -/
theorem fillPass_progress (s : State) (hi : s.fillI.toNat < s.n) (hcap : s.n ≤ s.params.scratchCap)
    (hg : s.streamGuarantee) (hpos : s.streamPos.toNat ≤ s.streamLen.toNat) :
    (∃ t, fillPass s = .fail .truncated t ∧ t.streamPos.toNat = s.streamLen.toNat) ∨
    (s.params.zeroRunPolicy = .corrupt ∧ ∃ t, fillPass s = .fail .corrupt t) ∨
    (∃ t, fillPass s = .ok () t ∧ t.fillLeft < s.fillLeft ∧ t.fillI.toNat ≤ s.n ∧ PosForward s t) := by
  unfold State.streamGuarantee at hg
  have hk := fillPass_keeps (FillKeeps.refl s) hi
  unfold fillPass at hk ⊢
  by_cases h0 : s.runCnt = 0
  · rw [if_pos h0] at hk ⊢
    rcases readCode_cases s with ⟨hl, e⟩ | ⟨hr, hl, e⟩ | ⟨hl, e⟩ | ⟨hr, v, e⟩ | ⟨hr, n, v, hn, e⟩ | ⟨hr, v, e⟩ <;>
      rw [e] at hk ⊢
    · exact .inl ⟨s, rfl, by omega⟩
    · exact .inl ⟨_, rfl, by rw [State.withPos_toNat (by omega)]; exact hl⟩
    · omega
    · have hp := State.withPos_toNat hr.1
      obtain ⟨t, ht, h1, h2⟩ := emit_ok { s.withPos (s.streamPos.toNat + 1) with runVal := v, runCnt := 1 }
        (show (1 : BitVec 6) ≠ 0 by decide) hi hcap
      rw [Flow.bind_ok, ht] at hk ⊢
      have hk : FillKeeps s t := hk
      have h2 : t.streamPos.toNat = s.streamPos.toNat + 1 := by rw [h2]; exact hp
      have h1 : t.fillI.toNat = s.fillI.toNat + 1 := h1
      have := hr.1
      refine .inr (.inr ⟨t, rfl, ?_, by omega, by omega, by omega⟩)
      unfold State.fillLeft
      rw [hk.frame.n, hk.frame.streamLen, h1, h2]
      omega
    · have hp := State.withPos_toNat hr.1
      obtain ⟨t, ht, h1, h2⟩ := emit_ok { s.withPos (s.streamPos.toNat + 2) with runVal := v, runCnt := n }
        hn hi hcap
      rw [Flow.bind_ok, ht] at hk ⊢
      have hk : FillKeeps s t := hk
      have h2 : t.streamPos.toNat = s.streamPos.toNat + 2 := by rw [h2]; exact hp
      have h1 : t.fillI.toNat = s.fillI.toNat + 1 := h1
      have := hr.1
      refine .inr (.inr ⟨t, rfl, ?_, by omega, by omega, by omega⟩)
      unfold State.fillLeft
      rw [hk.frame.n, hk.frame.streamLen, h1, h2]
      omega
    · have hp := State.withPos_toNat hr.1
      have := hr.1
      rcases run0Policy_cases v (s.withPos (s.streamPos.toNat + 2)) (Nat.le_of_lt hi) hcap with ⟨_, e1⟩ | ⟨hc, e1⟩ |
        ⟨_, t, e1, hte⟩ <;> rw [e1]
      · refine .inr (.inr ⟨s.withPos (s.streamPos.toNat + 2), by rw [Flow.bind_ok]; exact emit_none h0, ?_,
          Nat.le_of_lt hi, by omega, by omega⟩)
        unfold State.fillLeft
        rw [hp, State.withPos_streamLen]
        show s.n - s.fillI.toNat + _ < _
        omega
      · exact .inr (.inl ⟨hc, _, rfl⟩)
      · have h3 : t.runCnt = 0 := by rw [hte]; exact h0
        have h4 : t.fillI.toNat = s.n := by rw [hte]; rfl
        have h5 : t.streamPos.toNat = s.streamPos.toNat + 2 := by rw [hte]; exact hp
        have h6 : t.n = s.n := by rw [hte]; rfl
        have h7 : t.streamLen = s.streamLen := by rw [hte]; rfl
        refine .inr (.inr ⟨t, by rw [Flow.bind_ok]; exact emit_none h3, ?_, by omega, by omega, by omega⟩)
        unfold State.fillLeft
        rw [h4, h5, h6, h7]
        omega
  · rw [if_neg h0] at hk ⊢
    obtain ⟨t, ht, h1, h2⟩ := emit_ok s h0 hi hcap
    rw [Flow.bind_ok] at hk ⊢
    rw [ht] at hk ⊢
    have hk : FillKeeps s t := hk
    refine .inr (.inr ⟨t, rfl, ?_, by omega, by rw [h2], by rw [h2]; exact hpos⟩)
    unfold State.fillLeft
    rw [hk.frame.n, hk.frame.streamLen, h1, h2]
    omega

/-- With enough passes the loop fills all N bytes, or fails at the end of the stream, or, under CORRUPT, at a RUN0. -/
theorem fillLoop_ends : ∀ (k : Nat) (s : State), s.fillI.toNat ≤ s.n → s.n ≤ s.params.scratchCap →
    s.streamGuarantee → s.streamPos.toNat ≤ s.streamLen.toNat → s.fillLeft ≤ k →
    (∃ t, fillLoop k s = .fail .truncated t ∧ t.streamPos.toNat = s.streamLen.toNat) ∨
    (s.params.zeroRunPolicy = .corrupt ∧ ∃ t, fillLoop k s = .fail .corrupt t) ∨
    (∃ t, fillLoop k s = .ok () t ∧ t.fillI = s.nbytes ∧ PosForward s t)
  | 0, s, hi, _, _, hpos, hk => by
    refine .inr (.inr ⟨s, rfl, ?_, Nat.le_refl _, hpos⟩)
    unfold State.fillLeft at hk
    exact BitVec.eq_of_toNat_eq (show s.fillI.toNat = s.n by omega)
  | k + 1, s, hi, hcap, hg, hpos, hk => by
    by_cases h : s.fillI.toNat < s.n
    · rw [fillLoop_succ k s h]
      rcases fillPass_progress s h hcap hg hpos with ⟨t, e, h1⟩ | ⟨hc, t, e⟩ | ⟨t, e, h1, h2, h3, h4⟩
      · exact .inl ⟨t, by rw [e]; rfl, h1⟩
      · exact .inr (.inl ⟨hc, t, by rw [e]; rfl⟩)
      · have hkk := fillPass_keeps (FillKeeps.refl s) h
        rw [e] at hkk
        have hf : FillFrame s t := hkk.frame
        rw [e, Flow.bind_ok]
        have hlen := hf.streamLen
        have := fillLoop_ends k t (by rw [hf.n]; exact h2) (by rw [hf.n, hf.params]; exact hcap)
          (by unfold State.streamGuarantee; rw [hlen, hf.params]; exact hg) (by rw [hlen]; exact h4) (by omega)
        rw [hlen, hf.params, hf.nbytes] at this
        rcases this with h | h | ⟨u, e1, h5, h6, h7⟩
        · exact .inl h
        · exact .inr (.inl h)
        · exact .inr (.inr ⟨u, e1, h5, by omega, by rw [hlen] at h7; exact h7⟩)
    · refine .inr (.inr ⟨s, fillLoop_done _ s (by omega), ?_, Nat.le_refl _, hpos⟩)
      exact BitVec.eq_of_toNat_eq (show s.fillI.toNat = s.n by omega)

/-- FILL_RLE ends (R130, R137, R138). -/
theorem fillRle_ends (s : State) (hcap : s.n ≤ s.params.scratchCap) (hg : s.streamGuarantee)
    (hpos : s.streamPos.toNat ≤ s.streamLen.toNat) :
    (∃ t, fillRle s = .fail .truncated t ∧ t.streamPos.toNat = s.streamLen.toNat) ∨
    (s.params.zeroRunPolicy = .corrupt ∧ ∃ t, fillRle s = .fail .corrupt t) ∨
    (∃ t, fillRle s = .ok () t ∧ t.fillI = s.nbytes ∧ PosForward s t) :=
  fillLoop_ends s.passBound s.startRequest (Nat.zero_le _) hcap hg hpos (Nat.le_refl _)

/-! ### No fill stops -/

theorem run0Policy_runs (v : Byte) (s : State) (hi : s.fillI.toNat ≤ s.n) (hcap : s.n ≤ s.params.scratchCap) :
    (run0Policy v s).Runs fun _ _ => True := by
  rcases run0Policy_cases v s hi hcap with ⟨_, e⟩ | ⟨_, e⟩ | ⟨_, t, e, _⟩ <;> rw [e] <;> trivial

theorem emit_runs (s : State) (hi : s.runCnt ≠ 0 → s.fillI.toNat < s.n) (hcap : s.n ≤ s.params.scratchCap) :
    (emit s).Runs fun _ _ => True := by
  by_cases h0 : s.runCnt = 0
  · rw [emit_none h0]; trivial
  · obtain ⟨t, e, _⟩ := emit_ok s h0 (hi h0) hcap
    rw [e]; trivial

theorem fillPass_runs (s : State) (hi : s.fillI.toNat < s.n) (hcap : s.n ≤ s.params.scratchCap)
    (hg : s.streamGuarantee) : (fillPass s).Runs fun _ _ => True := by
  unfold State.streamGuarantee at hg
  unfold fillPass
  split
  · next h0 =>
    have hr : (readCode s).Runs fun _ _ => True := by
      rcases readCode_cases s with ⟨_, e⟩ | ⟨_, _, e⟩ | ⟨h, e⟩ | ⟨_, v, e⟩ | ⟨_, n, v, _, e⟩ | ⟨_, v, e⟩ <;> rw [e]
      · trivial
      · trivial
      · exact absurd h (Nat.not_lt.2 hg)
      · trivial
      · trivial
      · exact run0Policy_runs v _ (Nat.le_of_lt hi) hcap
    have hk := readCode_keeps s
    cases hc : readCode s with
    | ok a t =>
      rw [hc] at hk
      have hf : FillFrame s t := hk.frame
      rw [Flow.bind_ok]
      refine emit_runs t (fun ht => ?_) (by rw [hf.n, hf.params]; exact hcap)
      rw [readCode_room h0 hc ht, hf.n]; exact hi
    | fail k t => trivial
    | fault e => rw [hc] at hr; exact hr
    | refuse r => rw [hc] at hr; exact hr
  · exact emit_runs s (fun _ => hi) hcap

theorem fillLoop_runs : ∀ (k : Nat) (s : State), s.n ≤ s.params.scratchCap → s.streamGuarantee →
    (fillLoop k s).Runs fun _ _ => True
  | 0, _, _, _ => trivial
  | k + 1, s, hcap, hg => by
    by_cases h : s.fillI.toNat < s.n
    · rw [fillLoop_succ k s h]
      have hr := fillPass_runs s h hcap hg
      have hk := fillPass_keeps (FillKeeps.refl s) h
      cases hc : fillPass s with
      | ok a t =>
        rw [hc] at hk
        have hf : FillFrame s t := hk.frame
        rw [Flow.bind_ok]
        exact fillLoop_runs k t (by rw [hf.n, hf.params]; exact hcap)
          (by unfold State.streamGuarantee; rw [hf.streamLen, hf.params]; exact hg)
      | fail k t => trivial
      | fault e => rw [hc] at hr; exact hr
      | refuse r => rw [hc] at hr; exact hr
    · rw [fillLoop_done _ s (by omega)]; trivial

theorem fillRaw_runs (s : State) (hcap : s.n ≤ s.params.scratchCap) (hg : s.streamGuarantee) :
    (fillRaw s).Runs fun _ _ => True := by
  unfold State.streamGuarantee at hg
  unfold fillRaw
  rcases streamReadN_cases s.n s with ⟨_, e⟩ | ⟨h1, h2, e⟩ | ⟨_, _, e⟩
  · rw [e]; trivial
  · have : streamReadN s.n s = .ok none s := streamReadN_short (by omega)
    rw [this] at e; cases e
  · rw [e]
    refine Flow.Runs.mono (forN_runs (P := fun t => t.params = s.params) _ _ rfl fun i t hi ht => ?_)
      fun _ _ _ => trivial
    have : i < t.params.scratchCap := by rw [ht]; exact Nat.lt_of_lt_of_le hi hcap
    rw [scratchWrite_ok this]
    exact ht

/-- R130: a scanline request goes to its end or fails, where ENC is 0 or 1, N fits, and the host keeps its guarantee. -/
theorem fill_runs (s : State) (he : s.cfgEnc = 0 ∨ s.cfgEnc = 1) (hcap : s.n ≤ s.params.scratchCap)
    (hg : s.streamGuarantee) : (fill s).Runs fun _ _ => True := by
  unfold fill
  split
  · exact fillRaw_runs s hcap hg
  · split
    · exact fillLoop_runs _ _ hcap hg
    · next h0 h1 => exact absurd he (by rintro (h | h) <;> contradiction)

/-- What the codes of `FILL n, v` emit (R105, R140). -/
theorem fillCodes_emit (n : Nat) (v : Byte) :
    emittedAll (fillCodes n v) = List.replicate n v ∧ ∀ c ∈ fillCodes n v, emitsAlways c = true := by
  have hb : emitted (byteCode v) = [v] ∧ emitsAlways (byteCode v) = true := by
    unfold byteCode; split
    · next h => exact ⟨rfl, h⟩
    · exact ⟨rfl, rfl⟩
  have hrep : ∀ k, emittedAll (List.replicate k (Instr.run 63 v)) = List.replicate (63 * k) v := by
    intro k
    induction k with
    | zero => rfl
    | succ k ih =>
      rw [List.replicate_succ, emittedAll_cons, ih, emitted, show (63 : BitVec 6).toNat = 63 from rfl, ← List.replicate_add]
      congr 1; omega
  have hr : (BitVec.ofNat 6 (n % 63)).toNat = n % 63 := by
    rw [BitVec.toNat_ofNat]; exact Nat.mod_eq_of_lt (by omega)
  refine ⟨?_, ?_⟩
  · rw [fillCodes, emittedAll_append, hrep]
    split
    · next h => rw [emittedAll_nil, List.append_nil]; congr 1; omega
    · split
      · rw [emittedAll_cons, emittedAll_nil, List.append_nil, emitted, hr, ← List.replicate_add]; congr 1; omega
      · rw [emittedAll_cons, emittedAll_nil, List.append_nil, hb.1, show [v] = List.replicate 1 v from rfl, ← List.replicate_add]; congr 1; omega
  · intro c hc
    rw [fillCodes] at hc
    rcases List.mem_append.1 hc with hc | hc
    · rw [(List.mem_replicate.1 hc).2]; rfl
    · split at hc
      · simp at hc
      · split at hc
        · simp only [List.mem_singleton] at hc; subst hc
          simp only [emitsAlways, runCountOk, decide_eq_true_eq]
          intro e; rw [e] at hr; simp at hr; omega
        · simp only [List.mem_singleton] at hc; subst hc; exact hb.2

end Sys2Proof.Machine
end

