-- ==== Sys2Proof/Laws/Palette.lean ====
section
/-! SUPPORT. What the palette resolver does (spec/42_palette_resolver.md R190 to R195): the marker scan, the table, and
the three ends of PAL_TRAILING. -/

namespace Sys2Proof.Machine

/-- One byte of the scan. -/
theorem scanMarker_succ (fuel : Nat) {s : State} (h : s.readable 1) : scanMarker (fuel + 1) s =
    if Memory.read s.stream s.streamPos.toNat = 12 then .ok true (s.withPos (s.streamPos.toNat + 1))
    else scanMarker fuel (s.withPos (s.streamPos.toNat + 1)) := by
  rw [scanMarker, streamRead1_byte h]; rfl

/-- A scan that meets the marker `k` bytes on (R192, R195). -/
theorem scanMarker_found (k : Nat) : ∀ (fuel : Nat) (s : State), s.readable (k + 1) → k < fuel →
    (∀ j, j < k → Memory.read s.stream (s.streamPos.toNat + j) ≠ 12) →
    Memory.read s.stream (s.streamPos.toNat + k) = 12 →
    scanMarker fuel s = .ok true (s.withPos (s.streamPos.toNat + k + 1)) := by
  induction k with
  | zero =>
    intro fuel s hr hf _ h
    obtain ⟨f, rfl⟩ : ∃ f, fuel = f + 1 := ⟨fuel - 1, by omega⟩
    rw [Nat.add_zero] at h ⊢
    rw [scanMarker_succ f hr, if_pos h]
  | succ k ih =>
    intro fuel s hr hf hj h
    obtain ⟨f, rfl⟩ : ∃ f, fuel = f + 1 := ⟨fuel - 1, by omega⟩
    have h1 : s.readable (1 + (k + 1)) := by rw [Nat.add_comm]; exact hr
    have hp : (s.withPos (s.streamPos.toNat + 1)).streamPos.toNat = s.streamPos.toNat + 1 :=
      State.withPos_toNat (by have := h1.1; omega)
    have h0 := hj 0 (by omega)
    rw [Nat.add_zero] at h0
    rw [scanMarker_succ f (State.readable_mono h1 (by omega)), if_neg h0,
      ih f _ (State.readable_withPos h1) (by omega)
        (fun j hjk => by rw [hp, Nat.add_assoc, Nat.add_comm 1 j]; exact hj (j + 1) (by omega))
        (by rw [hp, Nat.add_assoc, Nat.add_comm 1 k]; exact h), hp, State.withPos_withPos,
      show s.streamPos.toNat + 1 + k + 1 = s.streamPos.toNat + (k + 1) + 1 by omega]

/-- A scan that meets no marker ends at the end of the stream. -/
theorem scanMarker_none : ∀ (fuel : Nat) (s : State), s.streamGuarantee → s.streamPos.toNat ≤ s.streamLen.toNat →
    s.streamLen.toNat - s.streamPos.toNat ≤ fuel →
    (∀ a, s.streamPos.toNat ≤ a → a < s.streamLen.toNat → Memory.read s.stream a ≠ 12) →
    scanMarker fuel s = .ok false (s.withPos s.streamLen.toNat)
  | 0, s, _, hp, hf, _ => by
    rw [scanMarker, show s.streamLen.toNat = s.streamPos.toNat by omega, State.withPos_self]
  | fuel + 1, s, hg, hp, hf, h => by
    by_cases he : s.streamLen.toNat ≤ s.streamPos.toNat
    · rw [scanMarker, streamRead1_eof he, Flow.bind_ok, show s.streamLen.toNat = s.streamPos.toNat by omega, State.withPos_self]
    · have hr : s.readable 1 := by
        unfold State.streamGuarantee at hg
        exact ⟨by omega, by omega⟩
      have hpos := State.withPos_toNat hr.1
      rw [scanMarker_succ fuel hr, if_neg (h _ (Nat.le_refl _) (by omega)),
        scanMarker_none fuel (s.withPos (s.streamPos.toNat + 1)) hg (by rw [hpos]; exact hr.1)
          (by rw [hpos]; show s.streamLen.toNat - _ ≤ _; omega)
          (fun a h1 h2 => h a (by rw [hpos] at h1; omega) h2)]
      rfl

/-- The scan is one loop of one-byte reads: it moves STREAM_POS forward inside the stream and does nothing else. -/
theorem scanMarker_cases : ∀ (fuel : Nat) (s : State),
    (∃ b p, scanMarker fuel s = .ok b (s.withPos p) ∧ s.streamPos.toNat ≤ p ∧
      (p ≤ s.streamLen.toNat ∨ p = s.streamPos.toNat)) ∨
    (s.params.streamSpace < s.streamLen.toNat ∧ scanMarker fuel s = .refuse .streamBeyondSpace)
  | 0, s => .inl ⟨false, s.streamPos.toNat, by rw [scanMarker, State.withPos_self], Nat.le_refl _, .inr rfl⟩
  | fuel + 1, s => by
    rw [scanMarker]
    rcases streamRead1_cases s with ⟨h, e⟩ | ⟨h1, h2, e⟩ | ⟨h, e⟩ <;> rw [e]
    · exact .inl ⟨false, s.streamPos.toNat, by rw [Flow.bind_ok, State.withPos_self], Nat.le_refl _, .inr rfl⟩
    · exact .inr ⟨by omega, rfl⟩
    · have hp := State.withPos_toNat h.1
      rw [Flow.bind_ok]
      simp only
      split
      · exact .inl ⟨true, _, rfl, by omega, .inl h.1⟩
      · rcases scanMarker_cases fuel (s.withPos (s.streamPos.toNat + 1)) with ⟨b, p, e1, h1, h2⟩ | ⟨h1, e1⟩
        · rw [hp] at h1 h2
          refine .inl ⟨b, p, e1, by omega, .inl ?_⟩
          have := h.1
          rcases h2 with h2 | h2
          · exact h2
          · omega
        · exact .inr ⟨h1, e1⟩

/-- The table at STREAM_POS (R194). -/
theorem readTable_ok {s : State} (h : s.readable 768) :
    readTable s = .ok () { s.withPos (s.streamPos.toNat + 768) with
      colorTable := tableOf (Memory.readBytes s.stream s.streamPos.toNat 768), ncolors := 256 } := by
  rw [readTable, show Config.palTrailer = 768 from rfl, streamReadN_bytes h]; rfl

/-- The table at stream position `p`. -/
theorem readTable_at (s : State) {p : Nat} (h1 : p + 768 ≤ s.streamLen.toNat) (h2 : p + 768 ≤ s.params.streamSpace) :
    readTable (s.withPos p) = .ok () { s with
      streamPos := BitVec.ofNat 32 (p + 768), colorTable := tableOf (Memory.readBytes s.stream p 768),
      ncolors := 256 } := by
  have hp : (s.withPos p).streamPos.toNat = p := State.withPos_toNat (by omega)
  have hr : (s.withPos p).readable 768 := by
    refine ⟨?_, ?_⟩ <;> rw [hp]
    · exact h1
    · exact h2
  rw [readTable_ok hr, hp]
  simp only [State.withPos]

theorem readTable_short {s : State} (h : s.streamLen.toNat < s.streamPos.toNat + 768) :
    readTable s = .fail .truncated s := by
  rw [readTable, show Config.palTrailer = 768 from rfl, streamReadN_short h]; rfl

/-- Entry `i` of a table read from the stream at `a`. -/
theorem tableOf_get (m : Memory) (a i : Nat) (h : i < 256) :
    (tableOf (Memory.readBytes m a 768)).get i =
      rgb (Memory.read m (a + 3 * i)) (Memory.read m (a + 3 * i + 1)) (Memory.read m (a + 3 * i + 2)) := by
  rw [tableOf, RgbTable.get_ofFn, if_pos h, Memory.getD_readBytes _ _ _ _ _ (by omega),
    Memory.getD_readBytes _ _ _ _ _ (by omega), Memory.getD_readBytes _ _ _ _ _ (by omega)]
  rfl

/-- The packing of a colour entry, as a number (R194). -/
theorem rgb_toNat (r g b : Byte) : (rgb r g b).toNat = r.toNat + g.toNat * 256 + b.toNat * 65536 := by
  have hr := r.isLt
  have hg := g.isLt
  rw [rgb, BitVec.toNat_append, BitVec.toNat_append, ← Nat.shiftLeft_add_eq_or_of_lt hr,
    ← Nat.shiftLeft_add_eq_or_of_lt (b := g.toNat) (by omega), Nat.shiftLeft_eq, Nat.shiftLeft_eq]
  omega

/-- PAL_TRAILING after the marker (R192). -/
theorem palTrailing_marker {s : State} {k : Nat} (hr : s.readable (k + 1))
    (hj : ∀ j, j < k → Memory.read s.stream (s.streamPos.toNat + j) ≠ 12)
    (hk : Memory.read s.stream (s.streamPos.toNat + k) = 12) :
    palTrailing s = readTable (s.withPos (s.streamPos.toNat + k + 1)) := by
  rw [palTrailing, scanMarker_found k _ s hr (by have := hr.1; omega) hj hk]
  simp only [Flow.bind_ok, if_true]

/-- PAL_TRAILING with a whole table after the marker (R192, R194). -/
theorem palTrailing_marker_ok {s : State} {k : Nat} (hr : s.readable (k + 1 + 768))
    (hj : ∀ j, j < k → Memory.read s.stream (s.streamPos.toNat + j) ≠ 12)
    (hk : Memory.read s.stream (s.streamPos.toNat + k) = 12) :
    palTrailing s = .ok () { s with
      streamPos := BitVec.ofNat 32 (s.streamPos.toNat + k + 1 + 768)
      colorTable := tableOf (Memory.readBytes s.stream (s.streamPos.toNat + k + 1) 768), ncolors := 256 } := by
  have h3 : s.readable (k + 1) := State.readable_mono hr (Nat.le_add_right _ _)
  obtain ⟨h1, h2⟩ := State.readable_add hr
  clear hr
  rw [← Nat.add_assoc] at h1 h2
  rw [palTrailing_marker h3 hj hk, readTable_at s (p := s.streamPos.toNat + k + 1) (by omega) (by omega)]

/-- PAL_TRAILING without a marker (R193). -/
theorem palTrailing_noMarker {s : State} (hg : s.streamGuarantee)
    (h : ∀ a, s.streamPos.toNat ≤ a → a < s.streamLen.toNat → Memory.read s.stream a ≠ 12) :
    palTrailing s = (seekTable (s.withPos (max s.streamPos.toNat s.streamLen.toNat))).bind fun _ s => readTable s := by
  by_cases hp : s.streamPos.toNat ≤ s.streamLen.toNat
  · rw [palTrailing, scanMarker_none _ s hg hp (Nat.le_refl _) h, Nat.max_eq_right hp]
    simp only [Flow.bind_ok, Bool.false_eq_true, if_false]
  · rw [palTrailing, show s.streamLen.toNat - s.streamPos.toNat = 0 by omega, scanMarker,
      Nat.max_eq_left (by omega), State.withPos_self]
    simp only [Flow.bind_ok, Bool.false_eq_true, if_false]

theorem seekTable_ok {s : State} (h : 768 ≤ s.streamLen.toNat) :
    seekTable s = .ok () (s.withPos (s.streamLen.toNat - 768)) := by
  rcases streamSeekFromEnd_cases 768 s with ⟨h1, _⟩ | ⟨_, e⟩
  · omega
  · rw [seekTable, show Config.palTrailer = 768 from rfl, e]; rfl

theorem seekTable_fail {s : State} (h : s.streamLen.toNat < 768) : seekTable s = .fail .truncated s := by
  rcases streamSeekFromEnd_cases 768 s with ⟨_, e⟩ | ⟨h1, _⟩
  · rw [seekTable, show Config.palTrailer = 768 from rfl, e]; rfl
  · omega

/-- PAL_TRAILING without a marker, in a stream that has 768 bytes (R193). -/
theorem palTrailing_fallback_ok {s : State} (hg : s.streamGuarantee) (hl : 768 ≤ s.streamLen.toNat)
    (h : ∀ a, s.streamPos.toNat ≤ a → a < s.streamLen.toNat → Memory.read s.stream a ≠ 12) :
    palTrailing s = .ok () { s with
      streamPos := s.streamLen
      colorTable := tableOf (Memory.readBytes s.stream (s.streamLen.toNat - 768) 768), ncolors := 256 } := by
  have e := palTrailing_noMarker hg h
  unfold State.streamGuarantee at hg
  have he : s.streamLen.toNat - 768 + 768 = s.streamLen.toNat := by omega
  rw [e, seekTable_ok (s := s.withPos _) hl, Flow.bind_ok, State.withPos_withPos, State.withPos_streamLen,
    readTable_at s (by omega) (by omega), he, BitVec.ofNat_toNat, BitVec.setWidth_eq]

/-- PAL_INLINE of at most 16 colours (R191). -/
theorem palInline_ok {s : State} (h : s.srcBits.toNat ≤ 4) :
    s.colorCount = 2 ^ s.srcBits.toNat ∧ palInline s = .ok () { s with
      colorTable := RgbTable.ofFn 256 fun i => if i < s.colorCount then s.inlinePal.get i else s.colorTable.get i
      ncolors := BitVec.ofNat 9 s.colorCount } := by
  have h1 : 2 ^ s.srcBits.toNat ≤ 2 ^ 4 := Nat.pow_le_pow_right (by omega) h
  have hc : s.colorCount = 2 ^ s.srcBits.toNat := by
    unfold State.colorCount Config.palCap
    omega
  exact ⟨hc, by rw [palInline, if_neg (by omega)]⟩

/-- `s` after a table has been read up to stream position `p`. -/
def State.withTable (s : State) (p : Nat) (table : RgbTable 256) : State :=
  { s with streamPos := BitVec.ofNat 32 p, colorTable := table, ncolors := 256 }

theorem State.withTable_withPos (s : State) (p q : Nat) (table : RgbTable 256) :
    (s.withPos p).withTable q table = s.withTable q table := rfl

/-- The table read, whatever the stream. -/
theorem readTable_cases (s : State) :
    (s.streamPos.toNat + Config.palTrailer ≤ s.streamLen.toNat ∧ ∃ table, readTable s =
      .ok () (s.withTable (s.streamPos.toNat + Config.palTrailer) table)) ∨
    readTable s = .fail .truncated s ∨
    (s.params.streamSpace < s.streamLen.toNat ∧ readTable s = .refuse .streamBeyondSpace) := by
  unfold readTable
  generalize Config.palTrailer = c
  rcases streamReadN_cases c s with ⟨h, e⟩ | ⟨_, h, e⟩ | ⟨h1, h2, e⟩
  · exact .inr (.inl (by rw [e]; rfl))
  · refine .inr (.inr ⟨?_, by rw [e]; rfl⟩)
    by_contra hc
    rw [streamReadN_short (by omega)] at e; cases e
  · exact .inl ⟨h1, _, by rw [e]; rfl⟩

/-- PAL_TRAILING, whatever the stream: the table and STREAM_POS just past it; a truncation with only STREAM_POS moved;
or a refusal where the stream does not fit its space. -/
theorem palTrailing_cases (s : State) :
    (∃ p table, p ≤ s.streamLen.toNat ∧ palTrailing s = .ok () (s.withTable p table)) ∨
    (∃ p, palTrailing s = .fail .truncated (s.withPos p)) ∨
    (s.params.streamSpace < s.streamLen.toNat ∧ palTrailing s = .refuse .streamBeyondSpace) := by
  have hread : ∀ p, (p ≤ s.streamLen.toNat ∨ p = s.streamPos.toNat) →
      (∃ q table, q ≤ s.streamLen.toNat ∧ readTable (s.withPos p) = .ok () (s.withTable q table)) ∨
      (∃ q, readTable (s.withPos p) = .fail .truncated (s.withPos q)) ∨
      (s.params.streamSpace < s.streamLen.toNat ∧ readTable (s.withPos p) = .refuse .streamBeyondSpace) := by
    intro p hp
    have hpos : (s.withPos p).streamPos.toNat = p := by
      rcases hp with hp | rfl
      · exact State.withPos_toNat hp
      · rw [State.withPos_self]
    rcases readTable_cases (s.withPos p) with ⟨h, table, e⟩ | e | h
    · rw [hpos] at h
      rw [hpos, State.withTable_withPos] at e
      exact .inl ⟨p + Config.palTrailer, table, h, e⟩
    · exact .inr (.inl ⟨p, e⟩)
    · exact .inr (.inr h)
  rw [palTrailing]
  rcases scanMarker_cases (s.streamLen.toNat - s.streamPos.toNat) s with ⟨b, p, e, h1, h2⟩ | ⟨h, e⟩
  · rw [e, Flow.bind_ok]
    cases b with
    | true => rw [if_pos rfl, Flow.bind_ok]; exact hread p h2
    | false =>
      rw [if_neg (by decide), seekTable]
      rcases streamSeekFromEnd_cases Config.palTrailer (s.withPos p) with ⟨_, e1⟩ | ⟨_, e1⟩ <;> rw [e1]
      · exact .inr (.inl ⟨p, rfl⟩)
      · exact hread _ (.inl (Nat.sub_le _ _))
  · exact .inr (.inr ⟨h, by rw [e]; rfl⟩)

end Sys2Proof.Machine
end

