-- ==== Sys2Proof/Laws/Unpack.lean ====
section
/-! SUPPORT. What the row clearing and the unpackers write (spec/41_plane_unpacker.md R161 to R166). -/

namespace Sys2Proof.Machine

/-- `t` is `s` with another OUT. -/
def OnlyOut (s t : State) : Prop := t = { s with out := t.out }

theorem OnlyOut.refl (s : State) : OnlyOut s s := rfl

theorem OnlyOut.trans {s t u : State} (h1 : OnlyOut s t) (h2 : OnlyOut t u) : OnlyOut s u := by
  unfold OnlyOut at *; rw [h2, h1]

theorem OnlyOut.write {s t : State} (h : OnlyOut s t) (m : Memory) : OnlyOut s { t with out := m } := by
  unfold OnlyOut at *; rw [h]

theorem OnlyOut.base {s t : State} (h : OnlyOut s t) : t.base = s.base := by rw [h]; rfl
theorem OnlyOut.params {s t : State} (h : OnlyOut s t) : t.params = s.params := by rw [h]
theorem OnlyOut.bpl {s t : State} (h : OnlyOut s t) : t.bpl = s.bpl := by rw [h]; rfl
theorem OnlyOut.w {s t : State} (h : OnlyOut s t) : t.w = s.w := by rw [h]; rfl
theorem OnlyOut.n {s t : State} (h : OnlyOut s t) : t.n = s.n := by rw [h]; rfl
theorem OnlyOut.cfgPitch {s t : State} (h : OnlyOut s t) : t.cfgPitch = s.cfgPitch := by rw [h]
theorem OnlyOut.scratchByte {s t : State} (h : OnlyOut s t) (i : Nat) : t.scratchByte i = s.scratchByte i := by
  rw [h]; rfl

/-- A loop that stores the byte `v i` at `p i` in pass `i`, no address twice: it ends, OUT holds the bytes, and nothing
else changes. -/
theorem storeLoop_ok (s : State) (n : Nat) (p : Nat → Nat) (v : Nat → Byte) (f : Nat → State → Flow Unit)
    (hinj : ∀ i j, i < n → j < n → p i = p j → i = j)
    (hf : ∀ i t, i < n → OnlyOut s t → f i t = .ok () { t with out := Memory.write t.out (p i) (v i) }) :
    ∃ t, forN n f s = .ok () t ∧ OnlyOut s t ∧
      (∀ i, i < n → Memory.read t.out (p i) = v i) ∧
      ∀ a, (∀ i, i < n → a ≠ p i) → Memory.read t.out a = Memory.read s.out a := by
  let P : Nat → State → Prop := fun k t => OnlyOut s t ∧ (∀ i, i < k → Memory.read t.out (p i) = v i) ∧
    ∀ a, (∀ i, i < k → a ≠ p i) → Memory.read t.out a = Memory.read s.out a
  refine forN_ok (P := P) n s ⟨OnlyOut.refl s, by simp, by simp⟩ ?_
  rintro i t hi ⟨h1, h2, h3⟩
  refine ⟨_, hf i t hi h1, h1.write _, ?_, ?_⟩
  · intro j hj
    show Memory.read (Memory.write t.out (p i) (v i)) (p j) = v j
    rw [Memory.read_write]
    by_cases hij : j = i
    · subst hij; simp
    · rw [if_neg fun h => hij (hinj j i (by omega) hi h)]
      exact h2 j (by omega)
  · intro a ha
    show Memory.read (Memory.write t.out (p i) (v i)) a = Memory.read s.out a
    rw [Memory.read_write, if_neg (ha i (by omega))]
    exact h3 a fun j hj => ha j (by omega)

/-- CLEAR_ROW zeroes the row's pixel bytes and nothing else. -/
theorem clearRow_ok (s : State) (h : s.rowFits) : ∃ t, clearRow s = .ok () t ∧ OnlyOut s t ∧
    ∀ a, Memory.read t.out a = if s.base ≤ a ∧ a < s.base + s.rowBytes then 0 else Memory.read s.out a := by
  unfold State.rowFits at h
  obtain ⟨t, ht, h1, h2, h3⟩ := storeLoop_ok s s.rowBytes (fun b => s.base + b) (fun _ => 0)
    (fun b s => outWrite (s.base + b) 0 s) (by intro i j _ _ h; simpa using h) (by
      intro i t hi ho
      rw [outWrite_ok (by rw [ho.params, ho.base]; omega), ho.base])
  refine ⟨t, ht, h1, fun a => ?_⟩
  split
  · next ha =>
    obtain ⟨b, rfl⟩ := Nat.exists_eq_add_of_le ha.1
    exact h2 b (by omega)
  · next ha => exact h3 a fun i hi => by omega

/-- UNPACK_IDX8 copies the first scratch bytes to the row. -/
theorem unpackIdx8_ok (s : State) (hc : min s.w.toNat s.n ≤ s.params.scratchCap)
    (ho : s.base + min s.w.toNat s.n ≤ s.params.outSize) : ∃ t, unpackIdx8 s = .ok () t ∧ OnlyOut s t ∧
    ∀ a, Memory.read t.out a = if s.base ≤ a ∧ a < s.base + min s.w.toNat s.n then s.scratchByte (a - s.base)
      else Memory.read s.out a := by
  obtain ⟨t, ht, h1, h2, h3⟩ := storeLoop_ok s (min s.w.toNat s.n) (fun b => s.base + b) (fun x => s.scratchByte x)
    (fun x s => (scratchRead x s).bind fun v s => outWrite (s.base + x) v s)
    (by intro i j _ _ h; simpa using h) (by
      intro i t hi h
      rw [scratchRead_ok (by rw [h.params]; omega), Flow.bind_ok,
        outWrite_ok (by rw [h.params, h.base]; omega), h.base, h.scratchByte])
  refine ⟨t, ht, h1, fun a => ?_⟩
  split
  · next ha =>
    obtain ⟨b, rfl⟩ := Nat.exists_eq_add_of_le ha.1
    rw [Nat.add_sub_cancel_left]
    exact h2 b (by omega)
  · next ha => exact h3 a fun i hi => by omega

/-- One plane of UNPACK_RGB24 that has WIDTH bytes in the scanline. -/
theorem rgbPlane_ok (s : State) (p : Nat) (hp : p < 3) (hb : 0 ≤ s.bpl)
    (hn : (p : Int) * s.bpl + s.w.toNat ≤ s.n) (hc : s.n ≤ s.params.scratchCap)
    (hpitch : 3 * s.w.toNat ≤ s.cfgPitch.toNat) (ho : s.base + 3 * s.w.toNat ≤ s.params.outSize) :
    ∃ t, forN s.w.toNat (fun x s => rgbByte p x s) s = .ok () t ∧ OnlyOut s t ∧
      (∀ x, x < s.w.toNat → Memory.read t.out (s.base + (p + 3 * x)) = s.scratchByte (p * s.bpl.toNat + x)) ∧
      ∀ a, (∀ x, x < s.w.toNat → a ≠ s.base + (p + 3 * x)) → Memory.read t.out a = Memory.read s.out a := by
  refine storeLoop_ok s s.w.toNat (fun x => s.base + (p + 3 * x)) (fun x => s.scratchByte (p * s.bpl.toNat + x))
    (fun x s => rgbByte p x s) (by
      intro i j _ _ (h : s.base + (p + 3 * i) = s.base + (p + 3 * j)); omega) ?_
  intro x t hx h
  have hbn : ((s.bpl.toNat : Nat) : Int) = s.bpl := Int.toNat_of_nonneg hb
  have hsrc : (p : Int) * s.bpl + x = ((p * s.bpl.toNat + x : Nat) : Int) := by
    push_cast; rw [hbn]
  have hlt : p * s.bpl.toNat + x < s.n := by
    have : (((p * s.bpl.toNat + x : Nat)) : Int) < s.n := by rw [← hsrc]; omega
    omega
  simp only [rgbByte]
  rw [h.bpl, hsrc, if_neg (by rw [h.n]; omega), if_neg (by rw [h.cfgPitch]; omega), Int.toNat_natCast,
    scratchRead_ok (by rw [h.params]; omega), Flow.bind_ok,
    outWrite_ok (by rw [h.params, h.base]; omega), h.base, h.scratchByte]

/-- UNPACK_RGB24 where the first `m` planes have WIDTH bytes in the scanline: its first `m` passes. -/
theorem rgbPlanes_ok (s : State) (m : Nat) (hm : m ≤ 3) (hb : 0 ≤ s.bpl)
    (hn : ∀ p, p < m → (p : Int) * s.bpl + s.w.toNat ≤ s.n) (hc : s.n ≤ s.params.scratchCap)
    (hpitch : 3 * s.w.toNat ≤ s.cfgPitch.toNat) (ho : s.base + 3 * s.w.toNat ≤ s.params.outSize) :
    ∃ t, forN m (fun p s => forN s.w.toNat (fun x s => rgbByte p x s) s) s = .ok () t ∧ OnlyOut s t ∧
      (∀ p x, p < m → x < s.w.toNat →
        Memory.read t.out (s.base + (p + 3 * x)) = s.scratchByte (p * s.bpl.toNat + x)) ∧
      ∀ a, (∀ p x, p < m → x < s.w.toNat → a ≠ s.base + (p + 3 * x)) →
        Memory.read t.out a = Memory.read s.out a := by
  let P : Nat → State → Prop := fun k t => OnlyOut s t ∧
    (∀ p x, p < k → x < s.w.toNat →
      Memory.read t.out (s.base + (p + 3 * x)) = s.scratchByte (p * s.bpl.toNat + x)) ∧
    ∀ a, (∀ p x, p < k → x < s.w.toNat → a ≠ s.base + (p + 3 * x)) → Memory.read t.out a = Memory.read s.out a
  refine forN_ok (P := P) m s ⟨OnlyOut.refl s, by simp, by simp⟩ ?_
  rintro p t hp ⟨h, h2, h3⟩
  obtain ⟨u, hu, hu1, hu2, hu3⟩ := rgbPlane_ok t p (by omega) (by rw [h.bpl]; exact hb)
    (by rw [h.bpl, h.w, h.n]; exact hn p hp) (by rw [h.n, h.params]; exact hc)
    (by rw [h.w, h.cfgPitch]; exact hpitch) (by rw [h.base, h.w, h.params]; exact ho)
  rw [h.w, h.base] at hu2 hu3
  refine ⟨u, hu, h.trans hu1, ?_, ?_⟩
  · intro q x hq hx
    by_cases hqp : q = p
    · subst hqp
      rw [hu2 x hx, h.bpl, h.scratchByte]
    · rw [hu3 _ fun y hy => by omega]
      exact h2 q x (by omega) hx
  · intro a ha
    rw [hu3 a fun x hx => ha p x (by omega) hx]
    exact h3 a fun q x hq hx => ha q x (by omega) hx

/-- UNPACK_RGB24 where every plane has WIDTH bytes (R164). -/
theorem unpackRgb24_ok (s : State) (hb : 1 ≤ s.bpl) (hw : s.w ≤ s.bpl) (hn : (s.n : Int) = 3 * s.bpl)
    (hc : s.n ≤ s.params.scratchCap) (hpitch : 3 * s.w.toNat ≤ s.cfgPitch.toNat)
    (ho : s.base + 3 * s.w.toNat ≤ s.params.outSize) : ∃ t, unpackRgb24 s = .ok () t ∧ OnlyOut s t ∧
    ∀ a, Memory.read t.out a = if s.base ≤ a ∧ a < s.base + 3 * s.w.toNat then
      s.scratchByte ((a - s.base) % 3 * s.bpl.toNat + (a - s.base) / 3) else Memory.read s.out a := by
  obtain ⟨t, ht, h1, h2, h3⟩ := rgbPlanes_ok s 3 (Nat.le_refl 3) (by omega)
    (fun p hp => by
      have : p = 0 ∨ p = 1 ∨ p = 2 := by omega
      rcases this with rfl | rfl | rfl <;> simp only [Nat.cast_ofNat, Nat.cast_zero, Nat.cast_one] <;> omega)
    hc hpitch ho
  refine ⟨t, ht, h1, fun a => ?_⟩
  split
  · next ha =>
    have := h2 ((a - s.base) % 3) ((a - s.base) / 3) (Nat.mod_lt _ (by omega)) (by omega)
    rwa [show s.base + ((a - s.base) % 3 + 3 * ((a - s.base) / 3)) = a by omega] at this
  · next ha => exact h3 a fun p x hp hx => by omega

/-- UNPACK_RGB24 touches OUT only inside the row, however it ends. -/
theorem unpackRgb24_ends (s : State) :
    (unpackRgb24 s).Ends fun t => OnlyOut s t ∧
      ∀ a, ¬(s.base ≤ a ∧ a < s.base + 3 * s.w.toNat) → Memory.read t.out a = Memory.read s.out a := by
  let P : State → Prop := fun t => OnlyOut s t ∧
    ∀ a, ¬(s.base ≤ a ∧ a < s.base + 3 * s.w.toNat) → Memory.read t.out a = Memory.read s.out a
  refine forN_ends (P := P) 3 s ⟨OnlyOut.refl s, fun _ _ => rfl⟩ ?_
  rintro p t hp ht
  refine forN_ends (P := P) t.w.toNat t ht ?_
  rintro x u hx ⟨hu, hr⟩
  rw [ht.1.w] at hx
  simp only [rgbByte]
  split
  · exact ⟨hu, hr⟩
  · split
    · exact ⟨hu, hr⟩
    · unfold scratchRead
      split
      · simp only [Flow.bind_ok, outWrite]
        split
        · refine ⟨hu.write _, fun a ha => ?_⟩
          show Memory.read (Memory.write u.out _ _) a = _
          rw [Memory.read_write, if_neg (by rw [hu.base]; omega)]
          exact hr a ha
        · trivial
      · trivial

/-- A plane whose bytes leave the scanline fails with Corrupt (R165). -/
theorem rgbPlane_corrupt (s : State) (p : Nat) (hp : p < 3) (hb : 0 ≤ s.bpl ∨ p = 0)
    (hin : (p : Int) * s.bpl ≤ s.n) (hn : (s.n : Int) < (p : Int) * s.bpl + s.w.toNat)
    (hc : s.n ≤ s.params.scratchCap) (hpitch : 3 * s.w.toNat ≤ s.cfgPitch.toNat)
    (ho : s.base + 3 * s.w.toNat ≤ s.params.outSize) :
    ∃ t, forN s.w.toNat (fun x s => rgbByte p x s) s = .fail .corrupt t ∧ OnlyOut s t := by
  have h0 : 0 ≤ (p : Int) * s.bpl := by
    rcases hb with hb | rfl
    · exact Int.mul_nonneg (by omega) hb
    · simp
  refine forN_fail (P := fun _ t => OnlyOut s t) s.w.toNat (s.n - ((p : Int) * s.bpl).toNat) s (by omega)
    (OnlyOut.refl s) ?_ ?_
  · intro x t hx h
    simp only [rgbByte]
    rw [h.bpl, if_neg (by rw [h.n]; omega), if_neg (by rw [h.cfgPitch]; omega),
      scratchRead_ok (by rw [h.params]; omega), Flow.bind_ok, outWrite_ok (by rw [h.params, h.base]; omega)]
    exact ⟨_, rfl, h.write _⟩
  · intro t h
    simp only [rgbByte]
    rw [h.bpl, if_pos (by rw [h.n]; omega)]
    exact ⟨t, rfl, h⟩

/-- UNPACK_RGB24 where a plane has fewer than WIDTH bytes fails with Corrupt (R165). -/
theorem unpackRgb24_corrupt (s : State) (hw : 1 ≤ s.w) (hshort : s.bpl ≤ 0 ∨ s.bpl < s.w)
    (hn : (s.n : Int) = if 0 < s.bpl then 3 * s.bpl else 0) (hc : s.n ≤ s.params.scratchCap)
    (hpitch : 3 * s.w.toNat ≤ s.cfgPitch.toNat) (ho : s.base + 3 * s.w.toNat ≤ s.params.outSize) :
    ∃ t, unpackRgb24 s = .fail .corrupt t ∧ OnlyOut s t := by
  have hwn : ((s.w.toNat : Nat) : Int) = s.w := Int.toNat_of_nonneg (by omega)
  have hfail : ∀ (m : Nat), m < 3 → (0 ≤ s.bpl ∨ m = 0) → (m : Int) * s.bpl ≤ s.n →
      (s.n : Int) < (m : Int) * s.bpl + s.w.toNat →
      (∀ p, p < m → (p : Int) * s.bpl + s.w.toNat ≤ s.n) → ∃ t, unpackRgb24 s = .fail .corrupt t ∧ OnlyOut s t := by
    intro m hm hb h1 h2 h3
    refine forN_fail (P := fun _ t => OnlyOut s t) 3 m s hm (OnlyOut.refl s) ?_ ?_
    · intro p t hp h
      obtain ⟨u, hu, hu1, -, -⟩ := rgbPlane_ok t p (by omega) (by rw [h.bpl]; omega)
        (by rw [h.bpl, h.w, h.n]; exact h3 p hp) (by rw [h.n, h.params]; exact hc)
        (by rw [h.w, h.cfgPitch]; exact hpitch) (by rw [h.base, h.w, h.params]; exact ho)
      exact ⟨u, hu, h.trans hu1⟩
    · intro t h
      obtain ⟨u, hu, hu1⟩ := rgbPlane_corrupt t m hm (by rw [h.bpl]; exact hb)
        (by rw [h.bpl, h.n]; exact h1) (by rw [h.bpl, h.w, h.n]; exact h2) (by rw [h.n, h.params]; exact hc)
        (by rw [h.w, h.cfgPitch]; exact hpitch) (by rw [h.base, h.w, h.params]; exact ho)
      exact ⟨u, hu, h.trans hu1⟩
  split at hn
  · by_cases c0 : 3 * s.bpl < s.w
    · exact hfail 0 (by omega) (.inr rfl) (by simp) (by simp; omega) (by simp)
    · by_cases c1 : 2 * s.bpl < s.w
      · refine hfail 1 (by omega) (.inl (by omega)) (by push_cast; omega) (by push_cast; omega) fun p hp => ?_
        obtain rfl : p = 0 := by omega
        push_cast; omega
      · refine hfail 2 (by omega) (.inl (by omega)) (by push_cast; omega) (by push_cast; omega) fun p hp => ?_
        obtain rfl | rfl : p = 0 ∨ p = 1 := by omega
        · push_cast; omega
        · push_cast; omega
  · exact hfail 0 (by omega) (.inr rfl) (by simp) (by simp; omega) (by simp)

/-! ### UNPACK_SUB -/

theorem bitFromTop_eq (b : Byte) (k : Nat) : bitFromTop b k = if b.getLsbD (7 - k) then 1#8 else 0#8 := by
  apply BitVec.eq_of_getLsbD_eq
  intro i hi
  simp only [bitFromTop, BitVec.getLsbD_and, BitVec.getLsbD_ushiftRight]
  by_cases h0 : i = 0
  · subst h0
    cases b.getLsbD (7 - k) <;> simp
  · have : (1#8).getLsbD i = false := by simp [BitVec.getLsbD_one, h0]
    split <;> simp [this]

/-- The planes below `p` make a pixel below `2^p`. -/
theorem planeSum_lt (byte : Nat → Byte) (bpl x p : Nat) :
    ((List.range p).map fun q => if planeBit byte bpl q x then 2 ^ q else 0).sum < 2 ^ p := by
  induction p with
  | zero => simp
  | succ p ih =>
    simp only [List.range_succ, List.map_append, List.sum_append, List.map_cons, List.map_nil, List.sum_cons,
      List.sum_nil, Nat.pow_succ]
    split <;> omega

theorem ofNat_add_bit : ∀ p < 4, ∀ n < 2 ^ p, ∀ b : Bool,
    BitVec.ofNat 8 (n + (if b then 2 ^ p else 0)) = BitVec.ofNat 8 n ||| ((if b then 1#8 else 0#8) <<< p) := by
  decide

/-- One more plane OR's its bit into the pixel. -/
theorem subPixel_succ (byte : Nat → Byte) (bpl p x : Nat) (hp : p < 4) :
    subPixel byte bpl (p + 1) x =
      subPixel byte bpl p x ||| ((if planeBit byte bpl p x then 1#8 else 0#8) <<< p) := by
  simp only [subPixel, List.range_succ, List.map_append, List.sum_append, List.map_cons, List.map_nil,
    List.sum_cons, List.sum_nil, Nat.add_zero]
  exact ofNat_add_bit p hp _ (planeSum_lt byte bpl x p) _

@[simp] theorem subPixel_zero (byte : Nat → Byte) (bpl x : Nat) : subPixel byte bpl 0 x = 0#8 := rfl

/-- R166: a pixel of `np` planes is below `2^np`. -/
theorem subPixel_lt (byte : Nat → Byte) (bpl np x : Nat) : (subPixel byte bpl np x).toNat < 2 ^ np :=
  Nat.lt_of_le_of_lt (by simp only [subPixel, BitVec.toNat_ofNat]; exact Nat.mod_le _ _)
    (planeSum_lt byte bpl x np)

theorem subPixel_congr (byte byte' : Nat → Byte) (bpl np x : Nat)
    (h : ∀ i, i < np * bpl → byte i = byte' i) : subPixel byte bpl np x = subPixel byte' bpl np x := by
  simp only [subPixel]
  congr 2
  apply List.map_congr_left
  intro p hp
  have hp := List.mem_range.1 hp
  by_cases hx : x / 8 < bpl
  · have : p * bpl + x / 8 < np * bpl := by
      have := Nat.mul_le_mul_right bpl (show p + 1 ≤ np from hp)
      rw [Nat.add_mul] at this
      omega
    simp only [show planeBit byte bpl p x = planeBit byte' bpl p x by simp only [planeBit, h _ this]]
  · simp [planeBit, hx]

/-- What OUT holds while UNPACK_SUB is in plane `p`, all columns below `c` done. -/
def SubDone (s : State) (p c : Nat) (t : State) : Prop :=
  OnlyOut s t ∧ ∀ a, Memory.read t.out a = if s.base ≤ a ∧ a < s.base + s.w.toNat then
    Memory.read s.out a |||
      subPixel s.scratchByte s.bpl.toNat (if a - s.base < c then p + 1 else p) (a - s.base)
    else Memory.read s.out a

theorem subBit_ok (s : State) (p j k : Nat) (hp : p < 4) (hj : j < s.bpl.toNat) (hk : k < 8)
    (ho : s.base + s.w.toNat ≤ s.params.outSize) (t : State) (h : SubDone s p (8 * j + k) t) :
    ∃ u, subBit p j (s.scratchByte (p * s.bpl.toNat + j)) k t = .ok () u ∧ SubDone s p (8 * j + k + 1) u := by
  obtain ⟨h1, h2⟩ := h
  simp only [subBit]
  rw [h1.w]
  split
  · next hw =>
    have hw : 8 * j + k < s.w.toNat := by omega
    rw [outRead_ok (by rw [h1.params, h1.base]; omega), Flow.bind_ok,
      outWrite_ok (by rw [h1.params, h1.base]; omega)]
    refine ⟨_, rfl, h1.write _, fun a => ?_⟩
    show Memory.read (Memory.write t.out _ _) a = _
    rw [Memory.read_write, h1.base]
    by_cases ha : a = s.base + (8 * j + k)
    · subst ha
      have e := h2 (s.base + (8 * j + k))
      rw [if_pos ⟨by omega, by omega⟩, Nat.add_sub_cancel_left, if_neg (by omega)] at e
      rw [if_pos rfl, e, if_pos ⟨by omega, by omega⟩, Nat.add_sub_cancel_left, if_pos (by omega),
        subPixel_succ _ _ _ _ hp, bitFromTop_eq, BitVec.or_assoc]
      simp only [planeBit, show (8 * j + k) / 8 = j by omega, show (8 * j + k) % 8 = k by omega, hj,
        decide_true, Bool.true_and]
    · rw [if_neg ha, h2]
      split
      · next hr =>
        congr 2
        by_cases hlt : a - s.base < 8 * j + k
        · rw [if_pos hlt, if_pos (by omega)]
        · rw [if_neg hlt, if_neg (by omega)]
      · rfl
  · next hw =>
    refine ⟨t, rfl, h1, fun a => ?_⟩
    rw [h2]
    split
    · next hr =>
      congr 2
      rw [if_pos (by omega), if_pos (by omega)]
    · rfl

/-- UNPACK_SUB OR's the composition of the plane bits into the row (R162). -/
theorem unpackSub_ok (s : State) (np : Nat) (hnp : np ≤ 4) (hc : np * s.bpl.toNat ≤ s.params.scratchCap)
    (ho : s.base + s.w.toNat ≤ s.params.outSize) : ∃ t, unpackSub np s = .ok () t ∧ OnlyOut s t ∧
    ∀ a, Memory.read t.out a = if s.base ≤ a ∧ a < s.base + s.w.toNat then
      Memory.read s.out a ||| subPixel s.scratchByte s.bpl.toNat np (a - s.base) else Memory.read s.out a := by
  have key : ∃ t, unpackSub np s = .ok () t ∧ SubDone s np 0 t := by
    refine forN_ok (P := fun p t => SubDone s p 0 t) np s ⟨OnlyOut.refl s, fun a => ?_⟩ ?_
    · simp
    · intro p t hp h
      obtain ⟨u, hu, hu2⟩ : ∃ u, forN t.bpl.toNat (fun j s => (scratchRead (p * s.bpl.toNat + j) s).bind fun b s =>
          forN 8 (fun k s => subBit p j b k s) s) t = .ok () u ∧ SubDone s p (8 * t.bpl.toNat) u := by
        refine forN_ok (P := fun j u => SubDone s p (8 * j) u) t.bpl.toNat t h ?_
        intro j u hj hu
        rw [h.1.bpl] at hj
        have hidx : p * s.bpl.toNat + j < np * s.bpl.toNat := by
          have := Nat.mul_le_mul_right s.bpl.toNat (show p + 1 ≤ np from hp)
          rw [Nat.add_mul] at this
          omega
        rw [hu.1.bpl, scratchRead_ok (by rw [hu.1.params]; omega), Flow.bind_ok, hu.1.scratchByte]
        obtain ⟨v, hv, hv2⟩ := forN_ok (P := fun k v => SubDone s p (8 * j + k) v)
          (f := fun k s' => subBit p j (s.scratchByte (p * s.bpl.toNat + j)) k s') 8 u hu fun k v hk hv =>
            subBit_ok s p j k (by omega) hj hk ho v hv
        exact ⟨v, hv, by rwa [show 8 * (j + 1) = 8 * j + 8 by omega]⟩
      refine ⟨u, hu, hu2.1, fun a => ?_⟩
      rw [hu2.2, h.1.bpl]
      split
      · next hr =>
        congr 1
        split
        · next hlt => rw [if_neg (by omega)]
        · next hge =>
          rw [if_neg (by omega), subPixel_succ _ _ _ _ (by omega)]
          have : planeBit s.scratchByte s.bpl.toNat p (a - s.base) = false := by
            simp only [planeBit]
            rw [decide_eq_false (by omega), Bool.false_and]
          simp [this]
      · rfl
  obtain ⟨t, ht, h1, h2⟩ := key
  exact ⟨t, ht, h1, fun a => by simpa using h2 a⟩

/-! ### What clearing and unpacking keep, however they end -/

/-- Only OUT changes, and its list keeps its canonical form. -/
def OutKeeps (s t : State) : Prop := OnlyOut s t ∧ (Memory.wf s.out = true → Memory.wf t.out = true)

theorem OutKeeps.refl (s : State) : OutKeeps s s := ⟨OnlyOut.refl s, id⟩

theorem outWrite_keeps {s t : State} (a : Nat) (v : Byte) (h : OutKeeps s t) : (outWrite a v t).Ends (OutKeeps s) := by
  unfold outWrite
  split
  · exact ⟨h.1.write _, fun hw => Memory.wf_write _ _ _ (h.2 hw)⟩
  · trivial

theorem outRead_keeps {s t : State} (a : Nat) (h : OutKeeps s t) : (outRead a t).Ends (OutKeeps s) := by
  unfold outRead
  split
  · exact h
  · trivial

theorem scratchRead_keeps {s t : State} (i : Nat) (h : OutKeeps s t) : (scratchRead i t).Ends (OutKeeps s) := by
  unfold scratchRead
  split
  · exact h
  · trivial

theorem clearRow_keeps {s t : State} (h : OutKeeps s t) : (clearRow t).Ends (OutKeeps s) :=
  forN_ends _ _ h fun _ _ _ hu => outWrite_keeps _ _ hu

theorem subBit_keeps {s t : State} (p j : Nat) (b : Byte) (k : Nat) (h : OutKeeps s t) :
    (subBit p j b k t).Ends (OutKeeps s) := by
  unfold subBit
  split
  · exact (outRead_keeps _ h).bind (fun _ _ hu => outWrite_keeps _ _ hu) fun _ h => h
  · exact h

theorem unpackSub_keeps {s t : State} (np : Nat) (h : OutKeeps s t) : (unpackSub np t).Ends (OutKeeps s) :=
  forN_ends _ _ h fun _ _ _ h => forN_ends _ _ h fun _ _ _ h =>
    (scratchRead_keeps _ h).bind (fun _ _ h => forN_ends _ _ h fun _ _ _ h => subBit_keeps _ _ _ _ h) fun _ h => h

theorem unpackIdx8_keeps {s t : State} (h : OutKeeps s t) : (unpackIdx8 t).Ends (OutKeeps s) :=
  forN_ends _ _ h fun _ _ _ h => (scratchRead_keeps _ h).bind (fun _ _ h => outWrite_keeps _ _ h) fun _ h => h

theorem rgbByte_keeps {s t : State} (p x : Nat) (h : OutKeeps s t) : (rgbByte p x t).Ends (OutKeeps s) := by
  simp only [rgbByte]
  split
  · exact h
  · split
    · exact h
    · exact (scratchRead_keeps _ h).bind (fun _ _ h => outWrite_keeps _ _ h) fun _ h => h

theorem unpackRgb24_keeps {s t : State} (h : OutKeeps s t) : (unpackRgb24 t).Ends (OutKeeps s) :=
  forN_ends _ _ h fun _ _ _ h => forN_ends _ _ h fun _ _ _ h => rgbByte_keeps _ _ h

theorem unpack_keeps {s t : State} (h : OutKeeps s t) : (unpack t).Ends (OutKeeps s) := by
  unfold unpack
  split
  · exact unpackSub_keeps _ h
  · exact unpackIdx8_keeps h
  · exact unpackRgb24_keeps h
  · trivial

end Sys2Proof.Machine
end

