-- ==== Sys2Proof/Laws/Engine.lean ====
section
/-! SUPPORT. What the engine steps do in a state of the invariant (spec/43_control.md R230, R231): the row is inside the
surface, and after the fill it is cleared and unpacked. -/

namespace Sys2Proof.Machine

/-- The layout table, row by row (R100). -/
theorem layoutTable_cases (bpp np : Byte) :
    (bpp = 1#8 ∧ 1 ≤ np.toNat ∧ np.toNat ≤ 4 ∧ layoutTable bpp np = (.sub, 1#4)) ∨
    (bpp = 8#8 ∧ np = 1#8 ∧ layoutTable bpp np = (.idx8, 1#4)) ∨
    (bpp = 8#8 ∧ np = 3#8 ∧ layoutTable bpp np = (.rgb24, 3#4)) ∨ layoutTable bpp np = (.none, 0#4) := by
  simp only [layoutTable]
  split
  · next h => exact .inl ⟨h.1, h.2.1, h.2.2, rfl⟩
  · split
    · next h => exact .inr (.inl ⟨h.1, h.2, rfl⟩)
    · split
      · next h => exact .inr (.inr (.inl ⟨h.1, h.2, rfl⟩))
      · exact .inr (.inr (.inr rfl))

/-- The geometry of a validated state, by layout. -/
theorem State.GeometryHeld.cases {s : State} (g : s.GeometryHeld) :
    (s.layout = .sub ∧ s.outb = 1#4 ∧ s.bpp = 1 ∧ 1 ≤ s.np ∧ s.np ≤ 4) ∨
    (s.layout = .idx8 ∧ s.outb = 1#4 ∧ s.bpp = 8 ∧ s.np = 1) ∨
    (s.layout = .rgb24 ∧ s.outb = 3#4 ∧ s.bpp = 8 ∧ s.np = 3) := by
  have hl := g.layout
  have ho := g.outb
  rcases layoutTable_cases s.cfgBpp s.cfgNplanes with ⟨h1, h2, h3, e⟩ | ⟨h1, h2, e⟩ | ⟨h1, h2, e⟩ | e <;>
    rw [e] at hl ho
  · exact .inl ⟨hl, ho, by rw [State.bpp, h1]; rfl, h2, h3⟩
  · exact .inr (.inl ⟨hl, ho, by rw [State.bpp, h1]; rfl, by rw [State.np, h2]; rfl⟩)
  · exact .inr (.inr ⟨hl, ho, by rw [State.bpp, h1]; rfl, by rw [State.np, h2]; rfl⟩)
  · exact absurd hl g.listed

/-- SRC_BITS of a sub-byte layout is the plane count. -/
theorem State.GeometryHeld.srcBits_sub {s : State} (g : s.GeometryHeld) (hl : s.layout = .sub) :
    s.srcBits.toNat = s.np ∧ s.np ≤ 4 := by
  rcases g.cases with ⟨_, _, h1, _, h2⟩ | ⟨h, _⟩ | ⟨h, _⟩
  · exact ⟨by rw [g.srcBits, h1, Nat.one_mul], h2⟩
  · rw [hl] at h; cases h
  · rw [hl] at h; cases h

/-- Row ROW_Y lies inside the surface that START has checked. -/
theorem State.SurfaceHeld.row {s : State} (f : s.SurfaceHeld) (hy : (s.rowY.toNat : Int) < s.h) : s.rowFits := by
  have h1 := f.fits
  unfold State.rowFits State.base
  unfold State.rowBase at h1 ⊢
  have := Nat.mul_le_mul_right s.cfgPitch.toNat (show s.rowY.toNat ≤ s.h.toNat - 1 by omega)
  omega

/-- What a ROWS state of the invariant offers. -/
structure RowReady (s : State) : Prop where
  geometry : s.GeometryHeld
  pitch : s.rowBytes ≤ s.cfgPitch.toNat
  fits : s.rowFits

theorem State.Inv.rowReady {s : State} (h : s.Inv) (hr : s.runState = .rows) : RowReady s where
  geometry := h.geometry (by rw [hr]; decide) (by rw [hr]; decide)
  pitch := (h.surface (.inl hr)).pitch
  fits := (h.surface (.inl hr)).row (h.rowInRange hr)

/-- A fill keeps what the row needs. -/
theorem RowReady.of_fill {s t : State} (h : RowReady s) (f : FillFrame s t) : RowReady t := by
  have g := h.geometry
  have e := f
  unfold FillFrame at e
  refine ⟨⟨?_, ?_, ?_, ?_, ?_, ?_, ?_, ?_, ?_, ?_, ?_, ?_⟩, ?_, ?_⟩ <;> rw [e]
  · exact g.enc
  · exact g.layout
  · exact g.outb
  · exact g.listed
  · exact g.srcBits
  · exact g.width
  · exact g.height
  · exact g.widthPos
  · exact g.heightPos
  · exact g.bytes
  · exact g.capacity
  · exact g.zeroed
  · exact h.pitch
  · exact h.fits

/-- Clearing and unpacking a sub-byte row (R161, R162). -/
theorem unpackRow_sub {s : State} (h : RowReady s) (hl : s.layout = .sub) :
    ∃ t, ((clearRow s).bind fun _ s => unpack s) = .ok () t ∧ OnlyOut s t ∧
      ∀ a, Memory.read t.out a = if s.base ≤ a ∧ a < s.base + s.w.toNat then
        subPixel s.scratchByte s.bpl.toNat s.np (a - s.base) else Memory.read s.out a := by
  have hb : s.rowBytes = s.w.toNat ∧ s.np ≤ 4 := by
    rcases h.geometry.cases with ⟨_, ho, _, _, hn⟩ | ⟨h, _⟩ | ⟨h, _⟩
    · exact ⟨by rw [State.rowBytes, ho]; exact Nat.mul_one _, hn⟩
    · rw [hl] at h; cases h
    · rw [hl] at h; cases h
  have hcap : s.np * s.bpl.toNat ≤ s.params.scratchCap := by
    have h1 := h.geometry.bytes
    have h2 := h.geometry.capacity
    rw [h1, State.scanBytes] at h2
    by_cases hp : 0 < s.bpl
    · rwa [if_pos hp] at h2
    · rw [show s.bpl.toNat = 0 by omega]; omega
  have hfit := h.fits
  obtain ⟨t, ht, h1, h2⟩ := clearRow_ok s hfit
  unfold State.rowFits at hfit
  rw [hb.1] at h2 hfit
  obtain ⟨u, hu, h3, h4⟩ := unpackSub_ok t s.np hb.2 (by rw [h1.bpl, h1.params]; exact hcap)
    (by rw [h1.base, h1.w, h1.params]; exact hfit)
  refine ⟨u, ?_, h1.trans h3, fun a => ?_⟩
  · rw [ht, Flow.bind_ok, unpack, show t.layout = .sub by rw [h1]; exact hl,
      show t.np = s.np by rw [h1]; rfl]
    exact hu
  · rw [h4, h1.base, h1.w, h1.bpl, h2]
    split
    · rw [show t.scratchByte = s.scratchByte from funext h1.scratchByte]
      exact BitVec.zero_or
    · rfl

/-- Clearing and unpacking an 8-bit row (R161, R163). -/
theorem unpackRow_idx8 {s : State} (h : RowReady s) (hl : s.layout = .idx8) :
    ∃ t, ((clearRow s).bind fun _ s => unpack s) = .ok () t ∧ OnlyOut s t ∧
      ∀ a, Memory.read t.out a = if s.base ≤ a ∧ a < s.base + s.w.toNat then
        (if a - s.base < s.n then s.scratchByte (a - s.base) else 0) else Memory.read s.out a := by
  have hb : s.rowBytes = s.w.toNat := by
    rcases h.geometry.cases with ⟨h, _⟩ | ⟨_, ho, _⟩ | ⟨h, _⟩
    · rw [hl] at h; cases h
    · rw [State.rowBytes, ho]; exact Nat.mul_one _
    · rw [hl] at h; cases h
  have hcap := h.geometry.capacity
  have hfit := h.fits
  obtain ⟨t, ht, h1, h2⟩ := clearRow_ok s hfit
  unfold State.rowFits at hfit
  rw [hb] at h2 hfit
  obtain ⟨u, hu, h3, h4⟩ := unpackIdx8_ok t (by rw [h1.w, h1.n, h1.params]; omega)
    (by rw [h1.base, h1.w, h1.n, h1.params]; omega)
  refine ⟨u, ?_, h1.trans h3, fun a => ?_⟩
  · rw [ht, Flow.bind_ok, unpack, show t.layout = .idx8 by rw [h1]; exact hl]
    exact hu
  · rw [h4, h1.base, h1.w, h1.n, h2]
    by_cases ha : s.base ≤ a ∧ a < s.base + min s.w.toNat s.n
    · rw [if_pos ha, if_pos ⟨ha.1, by omega⟩, if_pos (by omega), h1.scratchByte]
    · rw [if_neg ha]
      by_cases hr : s.base ≤ a ∧ a < s.base + s.w.toNat
      · rw [if_pos hr, if_pos hr, if_neg (by omega)]
      · rw [if_neg hr, if_neg hr]

/-- The geometry of a 24-bit row. -/
theorem RowReady.rgb {s : State} (h : RowReady s) (hl : s.layout = .rgb24) :
    s.rowBytes = 3 * s.w.toNat ∧ (s.n : Int) = if 0 < s.bpl then 3 * s.bpl else 0 := by
  rcases h.geometry.cases with ⟨h, _⟩ | ⟨h, _⟩ | ⟨_, ho, _, hn⟩
  · rw [hl] at h; cases h
  · rw [hl] at h; cases h
  · refine ⟨by rw [State.rowBytes, ho, Nat.mul_comm]; rfl, ?_⟩
    rw [h.geometry.bytes, State.scanBytes, hn]
    split
    · push_cast
      rw [Int.toNat_of_nonneg (by omega)]
    · rfl

/-- Clearing and unpacking a 24-bit row whose planes have WIDTH bytes (R161, R164). -/
theorem unpackRow_rgb24 {s : State} (h : RowReady s) (hl : s.layout = .rgb24) (hw : s.w ≤ s.bpl) :
    ∃ t, ((clearRow s).bind fun _ s => unpack s) = .ok () t ∧ OnlyOut s t ∧
      ∀ a, Memory.read t.out a = if s.base ≤ a ∧ a < s.base + 3 * s.w.toNat then
        s.scratchByte ((a - s.base) % 3 * s.bpl.toNat + (a - s.base) / 3) else Memory.read s.out a := by
  obtain ⟨hb, hn⟩ := h.rgb hl
  have hw1 := h.geometry.widthPos
  have hcap := h.geometry.capacity
  have hpitch := h.pitch
  have hfit := h.fits
  obtain ⟨t, ht, h1, h2⟩ := clearRow_ok s hfit
  unfold State.rowFits at hfit
  rw [hb] at h2 hfit hpitch
  rw [if_pos (by omega)] at hn
  obtain ⟨u, hu, h3, h4⟩ := unpackRgb24_ok t (by rw [h1.bpl]; omega) (by rw [h1.w, h1.bpl]; exact hw)
    (by rw [h1.n, h1.bpl]; exact hn) (by rw [h1.n, h1.params]; exact hcap) (by rw [h1.w, h1.cfgPitch]; exact hpitch)
    (by rw [h1.base, h1.w, h1.params]; exact hfit)
  refine ⟨u, ?_, h1.trans h3, fun a => ?_⟩
  · rw [ht, Flow.bind_ok, unpack, show t.layout = .rgb24 by rw [h1]; exact hl]
    exact hu
  · rw [h4, h1.base, h1.w, h1.bpl, h2]
    split
    · exact h1.scratchByte _
    · rfl

/-- A 24-bit row whose planes are short of WIDTH fails with Corrupt (R165). -/
theorem unpackRow_corrupt {s : State} (h : RowReady s) (hl : s.layout = .rgb24) (hw : s.bpl < s.w) :
    ∃ t, ((clearRow s).bind fun _ s => unpack s) = .fail .corrupt t ∧ OnlyOut s t := by
  obtain ⟨hb, hn⟩ := h.rgb hl
  have hw1 := h.geometry.widthPos
  have hcap := h.geometry.capacity
  have hpitch := h.pitch
  have hfit := h.fits
  obtain ⟨t, ht, h1, h2⟩ := clearRow_ok s hfit
  unfold State.rowFits at hfit
  rw [hb] at h2 hfit hpitch
  obtain ⟨u, hu, h3⟩ := unpackRgb24_corrupt t (by rw [h1.w]; exact hw1) (by rw [h1.w, h1.bpl]; exact .inr hw)
    (by rw [h1.n, h1.bpl]; exact hn) (by rw [h1.n, h1.params]; exact hcap) (by rw [h1.w, h1.cfgPitch]; exact hpitch)
    (by rw [h1.base, h1.w, h1.params]; exact hfit)
  refine ⟨u, ?_, h1.trans h3⟩
  rw [ht, Flow.bind_ok, unpack, show t.layout = .rgb24 by rw [h1]; exact hl]
  exact hu

/-- What clearing and unpacking can change, however they end: pixel bytes of the row (R64, R160). -/
def OnlyRow (s t : State) : Prop :=
  OnlyOut s t ∧ ∀ a, ¬s.inRow a → Memory.read t.out a = Memory.read s.out a

theorem unpackRow_ends {s : State} (h : RowReady s) :
    ((clearRow s).bind fun _ s => unpack s).Runs (fun _ t => OnlyRow s t) ∧
      ((clearRow s).bind fun _ s => unpack s).Ends (OnlyRow s) := by
  rcases h.geometry.cases with ⟨hl, ho, _⟩ | ⟨hl, ho, _⟩ | ⟨hl, ho, _⟩
  · obtain ⟨t, e, h1, h2⟩ := unpackRow_sub h hl
    have : OnlyRow s t := ⟨h1, fun a ha => by
      rw [h2, if_neg]
      rw [State.inRow, State.rowBytes, ho] at ha
      simpa using ha⟩
    rw [e]; exact ⟨this, this⟩
  · obtain ⟨t, e, h1, h2⟩ := unpackRow_idx8 h hl
    have : OnlyRow s t := ⟨h1, fun a ha => by
      rw [h2, if_neg]
      rw [State.inRow, State.rowBytes, ho] at ha
      simpa using ha⟩
    rw [e]; exact ⟨this, this⟩
  · by_cases hw : s.w ≤ s.bpl
    · obtain ⟨t, e, h1, h2⟩ := unpackRow_rgb24 h hl hw
      have : OnlyRow s t := ⟨h1, fun a ha => by
        rw [h2, if_neg]
        rw [State.inRow, (h.rgb hl).1] at ha
        exact ha⟩
      rw [e]; exact ⟨this, this⟩
    · obtain ⟨t, e, h1⟩ := unpackRow_corrupt h hl (by omega)
      have : OnlyRow s t := by
        obtain ⟨u, hu, h2, h3⟩ := clearRow_ok s h.fits
        rw [hu, Flow.bind_ok, unpack, show u.layout = .rgb24 by rw [h2]; exact hl] at e
        have e : unpackRgb24 u = .fail .corrupt t := e
        have hk := unpackRgb24_ends u
        rw [e] at hk
        refine ⟨h1, fun a ha => ?_⟩
        have hk := hk.2 a
        rw [State.inRow] at ha
        rw [h2.base, h2.w, ← (h.rgb hl).1] at hk
        rw [hk ha, h3, if_neg ha]
      rw [e]; exact ⟨trivial, this⟩

/-! ### The row step -/

/-- ROW_STEP up to the row's count: fill, clear, unpack. -/
def rowBody (s : State) : Flow Unit := (fill s).bind fun _ t => (clearRow t).bind fun _ u => unpack u

theorem rowRule_eq (s : State) : rowRule s = (rowBody s).bind fun _ t => .ok () t.finishRow := by
  unfold rowRule rowBody
  cases fill s with
  | ok a t => simp only [Flow.bind_ok, Flow.bind_assoc]
  | fail _ _ => rfl
  | fault _ => rfl
  | refuse _ => rfl

/-- What a row's body may change, however it ends. -/
structure RowKeeps (s t : State) : Prop where
  frame : t = { s with streamPos := t.streamPos, scratch := t.scratch, runCnt := t.runCnt, runVal := t.runVal,
                       fillI := t.fillI, out := t.out }
  sorted : Memory.sorted s.scratch = true → Memory.sorted t.scratch = true
  wf : Memory.sorted s.scratch = true → (s.scratchZeroed = true → Memory.wf s.scratch = true) →
    s.scratchZeroed = true → Memory.wf t.scratch = true
  outWf : Memory.wf s.out = true → Memory.wf t.out = true

theorem RowKeeps.of_fill {s t : State} (h : FillKeeps s t) : RowKeeps s t where
  frame := by
    have hf := h.frame
    unfold FillFrame at hf
    rw [hf]
  sorted := h.sorted
  wf := h.wf
  outWf := by rw [h.frame.out]; exact id

theorem RowKeeps.of_out {s t u : State} (h : FillKeeps s t) (ho : OutKeeps t u) : RowKeeps s u where
  frame := by
    have hf := h.frame
    have h1 := ho.1
    unfold FillFrame at hf
    unfold OnlyOut at h1
    rw [h1, hf]
  sorted hs := by
    have h1 := ho.1
    unfold OnlyOut at h1
    rw [h1]; exact h.sorted hs
  wf h1 h2 h3 := by
    have h4 := ho.1
    unfold OnlyOut at h4
    rw [h4]; exact h.wf h1 h2 h3
  outWf hw := ho.2 (by rw [h.frame.out]; exact hw)

theorem rowBody_keeps (s : State) : (rowBody s).Ends (RowKeeps s) := by
  have hk := fill_keeps s
  unfold rowBody
  cases hf : fill s with
  | ok a t =>
    rw [hf] at hk
    have hk : FillKeeps s t := hk
    have : ((clearRow t).bind fun _ u => unpack u).Ends (OutKeeps t) :=
      (clearRow_keeps (OutKeeps.refl t)).bind (fun _ _ h => unpack_keeps h) fun _ h => h
    exact this.mono fun u hu => RowKeeps.of_out hk hu
  | fail k t => rw [hf] at hk; exact RowKeeps.of_fill hk
  | fault _ => trivial
  | refuse _ => trivial

/-- In a ROWS state of the invariant the row's body goes to its end or fails, and touches only the row's pixel bytes. -/
theorem rowBody_runs {s : State} (h : RowReady s) (hg : s.streamGuarantee) : (rowBody s).Runs fun _ _ => True := by
  have hr := fill_runs s h.geometry.enc h.geometry.capacity hg
  have hk := fill_keeps s
  unfold rowBody
  cases hf : fill s with
  | ok a t =>
    rw [hf] at hk
    have hk : FillKeeps s t := hk
    exact (unpackRow_ends (h.of_fill hk.frame)).1.mono fun _ _ _ => trivial
  | fail k t => trivial
  | fault e => rw [hf] at hr; exact hr
  | refuse r => rw [hf] at hr; exact hr

/-- A row step touches only the pixel bytes of row ROW_Y (R64). -/
theorem rowBody_onlyRow {s : State} (h : RowReady s) :
    (rowBody s).Ends fun t => ∀ a, ¬s.inRow a → Memory.read t.out a = Memory.read s.out a := by
  have hk := fill_keeps s
  unfold rowBody
  cases hf : fill s with
  | ok a t =>
    rw [hf] at hk
    have hk : FillKeeps s t := hk
    refine (unpackRow_ends (h.of_fill hk.frame)).2.mono fun u hu a ha => ?_
    rw [hu.2 a, hk.frame.out]
    have hfr := hk.frame
    unfold FillFrame at hfr
    rw [hfr]
    exact ha
  | fail k t => rw [hf] at hk; exact fun a _ => by rw [FillKeeps.frame hk |>.out]
  | fault _ => trivial
  | refuse _ => trivial

/-- A fill of a scanline that the stream holds (R131, R132, R139). -/
theorem fill_fillsTo {s : State} {bs : List Byte} {k : Nat} (h : s.fillsTo bs k) (hcap : s.n ≤ s.params.scratchCap) :
    ∃ t, fill s = .ok () t ∧ FillFrame s t ∧ t.streamPos = BitVec.ofNat 32 (s.streamPos.toNat + k) ∧
      t.streamPos.toNat = s.streamPos.toNat + k ∧ ∀ i, i < s.n → t.scratchByte i = bs.getD i 0 := by
  have pos {p : Nat} (h : p ≤ s.streamLen.toNat) : (BitVec.ofNat 32 p).toNat = p := State.withPos_toNat (s := s) h
  obtain ⟨hlen, ⟨h0, hs, rfl⟩ | ⟨h1, h2, rfl⟩ | ⟨h1, pre, c, hf, hs, rfl, rfl⟩ |
    ⟨h1, pre, v, ⟨hr, hp, hl⟩, hs, rfl, rfl⟩⟩ := h
  · obtain ⟨t, ht, he, hb⟩ := fillRaw_ok s (by rw [← hlen]; exact hs.1) hcap
    have h1 := hs.1.1
    have h2 := hs.2
    rw [hlen] at h1 h2
    refine ⟨t, by rw [fill, if_pos h0, ht], by rw [he]; rfl, by rw [he], by rw [he]; exact pos h1, fun i hi => ?_⟩
    rw [hb, if_pos hi, ← Memory.getD_readBytes s.stream s.streamPos.toNat s.n i 0 hi, h2]
  · refine ⟨s.startRequest, ?_, FillFrame.startRequest s, ?_, rfl, fun i hi => by omega⟩
    · rw [fill, h1]
      exact fillLoop_done _ _ (by show s.n ≤ 0; omega)
    · show s.streamPos = _
      simp
  · obtain ⟨t, ht, he, hb⟩ := fillRle_ok s pre c hf hs hcap
    refine ⟨t, ?_, by rw [he]; rfl, by rw [he], by rw [he]; exact pos hs.1.1, fun i hi => ?_⟩
    · rw [fill, h1]; exact ht
    · rw [hb, if_pos hi]
      simp [List.getD, hi]
  · obtain ⟨t, ht, hf, he, hb⟩ := fillRle_rest hr hp hl hs hcap
    exact ⟨t, by rw [fill, h1]; exact ht, hf, he, by rw [he]; exact pos hs.1.1, hb⟩

/-- A ROWS step whose row is filled and unpacked ends in the row's count. -/
theorem rowStep_ok {s t u : State} (hr : s.runState = .rows) (hf : fill s = .ok () t)
    (hu : ((clearRow t).bind fun _ s => unpack s) = .ok () u) : exec .rowStep s = .next u.finishRow := by
  have : rowBody s = .ok () u := by rw [rowBody, hf, Flow.bind_ok, hu]
  rw [exec, execRowStep, if_pos hr, rowRule_eq, this]
  rfl

/-- A ROWS step whose row fails in its unpacking. -/
theorem rowStep_fail {s t u : State} {e : ErrKind} (hr : s.runState = .rows) (hf : fill s = .ok () t)
    (hu : ((clearRow t).bind fun _ s => unpack s) = .fail e u) : exec .rowStep s = .next (u.failEntry e) := by
  have : rowBody s = .fail e u := by rw [rowBody, hf, Flow.bind_ok, hu]
  rw [exec, execRowStep, if_pos hr, rowRule_eq, this]
  rfl

/-- A ROWS step whose fill fails: neither CLEAR_ROW nor the row's count is reached (R230). -/
theorem rowStep_fillFail {s t : State} {e : ErrKind} (hr : s.runState = .rows) (hf : fill s = .fail e t) :
    exec .rowStep s = .next (t.failEntry e) := by
  rw [exec, execRowStep, if_pos hr, rowRule, hf]
  rfl

/-! ### The palette step -/

/-- PAL_STEP in a PALETTE state of the invariant: DONE with a full table, a truncation with the table untouched, or a
refusal where the stream does not fit its space. -/
theorem palRule_cases {s : State} (g : s.GeometryHeld) (hl : s.layout = .sub ∨ s.layout = .idx8) :
    (s.layout = .sub ∧ palRule s = .ok () { s with
      colorTable := RgbTable.ofFn 256 fun i => if i < 2 ^ s.np then s.inlinePal.get i else s.colorTable.get i
      ncolors := BitVec.ofNat 9 (2 ^ s.np), runState := .done }) ∨
    (s.layout = .idx8 ∧ ∃ p table, p ≤ s.streamLen.toNat ∧
      palRule s = .ok () { s.withTable p table with runState := .done }) ∨
    (s.layout = .idx8 ∧ ∃ p, palRule s = .fail .truncated (s.withPos p)) ∨
    (s.layout = .idx8 ∧ s.params.streamSpace < s.streamLen.toNat ∧ palRule s = .refuse .streamBeyondSpace) := by
  rcases hl with hl | hl
  · obtain ⟨h1, h2⟩ := g.srcBits_sub hl
    obtain ⟨hc, e⟩ := palInline_ok (s := s) (by omega)
    refine .inl ⟨hl, ?_⟩
    have hp : palette s = palInline s := by unfold palette; rw [hl]
    rw [palRule, hp, e, Flow.bind_ok, hc, h1]
  · refine .inr ?_
    have hp : palette s = palTrailing s := by unfold palette; rw [hl]
    rw [palRule, hp]
    rcases palTrailing_cases s with ⟨p, table, h, e⟩ | ⟨p, e⟩ | ⟨h, e⟩ <;> rw [e]
    · exact .inl ⟨hl, p, table, h, rfl⟩
    · exact .inr (.inl ⟨hl, p, rfl⟩)
    · exact .inr (.inr ⟨hl, h, rfl⟩)

end Sys2Proof.Machine
end

