-- ==== Sys2Proof/Laws/Invariant.lean ====
section
/-! SUPPORT. How the invariant of Safety.lean is carried from state to state. -/

namespace Sys2Proof.Machine

/-- The part of the invariant about the byte lists. -/
structure State.ListsWf (s : State) : Prop where
  streamWf : Memory.wf s.stream = true
  outWf : Memory.wf s.out = true
  scratchSorted : Memory.sorted s.scratch = true
  scratchWf : s.scratchZeroed = true → Memory.wf s.scratch = true

theorem State.Inv.lists {s : State} (h : s.Inv) : s.ListsWf :=
  ⟨h.streamWf, h.outWf, h.scratchSorted, h.scratchWf⟩

/-- The registers and lists that the invariant does not mention may change. -/
theorem State.Inv.of_eq {s t : State} (h : s.Inv) (e : t = { s with
      ign := t.ign, cfgEnc := s.cfgEnc, streamOrigin := t.streamOrigin, streamPos := t.streamPos,
      streamLen := t.streamLen, failPos := t.failPos, inlinePal := t.inlinePal, runCnt := t.runCnt,
      runVal := t.runVal, fillI := t.fillI, inbox := t.inbox, rdata := t.rdata, outRaced := t.outRaced,
      raceCount := t.raceCount, resetCount := t.resetCount }) : t.Inv := by
  obtain ⟨h1, h2, h3, h4, h5, h6, h7, h8, h9, h10, h11, h12⟩ := h
  rw [e]
  refine ⟨h1, h2, h3, h4, h5, h6, h7, fun a b => ?_, fun a => ?_, h10, h11, h12⟩
  · obtain ⟨g1, g2, g3, g4, g5, g6, g7, g8, g9, g10, g11, g12⟩ := h8 a b
    exact ⟨g1, g2, g3, g4, g5, g6, g7, g8, g9, g10, g11, g12⟩
  · obtain ⟨g1, g2⟩ := h9 a
    exact ⟨g1, g2⟩

/-- While the block is neither idle nor done, the colour table is all 0. -/
theorem State.Inv.table {s : State} (h : s.Inv) (h1 : s.runState ≠ .idle) (h2 : s.runState ≠ .done) (i : Nat) :
    s.colorTable.get i = 0 := h.tableZero i (by rw [h.noColors h1 h2]; exact Nat.zero_le _)

/-- The failure entry of a state with an empty colour table. -/
theorem State.failEntry_inv {s : State} (k : ErrKind) (h : s.ListsWf) (ht : ∀ i, s.colorTable.get i = 0) :
    (s.failEntry k).Inv where
  streamWf := h.streamWf
  outWf := h.outWf
  scratchSorted := h.scratchSorted
  scratchWf := h.scratchWf
  errIff := by simp
  tableZero i _ := ht i
  noColors _ _ := rfl
  geometry _ h2 := absurd rfl h2
  surface h := by rcases h with h | h | h <;> cases h
  rowInRange h := by cases h
  rowsDone h := by rcases h with h | h <;> cases h
  indexed h := by cases h

end Sys2Proof.Machine
end

