-- ==== Sys2Proof/Laws/PerInstr.lean ====
section
/-! SUPPORT. Statements made instruction by instruction. -/

namespace Sys2Proof.Laws.EncodingLength

/-- The bytes of an encoding: one or two for a code (R95), one for a fill mode, a palette operation and an engine
step, two for a layout key, four for a command, none for CLEAR_ROW, which no encoding selects. -/
def spaceLength (i : Instr) : Nat :=
  match (encode i).space with
  | .code => if tagIsRun ((encode i).bytes.headD 0) then 2 else 1
  | .fill => 1
  | .layout => 2
  | .rowClear => 0
  | .palette => 1
  | .engine => 1
  | .command => 4

/-- A well-formed instruction's encoding is as long as its space, and for a code its control byte, say. -/
def Statement (i : Instr) : Prop := i.wellFormed = true → (encode i).bytes.length = spaceLength i

theorem lit (v : Byte) : Statement (.lit v) := by
  intro h
  have : ∀ v : Byte, litValueOk v = true → 1 = if tagIsRun v then 2 else 1 := by decide
  exact this v h

theorem run0 (v : Byte) : Statement (.run0 v) := by
  intro _
  have : 2 = if tagIsRun 0xC0#8 then 2 else 1 := by decide
  exact this

theorem run (n : BitVec 6) (v : Byte) : Statement (.run n v) := by
  intro _
  have : ∀ n : BitVec 6, 2 = if tagIsRun (3#2 ++ n) then 2 else 1 := by decide
  exact this n

theorem fillRaw : Statement .fillRaw := fun _ => rfl

theorem fillRle : Statement .fillRle := fun _ => rfl

theorem unpackSub (np : Byte) : Statement (.unpackSub np) := fun _ => rfl

theorem unpackIdx8 : Statement .unpackIdx8 := fun _ => rfl

theorem unpackRgb24 : Statement .unpackRgb24 := fun _ => rfl

theorem clearRow : Statement .clearRow := fun _ => rfl

theorem palInline : Statement .palInline := fun _ => rfl

theorem palTrailing : Statement .palTrailing := fun _ => rfl

theorem rowStep : Statement .rowStep := fun _ => rfl

theorem palStep : Statement .palStep := fun _ => rfl

theorem nop : Statement .nop := fun _ => rfl

theorem validate : Statement .validate := fun _ => rfl

theorem start : Statement .start := fun _ => rfl

theorem clear : Statement .clear := fun _ => rfl

theorem reservedCmd (cc : BitVec 2) : Statement (.reservedCmd cc) := fun _ => rfl

end Sys2Proof.Laws.EncodingLength
end

