-- ==== Sys2Proof/Tests/Slice0.lean ====
section
/-! SUPPORT. The model's own tests. Expected values come from the spec: the encodings of spec/30_encoding.md, the
examples of the rules and the vectors of spec/95_test_vectors.md (named in each comment). Then, for every obligation
with premises, a state and operands that meet them. -/

-- One test after another: each waits for the kernel, and all of them at once would ask for too many threads.
set_option Elab.async false

namespace Sys2Proof.Tests

open Sys2Proof.Machine

/-! ### Which instructions exist -/

/-- R92: 0xC0 is no literal. -/
theorem test_lit_c0_is_ill_formed : (Instr.lit 0xC0).wellFormed = false := by decide

/-- R93: a count of 0 is RUN0. -/
theorem test_run_zero_is_ill_formed : (Instr.run 0 5).wellFormed = false := by decide

/-- R100: no sub-byte layout of no plane. -/
theorem test_sub_zero_planes_is_ill_formed : (Instr.unpackSub 0).wellFormed = false := by decide

/-- R100: no sub-byte layout of 5 planes. -/
theorem test_sub_five_planes_is_ill_formed : (Instr.unpackSub 5).wellFormed = false := by decide

/-- The bounds themselves are inside. -/
theorem test_bounds_are_well_formed : (Instr.lit 0xBF).wellFormed = true ∧ (Instr.run 1 0).wellFormed = true ∧
    (Instr.run 63 0xFF).wellFormed = true ∧ (Instr.unpackSub 1).wellFormed = true ∧
    (Instr.unpackSub 4).wellFormed = true := by decide

/-! ### Words written out from the encodings -/

/-- R92 `0vvvvvvv`. -/
theorem test_decode_lit_low : decode .code [0b01111111#8] = .ok (.lit 127) [] := by decide
/-- R92 `10vvvvvv`. -/
theorem test_decode_lit_high : decode .code [0b10111111#8] = .ok (.lit 191) [] := by decide
/-- R94 `11000000 vvvvvvvv`; the byte after it stays. -/
theorem test_decode_run0 : decode .code [0b11000000#8, 0b10011001#8, 7] = .ok (.run0 0x99) [7] := by decide
/-- R93 `11nnnnnn vvvvvvvv`, n = 1: how a value 0xC0 to 0xFF is written as data. -/
theorem test_decode_run_one : decode .code [0b11000001#8, 0b11111111#8] = .ok (.run 1 0xFF) [] := by decide
/-- R93, n = 63. -/
theorem test_decode_run_max : decode .code [0b11111111#8, 0b00010001#8] = .ok (.run 63 0x11) [] := by decide
/-- R95: a run code is two bytes. -/
theorem test_decode_run_without_value : decode .code [0b11000010#8] = .reject .noValueByte := by decide
/-- R98. -/
theorem test_decode_fillRaw : decode .fill [0b00000000#8] = .ok .fillRaw [] := by decide
/-- R98. -/
theorem test_decode_fillRle : decode .fill [0b00000001#8] = .ok .fillRle [] := by decide
/-- R98: ENC 2. -/
theorem test_decode_fill_two : decode .fill [0b00000010#8] = .reject .noFillMode := by decide
/-- R100, key `BPP << 8 | NP`, low byte first. -/
theorem test_decode_unpackSub : decode .layout [0b00000100#8, 0b00000001#8] = .ok (.unpackSub 4) [] := by decide
/-- R100. -/
theorem test_decode_unpackIdx8 : decode .layout [0b00000001#8, 0b00001000#8] = .ok .unpackIdx8 [] := by decide
/-- R100. -/
theorem test_decode_unpackRgb24 : decode .layout [0b00000011#8, 0b00001000#8] = .ok .unpackRgb24 [] := by decide
/-- R100: (8, 2) and (2, 1) are not listed. -/
theorem test_decode_unlisted_pairs : decode .layout [2, 8] = .reject .noLayout ∧
    decode .layout [1, 2] = .reject .noLayout := by decide
/-- R161: no word selects CLEAR_ROW. -/
theorem test_decode_clearRow : decode .rowClear [] = .ok .clearRow [] := by decide
/-- R101, LAYOUT 1; only bits 1:0 are the field. -/
theorem test_decode_palInline : decode .palette [0b00010001#8] = .ok .palInline [] := by decide
/-- R101, LAYOUT 2. -/
theorem test_decode_palTrailing : decode .palette [0b00010010#8] = .ok .palTrailing [] := by decide
/-- R230, STATE 2; only bits 2:0 are the field. -/
theorem test_decode_rowStep : decode .engine [0b00000010#8] = .ok .rowStep [] := by decide
/-- R231, STATE 3. -/
theorem test_decode_palStep : decode .engine [0b00000011#8] = .ok .palStep [] := by decide
/-- R102, code 0, w[31:3] ignored. -/
theorem test_decode_nop : decode .command [0b11111000#8, 0xFF, 0xFF, 0xFF] = .ok .nop [] := by decide
/-- R102, code 1 (vector C17: 0xFFFFFFF9). -/
theorem test_decode_validate : decode .command [0b11111001#8, 0xFF, 0xFF, 0xFF] = .ok .validate [] := by decide
/-- R102, code 2. -/
theorem test_decode_start : decode .command [0b00000010#8, 0, 0, 0] = .ok .start [] := by decide
/-- R102, code 3. -/
theorem test_decode_clear : decode .command [0b00000011#8, 0, 0, 0] = .ok .clear [] := by decide
/-- R102, codes 4 and 7. -/
theorem test_decode_reserved : decode .command [0b00000100#8, 0, 0, 0] = .ok (.reservedCmd 0) [] ∧
    decode .command [0b00000111#8, 0, 0, 0] = .ok (.reservedCmd 3) [] := by decide
/-- The table's words, with its bit numbering: RUN `c` in bits 7:0 and `v` in bits 15:8, a layout key, a command. -/
theorem test_table_words : decodeTableWord 16 0x11FF = some (.run 63 0x11) ∧ decodeTableWord 8 0xBF = some (.lit 0xBF) ∧
    decodeTableWord 16 0x803 = some .unpackRgb24 ∧ decodeTableWord 32 0xFFFFFFF9 = some .validate ∧
    decodeTableWord 8 2 = some .start := by decide

/-- The byte lists of the reset state are in canonical form. -/
theorem test_reset_memory_wf : Memory.wf State.reset.stream = true ∧ Memory.wf State.reset.out = true ∧
    Memory.wf State.reset.scratch = true := by decide

/-! ### Small states -/

/-- What a next state shows, if there is one. -/
def shows {α : Type} (o : Host.Outcome State Fault Refusal) (f : State → α) : Option α :=
  match o with
  | .next t => some (f t)
  | .fault _ => none
  | .refused _ => none

/-- A small machine: 16 scratch bytes, 64 output bytes, 1024 stream bytes. -/
def small : State :=
  { State.reset with params := { scratchCap := 16, outSize := 64, streamSpace := 1024, zeroRunPolicy := .nop } }

/-- `small` with the stream `bytes` at position 0 and a scanline of `n` bytes to fill. -/
def filling (n : Nat) (bytes : List Byte) : State :=
  { small with
    nbytes := BitVec.ofNat 32 n, stream := Memory.writeBytes [] 0 bytes, streamLen := BitVec.ofNat 32 bytes.length,
    scratchZeroed := true }

/-- The same, under another ZERO_RUN_POLICY. -/
def fillingUnder (p : Config.ZeroRunPolicy) (n : Nat) (bytes : List Byte) : State :=
  { filling n bytes with params := { small.params with zeroRunPolicy := p } }

/-- A ROWS state at row 0 of an image of `w` by `h` pixels, OUT_BASE 8, as VALIDATE and START leave it. -/
def rowOf (enc bpp np : Byte) (bpl : Half) (w h : Nat) (pitch : Word) (bytes : List Byte) : State :=
  { ({ filling 0 bytes with
        cfgEnc := enc, cfgBpp := bpp, cfgNplanes := np, cfgBpl := bpl, cfgXmax := BitVec.ofNat 16 (w - 1),
        cfgYmax := BitVec.ofNat 16 (h - 1), cfgPitch := pitch, cfgOutBase := 8 } : State).withGeometry with
    runState := .rows }

/-- The PALETTE state of a one-row image. -/
def palOf (bpp np : Byte) (bytes : List Byte) (len : Word) : State :=
  { rowOf 0 bpp np 1 1 1 4 bytes with runState := .palette, rowY := 1, streamLen := len }

/-- Row bytes of `s` after a step. -/
def rowAfter (i : Instr) (s : State) (n : Nat) : Option (List Byte) :=
  shows (exec i s) fun t => Memory.readBytes t.out s.base n

/-- The scratch bytes below `n` after a step, and STREAM_POS. -/
def scratchAfter (i : Instr) (s : State) (n : Nat) : Option (List Byte × Word) :=
  shows (exec i s) fun t => ((List.range n).map t.scratchByte, t.streamPos)

/-- STATUS, FAIL_POS and STREAM_POS after a step. -/
def statusAfter (o : Host.Outcome State Fault Refusal) : Option (Word × Word × Word) :=
  shows o fun t => (t.statusWord, t.failPos, t.streamPos)

/-! ### Codes and fills -/

/-- R133's example: stream `BF`, N = 1. -/
theorem test_lit : scratchAfter .fillRle (filling 1 [0xBF]) 1 = some ([0xBF], 1) := by decide +kernel
/-- R134: the run LIT and RUN set up. -/
theorem test_run : shows (exec (.run 2 0xC8) (filling 4 [0xC2, 0xC8])) (fun t => (t.runCnt, t.runVal, t.streamPos)) =
    some (2, 0xC8, 2) := by decide +kernel
/-- R136: a run past N is cut, and the next request starts anew. -/
theorem test_run_is_cut : scratchAfter .fillRle (filling 2 [0xC5, 7, 9]) 3 = some ([7, 7, 0], 2) := by decide +kernel
/-- R135's example (NOP): N = 2, stream `C0 99 01 02`. -/
theorem test_run0_nop : scratchAfter .fillRle (filling 2 [0xC0, 0x99, 1, 2]) 2 = some ([1, 2], 4) := by decide +kernel
/-- R135 FILL_REST: the value goes to every remaining byte. -/
theorem test_run0_fillRest : scratchAfter .fillRle (fillingUnder .fillRest 3 [5, 0xC0, 9]) 4 = some ([5, 9, 9, 0], 3) := by
  decide +kernel
/-- R131's example: N = 3, stream `C5 00 FF`. -/
theorem test_fillRaw : scratchAfter .fillRaw (filling 3 [0xC5, 0, 0xFF]) 4 = some ([0xC5, 0, 0xFF, 0], 3) := by
  decide +kernel
/-- R131, R266: one byte short; STREAM_POS is rewound, FAIL_POS is where the read began. -/
theorem test_fillRaw_short : statusAfter (exec .fillRaw { filling 4 [1, 2, 3, 4] with streamPos := 1 }) =
    some (0x15, 1, 0) := by decide +kernel
/-- R132's example: N = 4, stream `01 C2 07 09`. -/
theorem test_fillRle : scratchAfter .fillRle (filling 4 [1, 0xC2, 7, 9]) 4 = some ([1, 7, 7, 9], 4) := by decide +kernel
/-- R138: the value byte is missing. -/
theorem test_fillRle_truncated : statusAfter (exec .fillRle (filling 4 [1, 0xC2])) = some (0x15, 2, 0) := by
  decide +kernel

/-! ### Rows -/

/-- R162's example (vector U3): NP = 2, BPL = 1, WIDTH = 6, `CC AA`. -/
theorem test_rowStep_sub : rowAfter .rowStep (rowOf 0 1 2 1 6 1 8 [0xCC, 0xAA]) 8 = some [3, 1, 2, 0, 3, 1, 0, 0] := by
  decide +kernel
/-- R163's example (vector I2), after which IDX8 has its palette step: STATUS 3. -/
theorem test_rowStep_idx8 : rowAfter .rowStep (rowOf 0 8 1 3 5 1 8 [10, 11, 12]) 5 = some [10, 11, 12, 0, 0] ∧
    (statusAfter (exec .rowStep (rowOf 0 8 1 3 5 1 8 [10, 11, 12]))).map (·.1) = some 3 := by decide +kernel

/-- The same row states with the scanline already in the scratch buffer. -/
def scanned (bpp np : Byte) (bpl : Half) (w : Nat) (bytes : List Byte) : State :=
  { rowOf 0 bpp np bpl w 1 32 [] with scratch := Memory.writeBytes [] 0 bytes }

/-- Vector U6. -/
theorem test_unpackSub : rowAfter (.unpackSub 4) (scanned 1 4 1 8 [0x0F, 0x33, 0x55, 0xFF]) 8 =
    some [8, 0xC, 0xA, 0xE, 9, 0xD, 0xB, 0xF] := by decide +kernel
/-- Vector U8: plane 1 starts at Scratch[2]. -/
theorem test_unpackSub_planes : rowAfter (.unpackSub 2) (scanned 1 2 2 9 [0xFF, 0x80, 0, 0x80]) 10 =
    some [1, 1, 1, 1, 1, 1, 1, 1, 3, 0] := by decide +kernel
/-- Vector I3: N > WIDTH. -/
theorem test_unpackIdx8 : rowAfter .unpackIdx8 (scanned 8 1 4 2 [1, 2, 3, 4]) 3 = some [1, 2, 0] := by decide +kernel
/-- R164's example (vector G1). -/
theorem test_unpackRgb24 : rowAfter .unpackRgb24 (scanned 8 3 2 2 [0x10, 0x11, 0x20, 0x21, 0x30, 0x31]) 6 =
    some [0x10, 0x20, 0x30, 0x11, 0x21, 0x31] := by decide +kernel
/-- Vector G4's kind: WIDTH > BPL; the bytes written before the failing check stay (vector G3). -/
theorem test_unpackRgb24_corrupt : rowAfter .unpackRgb24 (scanned 8 3 2 3 [0xA0, 0xA1, 0xA2, 0xA3, 0xA4, 0xA5]) 9 =
      some [0xA0, 0xA2, 0xA4, 0xA1, 0xA3, 0xA5, 0xA2, 0xA4, 0] ∧
    (statusAfter (exec .unpackRgb24 (scanned 8 3 2 3 [0xA0, 0xA1, 0xA2, 0xA3, 0xA4, 0xA5]))).map (·.1) = some 0x35 := by
  decide +kernel
/-- R161: the padding byte 13 of the row keeps its value. -/
theorem test_clearRow : shows (exec .clearRow { scanned 8 1 4 5 [] with out := [(7, 1), (8, 2), (12, 3), (13, 4)] })
    (fun t => t.out) = some [(7, 1), (13, 4)] := by decide +kernel

/-! ### Palettes -/

/-- Vector P1: 4 entries for NP = 2, the fifth untouched. -/
theorem test_palInline : shows (exec .palInline
      { palOf 1 2 [] 0 with inlinePal := ((RgbTable.zero 16).set 3 0xFF0000).set 4 0x123456 })
    (fun t => (t.colorTable.get 3, t.colorTable.get 4, t.ncolors, t.streamPos)) = some (0xFF0000, 0, 4, 0) := by
  decide +kernel
/-- Vectors P5 and P10: bytes before the marker skipped; entry 1 is `11 22 33`. -/
theorem test_palTrailing : shows (exec .palTrailing (palOf 8 1 [0, 0xFF, 0x0B, 0x0C, 0, 0, 0, 0x11, 0x22, 0x33] 772))
    (fun t => (t.colorTable.get 1, t.ncolors, t.streamPos)) = some (0x332211, 256, 772) := by decide +kernel
/-- Vector P9: marker at once, a short table, no fallback. -/
theorem test_palTrailing_short : statusAfter (exec .palTrailing (palOf 8 1 [0x0C] 101)) = some (0x15, 1, 0) := by
  decide +kernel
/-- R231: DONE after the palette (STATUS 4). -/
theorem test_palStep : shows (exec .palStep (palOf 1 1 [] 0)) (fun t => (t.statusWord, t.ncolors)) = some (4, 2) := by
  decide +kernel
/-- R231: not enabled outside PALETTE. -/
theorem test_palStep_not_enabled : shows (exec .palStep small) (fun t => t.statusWord) = some 0 := by decide +kernel

/-! ### Commands and registers -/

/-- Vector C15. -/
theorem test_nop : shows (exec .nop { rowOf 0 1 1 1 8 1 8 [] with ign := true }) (fun t => t.statusWord) = some 2 := by
  decide +kernel

/-- The configuration of R222's example: 8 x 1 pixels of 4 one-bit planes. -/
def configured : State := { small with cfgEnc := 1, cfgBpp := 1, cfgNplanes := 4, cfgBpl := 1, cfgXmax := 7 }

/-- Vector C4 (R222's example). -/
theorem test_validate : shows (exec .validate configured)
    (fun t => (t.statusWord, t.formatWord, t.width, t.height, t.nbytes)) = some (1, 0x00040011, 8, 1, 4) := by
  decide +kernel
/-- Vector C1: the 4-plane 8-bit variant. -/
theorem test_validate_intensity : shows (exec .validate
      { configured with cfgBpp := 8, cfgBpl := 10, cfgXmax := 9, cfgYmax := 9 })
    (fun t => (t.statusWord, t.formatWord, t.width, t.nbytes)) = some (0x25, 0x00200000, 10, 40) := by decide +kernel

/-- A VALIDATED RGB24 image of 2 x 1 pixels (vector C11). -/
def validated24 : State :=
  { rowOf 0 8 3 2 2 1 5 [] with runState := .validated, streamPos := 128, streamLen := 200 }

/-- Vector C11: PITCH 5 is below WIDTH * OUTB. -/
theorem test_start_pitch : statusAfter (exec .start validated24) = some (0x55, 128, 0) := by decide +kernel
/-- R223: one byte more and the decode starts. -/
theorem test_start : statusAfter (exec .start { validated24 with cfgPitch := 6 }) = some (2, 0, 128) := by decide +kernel
/-- Vector C23. -/
theorem test_clear : statusAfter (exec .clear { small with runState := .failed, err := some .truncated, failPos := 9 }) =
    some (0, 9, 0) := by decide +kernel
/-- Vector C14: no cancellation. -/
theorem test_clear_while_busy : shows (exec .clear (rowOf 0 1 1 1 8 1 8 [])) (fun t => t.statusWord) = some 0x102 := by
  decide +kernel
/-- Vector C16. -/
theorem test_reserved : shows (exec (.reservedCmd 1) small) (fun t => t.statusWord) = some 0x100 := by decide +kernel
/-- Vector C21: unheld bits are dropped. -/
theorem test_write_drops_unheld_bits : shows (step { small with inbox := [.write 0x02C 0x12345678] })
    (fun t => (readReg .cfgBpl t, t.statusWord)) = some (0x5678, 0) := by decide +kernel
/-- Vectors C18 and C19: after VALIDATE, CFG_BPP is fixed, CFG_PITCH is not. -/
theorem test_write_windows : shows (step { validated24 with inbox := [.write 0x024 1] })
      (fun t => (t.cfgBpp, t.ign)) = some (8, true) ∧
    shows (step { validated24 with inbox := [.write 0x040 16] }) (fun t => (t.cfgPitch, t.ign)) = some (16, false) := by
  decide +kernel
/-- R66: the low bits of the offset are ignored; R21: INLINE_PAL[15] is at 0x13C. -/
theorem test_read : shows (step { small with inlinePal := (RgbTable.zero 16).set 15 0xABCDEF, inbox := [.read 0x13E] })
    (fun t => t.rdata) = some 0xABCDEF := by decide +kernel
/-- Vector C24. -/
theorem test_reset_while_busy : shows (step
      { rowOf 0 1 1 1 8 9 8 [] with rowY := 3, streamPos := 500, streamLen := 600, out := [(9, 7)], inbox := [.reset] })
    (fun t => (t.statusWord, t.rowY, t.streamPos, t.out)) = some (0, 0, 0, [(9, 7)]) := by decide +kernel
/-- R77: a stream byte outside the stream in use is no race. -/
theorem test_store_outside_stream : shows (step { rowOf 0 1 1 1 8 1 8 [1] with inbox := [.storeStream 1 9] })
    (fun t => (Memory.read t.stream 1, t.raceCount)) = some (9, 0) := by decide +kernel
/-- R75: the host sees what the engine has written. -/
theorem test_load : shows (step { small with out := [(9, 7)], inbox := [.loadSurface 9] }) (fun t => t.rdata) = some 7 := by
  decide +kernel
/-- R75, R296: a pixel byte the host stores in ROWS still loads as stored while the block is busy, and is listed. -/
theorem test_race_while_busy : shows (step { rowOf 0 1 1 1 8 1 8 [1] with inbox := [.storeSurface 15 9] })
      (fun t => (t.surfaceByte 15, t.outRaced)) = some (9, [(15, 0)]) ∧
    shows (step { rowOf 0 1 1 1 8 1 8 [1] with inbox := [.storeSurface 16 9] })
      (fun t => (t.surfaceByte 16, t.outRaced)) = some (9, []) := by decide +kernel
/-- R233: a decode begins with no race listed. -/
theorem test_race_ends_at_start : shows (exec .start { validated24 with cfgPitch := 6, outRaced := [(8, 0)] })
    (fun t => (t.statusWord, t.outRaced)) = some (2, []) := by decide +kernel
/-- R113, R240 (vectors H1 to H3). -/
theorem test_probe : probe (List.replicate 100 0) = false ∧
    probe ([10, 4, 1] ++ List.replicate 125 0) = false ∧ probe ([10, 5, 1] ++ List.replicate 125 0) = true := by
  decide +kernel

/-! ### A table word where step takes it -/

/-- A command. -/
theorem test_fetch_command : shows (step (State.reset.withFetchWord 8 4)) (fun t => t.statusWord) = some 0x100 := by
  decide +kernel
/-- A code: one row of one pixel, of which it is the first code. -/
theorem test_fetch_code : shows (step (State.reset.withFetchWord 16 0x11C1)) (fun t => (t.runVal, t.streamPos, t.rowY)) =
    some (0x11, 2, 1) := by decide +kernel
/-- A layout key. -/
theorem test_fetch_layout : shows (step (State.reset.withFetchWord 16 0x803)) (fun t => (t.statusWord, t.streamPos)) =
    some (4, 3) := by decide +kernel

/-! ### Premises are met

One theorem for each obligation with premises, `test_premises_<obligation>`: a state and operands that meet them, for
every clause, at the bounds of its range. -/

theorem test_premises_DecodeEncodeRoundTrip : (Instr.run 63 0xFF).wellFormed = true := by decide

theorem test_premises_EncodeDecodeRoundTrip : decode .code [0xC1, 0xFF, 9] = .ok (.run 1 0xFF) [9] ∧
    decode .fill [1, 9] = .ok .fillRle [9] ∧ decode .layout [3, 8] = .ok .unpackRgb24 [] ∧
    decode .rowClear [9] = .ok .clearRow [9] := by decide

/-- The three kinds of control byte at their bounds. -/
theorem test_premises_EveryControlByteIsACode : decode .code [0xBF, 1] = .ok (.lit 0xBF) [1] ∧
    decode .code [0xC0, 1] = .ok (.run0 1) [] ∧ decode .code [0xC1, 1] = .ok (.run 1 1) [] := by decide

theorem test_premises_CommandWriteRunsDecodedInstruction :
    ({ small with inbox := [.write 3 0xFFFFFFF9, .wait] } : State).inbox = [.write 3 0xFFFFFFF9, .wait] ∧
    (3 : BitVec 12).toNat < 4 ∧ decode .command (wordBytes 0xFFFFFFF9) = .ok .validate [] := by decide

/-- A step enabled, in each way it can come; none enabled, in each way. -/
theorem test_premises_EngineTurnRunsDecodedStep :
    decode .engine [0#5 ++ (rowOf 0 8 1 1 1 1 1 [7]).runState.code] = .ok .rowStep [] ∧
    decode .engine [0#5 ++ (palOf 1 1 [] 0).runState.code] = .ok .palStep [] ∧
    decode .engine [0#5 ++ small.runState.code] = .reject .noEngineStep ∧
    (rowOf 0 8 1 1 1 1 1 [7]).inbox = [] ∧ small.inbox = [] ∧
    ({ palOf 1 1 [] 0 with inbox := [.engineTurn] } : State).inbox = [.engineTurn] := by decide +kernel

/-- A one-byte code at the very end of the stream; a run code cannot stand there. -/
theorem test_premises_FillPassRunsDecodedCode :
    (filling 2 [9]).runCnt = 0 ∧ (filling 2 [9]).fillI.toNat < (filling 2 [9]).n ∧
    (filling 2 [9]).streamPos.toNat < (filling 2 [9]).streamLen.toNat ∧
    decode .code (Memory.readBytes (filling 2 [9]).stream 0 (min 2 (1 - 0))) = .ok (.lit 9) [] ∧
    decode .code (Memory.readBytes (filling 2 [0xC2, 9]).stream 0 (min 2 (2 - 0))) = .ok (.run 2 9) [] := by
  decide +kernel

theorem test_premises_ResetInputClearsEveryRegister :
    ({ rowOf 0 1 1 1 8 1 8 [] with inbox := [.reset] } : State).inbox = [.reset] := by decide +kernel

theorem test_premises_UnacceptedCommandSetsIgnOnly : (rowOf 0 1 1 1 8 1 8 []).runState ≠ .idle ∧
    (rowOf 0 1 1 1 8 1 8 []).runState ≠ .validated ∧ (rowOf 0 1 1 1 8 1 8 []).runState = .rows ∧
    (palOf 1 1 [] 0).runState = .palette := by decide +kernel

theorem test_premises_ClearReturnsToIdle : small.runState = .idle ∧ validated24.runState = .validated ∧
    ({ small with runState := .done } : State).runState = .done ∧
    ({ small with runState := .failed } : State).runState = .failed := by decide +kernel

/-- IDLE, and a state for each outcome: ENC 2, a pair that is not listed, one column too few, one byte too many for the
scratch buffer, and exactly as many. -/
theorem test_premises_ValidateComputesGeometryAndChecks : configured.runState = .idle ∧
    1 < ({ configured with cfgEnc := 2 } : State).cfgEnc.toNat ∧
    (layoutTable ({ configured with cfgBpp := 2 } : State).cfgBpp configured.cfgNplanes).1 = .none ∧
    ({ configured with cfgXmin := 8 } : State).cfgXmax.toInt < ({ configured with cfgXmin := 8 } : State).cfgXmin.toInt ∧
    (statusAfter (exec .validate { configured with cfgBpl := 5 })).map (·.1) = some 0x45 ∧
    (statusAfter (exec .validate { configured with cfgBpl := 4 })).map (·.1) = some 1 := by decide +kernel

theorem test_premises_LayoutTableListsSixPairs : layoutTable 1 1 = (.sub, 1) ∧ layoutTable 1 4 = (.sub, 1) ∧
    layoutTable 1 5 = (.none, 0) ∧ layoutTable 8 1 = (.idx8, 1) ∧ layoutTable 8 3 = (.rgb24, 3) ∧
    layoutTable 8 4 = (.none, 0) := by decide

/-- The smallest image, with a scanline of no byte and one that fills the scratch buffer. -/
theorem test_premises_ValidateCompletes :
    let s : State := { configured with cfgXmax := 0, cfgBpl := 0xFFFF }
    let u : State := { configured with cfgBpl := 4 }
    s.runState = .idle ∧ s.cfgEnc = 1 ∧ (layoutTable s.cfgBpp s.cfgNplanes).1 ≠ .none ∧
    s.cfgXmin.toInt ≤ s.cfgXmax.toInt ∧ s.cfgYmin.toInt ≤ s.cfgYmax.toInt ∧
    (if 0 < s.cfgBpl.toInt then s.cfgNplanes.toNat * s.cfgBpl.toInt else 0) ≤ s.params.scratchCap ∧
    (if 0 < u.cfgBpl.toInt then u.cfgNplanes.toNat * u.cfgBpl.toInt else 0) = u.params.scratchCap := by decide +kernel

/-- VALIDATED, one state for each outcome: the pitch one byte short, the surface one byte too long, and neither. -/
theorem test_premises_StartChecksSurface : validated24.runState = .validated ∧
    (validated24.cfgPitch.toNat : Int) < validated24.width.toInt * validated24.outb.toNat ∧
    (statusAfter (exec .start { validated24 with cfgPitch := 6, cfgOutBase := 59 })).map (·.1) = some 0x55 ∧
    (statusAfter (exec .start { validated24 with cfgPitch := 6, cfgOutBase := 58 })).map (·.1) = some 2 := by
  decide +kernel

/-- The largest literal, at the end of the stream and of the scanline. -/
theorem test_premises_LiteralEmitsItsByteOnce : (0xBF : Byte).toNat < 0xC0 ∧ (filling 1 [0xBF]).streamHolds [0xBF] ∧
    (filling 1 [0xBF]).runCnt = 0 ∧ (filling 1 [0xBF]).fillI.toNat < (filling 1 [0xBF]).n ∧
    (filling 1 [0xBF]).n ≤ (filling 1 [0xBF]).params.scratchCap := by
  unfold State.streamHolds State.readable; decide +kernel

/-- A run of 63 that is cut after one byte. -/
theorem test_premises_RunEmitsItsByteUpToTheCount : (63 : BitVec 6) ≠ 0 ∧
    (filling 1 [0xFF, 5]).streamHolds [3#2 ++ (63 : BitVec 6), 5] ∧ (filling 1 [0xFF, 5]).runCnt = 0 ∧
    (filling 1 [0xFF, 5]).fillI.toNat < (filling 1 [0xFF, 5]).n ∧
    (filling 1 [0xFF, 5]).n ≤ (filling 1 [0xFF, 5]).params.scratchCap := by
  unfold State.streamHolds State.readable; decide +kernel

/-- Under each policy. -/
theorem test_premises_ZeroRunFollowsThePolicy :
    ∀ p : Config.ZeroRunPolicy, (fillingUnder p 2 [0xC0, 9]).params.zeroRunPolicy = p ∧
    (fillingUnder p 2 [0xC0, 9]).streamHolds [0xC0#8, 9] ∧
    (fillingUnder p 2 [0xC0, 9]).fillI.toNat ≤ (fillingUnder p 2 [0xC0, 9]).n ∧
    (fillingUnder p 2 [0xC0, 9]).n ≤ (fillingUnder p 2 [0xC0, 9]).params.scratchCap := by
  unfold State.streamHolds State.readable
  intro p
  cases p <;> decide +kernel

theorem test_premises_MissingValueByteIsTruncated : (filling 2 [0xC0]).readable 1 ∧
    (filling 2 [0xC0]).streamPos.toNat + 1 = (filling 2 [0xC0]).streamLen.toNat := by
  unfold State.readable; decide +kernel

/-- Exactly N bytes, and one fewer. -/
theorem test_premises_FillRawCopiesTheScanline : (filling 3 [1, 2, 3]).readable (filling 3 [1, 2, 3]).n ∧
    (filling 3 [1, 2, 3]).n ≤ (filling 3 [1, 2, 3]).params.scratchCap ∧
    (filling 3 [1, 2]).streamLen.toNat < (filling 3 [1, 2]).streamPos.toNat + (filling 3 [1, 2]).n := by
  unfold State.readable; decide +kernel

/-- A literal, a RUN0 and a run that is cut. -/
theorem test_premises_FillRleDecodesTheCodes :
    let s := filling 3 [1, 0xC0, 9, 0xC5, 7]
    fillsWith s.params.zeroRunPolicy s.n [.lit 1, .run0 9] (.run 5 7) ∧
    s.streamHolds (codeBytes ([.lit 1, .run0 9] ++ [.run 5 7])) ∧ s.n ≤ s.params.scratchCap := by
  unfold fillsWith State.streamHolds State.readable; decide +kernel

theorem test_premises_EmptyRequestReadsNothing : (filling 0 [1]).n = 0 ∧
    (filling 0 [1]).streamPos.toNat ≤ (filling 0 [1]).streamLen.toNat := by decide +kernel

/-- A request for each end: filled, truncated, corrupt. -/
theorem test_premises_FillRleAlwaysEnds :
    let ok := filling 1 [1]
    let short := filling 1 []
    let bad := fillingUnder .corrupt 1 [0xC0, 1]
    (ok.n ≤ ok.params.scratchCap ∧ ok.streamGuarantee ∧ ok.streamPos.toNat ≤ ok.streamLen.toNat) ∧
    (short.n ≤ short.params.scratchCap ∧ short.streamGuarantee ∧ short.streamPos.toNat ≤ short.streamLen.toNat) ∧
    bad.n ≤ bad.params.scratchCap ∧ bad.streamGuarantee ∧ bad.streamPos.toNat ≤ bad.streamLen.toNat := by
  unfold State.streamGuarantee; decide +kernel

/-- A run of one high byte, and a run split across two control bytes with a literal after it. -/
theorem test_premises_FillCodesRoundTrip :
    let one := filling 1 [0xC1, 0xFE]
    let split : State :=
      { filling 66 [0xFF, 5, 0xC2, 5, 9] with params := { small.params with scratchCap := 66 } }
    (1 + (emittedAll []).length = one.n ∧ one.streamHolds (codeBytes (fillCodes 1 0xFE ++ [])) ∧
      one.n ≤ one.params.scratchCap) ∧
    (∀ c ∈ [Instr.lit 9], emitsAlways c = true) ∧ 65 + (emittedAll [.lit 9]).length = split.n ∧
    split.streamHolds (codeBytes (fillCodes 65 5 ++ [.lit 9])) ∧ split.n ≤ split.params.scratchCap := by
  unfold State.streamHolds State.readable; decide +kernel

/-- The row ends where the output space ends. -/
theorem test_premises_ClearRowZeroesThePixelBytes : (scanned 1 1 7 56 []).rowFits ∧
    (scanned 1 1 7 56 []).base + (scanned 1 1 7 56 []).rowBytes = small.params.outSize := by
  unfold State.rowFits; decide +kernel

theorem test_premises_UnpackSubOrsThePlaneBits :
    let s := scanned 1 4 4 56 [1, 2]
    (4 : Byte).toNat ≤ 4 ∧ (4 : Byte).toNat * s.bpl.toNat ≤ s.params.scratchCap ∧
    s.base + s.width.toInt.toNat ≤ s.params.outSize := by decide +kernel

theorem test_premises_SubPixelsAreBelowTwoToThePlanes :
    let s := scanned 1 4 1 8 [0x0F, 0x33, 0x55, 0xFF]
    (4 : Byte).toNat ≤ 4 ∧ s.outb = 1 ∧ (shows (exec .clearRow s) fun t => shows (exec (.unpackSub 4) t) fun _ => 7) =
      some (some 7) ∧ 7 < s.width.toInt.toNat := by decide +kernel

/-- A scanline as long as the scratch buffer, narrower and wider than the row. -/
theorem test_premises_UnpackIdx8CopiesTheScanline :
    let s := scanned 8 1 16 15 [1, 2]
    let u := scanned 8 1 16 17 [1, 2]
    (min s.width.toInt.toNat s.n ≤ s.params.scratchCap ∧
      s.base + min s.width.toInt.toNat s.n ≤ s.params.outSize) ∧
    min u.width.toInt.toNat u.n = u.params.scratchCap ∧
    u.base + min u.width.toInt.toNat u.n ≤ u.params.outSize := by decide +kernel

/-- Planes of exactly WIDTH bytes. -/
theorem test_premises_UnpackRgb24Interleaves :
    let s := scanned 8 3 5 5 [1, 2, 3]
    1 ≤ s.bpl ∧ s.width.toInt ≤ s.bpl ∧ (s.n : Int) = 3 * s.bpl ∧ s.n ≤ s.params.scratchCap ∧
    3 * s.width.toInt.toNat ≤ s.cfgPitch.toNat ∧ s.base + 3 * s.width.toInt.toNat ≤ s.params.outSize := by
  decide +kernel

/-- No plane byte at all, one column too many, and neither. -/
theorem test_premises_UnpackRgb24CorruptExactlyWhenPlaneShort :
    ∀ s ∈ [scanned 8 3 0 1 [], scanned 8 3 5 6 [], scanned 8 3 5 5 []],
    1 ≤ s.width.toInt ∧ (s.n : Int) = (if 0 < s.bpl then 3 * s.bpl else 0) ∧ s.n ≤ s.params.scratchCap ∧
    3 * s.width.toInt.toNat ≤ s.cfgPitch.toNat ∧ s.base + 3 * s.width.toInt.toNat ≤ s.params.outSize := by
  decide +kernel

/-- Two states that differ in the scratch byte just past the scanline, in a pixel byte of OUT and in the stream. -/
theorem test_premises_UnpackDependsOnScanlineOnly :
    let s := scanned 8 1 2 2 [1, 2, 3]
    let u : State :=
      { s with scratch := Memory.writeBytes [] 0 [1, 2, 4], stream := [(0, 7)], runVal := 9,
               out := Memory.write s.out s.base 5 }
    s.n = s.scanBytes ∧ (∀ j, j < s.n → u.scratchByte j = s.scratchByte j) ∧ u.scratchByte 2 ≠ s.scratchByte 2 ∧
    Memory.read u.out s.base ≠ Memory.read s.out s.base ∧
    (shows (exec .clearRow s) fun s1 => shows (exec .unpackIdx8 s1) fun _ => 0) = some (some 0) := by decide +kernel

theorem test_premises_PalInlineCopiesTheHeaderPalette : (palOf 1 4 [] 0).srcBits.toNat = 4 := by decide +kernel

/-- A marker after one other byte, and the shortest stream that holds the table. -/
theorem test_premises_PalTrailingReadsTheTableAfterTheMarker :
    let s := palOf 8 1 [11, 12] 770
    s.readable (1 + 1 + 768) ∧ (∀ j, j < 1 → Memory.read s.stream (s.streamPos.toNat + j) ≠ 12) ∧
    Memory.read s.stream (s.streamPos.toNat + 1) = 12 := by
  unfold State.readable; decide +kernel

/-- No marker in the 768 bytes of the stream, of which the first has been read. -/
theorem test_premises_PalTrailingFallsBackToTheEnd :
    let s : State := { palOf 8 1 [] 768 with streamPos := 1 }
    s.streamGuarantee ∧ 768 ≤ s.streamLen.toNat ∧
    ∀ a, s.streamPos.toNat ≤ a → a < s.streamLen.toNat → Memory.read s.stream a ≠ 12 :=
  ⟨by unfold State.streamGuarantee; decide +kernel, by decide +kernel, fun a _ _ => by
    have : Memory.read [] a ≠ 12 := by simp [Memory.read, Memory.lookup, Memory.unlisted]
    exact this⟩

/-- A marker with 767 bytes after it; no marker in 767 bytes. -/
theorem test_premises_PalTrailingTruncated :
    let s := palOf 8 1 [11, 12] 769
    let u := palOf 8 1 [] 767
    (s.streamGuarantee ∧ s.streamPos.toNat ≤ s.streamLen.toNat ∧ s.streamPos.toNat + 1 < s.streamLen.toNat ∧
      s.streamLen.toNat < s.streamPos.toNat + 1 + 1 + 768 ∧
      (∀ j, j < 1 → Memory.read s.stream (s.streamPos.toNat + j) ≠ 12) ∧
      Memory.read s.stream (s.streamPos.toNat + 1) = 12) ∧
    u.streamGuarantee ∧ u.streamPos.toNat ≤ u.streamLen.toNat ∧ u.streamLen.toNat < 768 ∧
    ∀ a, u.streamPos.toNat ≤ a → a < u.streamLen.toNat → Memory.read u.stream a ≠ 12 :=
  ⟨by unfold State.streamGuarantee; decide +kernel, by unfold State.streamGuarantee; decide +kernel,
    by decide +kernel, by decide +kernel, fun a _ _ => by
    have : Memory.read [] a ≠ 12 := by simp [Memory.read, Memory.lookup, Memory.unlisted]
    exact this⟩

/-- The invariant of a ROWS or PALETTE state, less the colour table, as a test that can be run. -/
def busyInv (s : State) : Bool :=
  decide (Memory.wf s.stream = true ∧ Memory.wf s.out = true ∧ Memory.sorted s.scratch = true ∧
    Memory.wf s.scratch = true) &&
  decide (s.err = none ∧ s.ncolors = 0 ∧ (s.runState = .rows ∨ s.runState = .palette) ∧ (s.cfgEnc = 0 ∨ s.cfgEnc = 1)) &&
  decide (s.layout = (layoutTable s.cfgBpp s.cfgNplanes).1 ∧ s.outb = (layoutTable s.cfgBpp s.cfgNplanes).2 ∧
    s.layout ≠ .none ∧ s.srcBits.toNat = s.bpp * s.np) &&
  decide (s.w = s.boxWidth ∧ s.h = s.boxHeight ∧ 1 ≤ s.w ∧ 1 ≤ s.h) &&
  decide (s.n = s.scanBytes ∧ s.n ≤ s.params.scratchCap ∧ s.scratchZeroed = true) &&
  decide (s.rowBytes ≤ s.cfgPitch.toNat ∧ s.rowBase (s.h.toNat - 1) + s.rowBytes ≤ s.params.outSize) &&
  decide ((s.runState = .rows → (s.rowY.toNat : Int) < s.h) ∧
    (s.runState = .palette → (s.rowY.toNat : Int) = s.h ∧ (s.layout = .sub ∨ s.layout = .idx8)))

theorem busyInv_inv {s : State} (hz : s.colorTable = RgbTable.zero 256) (h : busyInv s = true) : s.Inv := by
  simp only [busyInv, Bool.and_eq_true, decide_eq_true_eq] at h
  obtain ⟨⟨⟨⟨⟨⟨⟨a1, a2, a3, a4⟩, b1, b2, b3, b4⟩, c1, c2, c3, c4⟩, d1, d2, d3, d4⟩, e1, e2, e3⟩, f1, f2⟩, g1, g2⟩ := h
  refine ⟨a1, a2, a3, fun _ => a4, ?_, fun i _ => by rw [hz]; exact RgbTable.get_zero 256 i, fun _ _ => b2,
    fun _ _ => ⟨b4, c1, c2, c3, c4, d1, d2, d3, d4, e1, e2, e3⟩, fun _ => ⟨f1, f2⟩, g1, fun hh => ?_, fun hh => (g2 hh).2⟩
  · rw [b1]
    rcases b3 with hr | hr <;> rw [hr] <;> decide
  · rcases hh with hh | hh
    · exact (g2 hh).1
    · rcases b3 with hr | hr <;> rw [hr] at hh <;> cases hh

/-- A sub-byte row in RLE mode, its last scanline ending the stream. -/
def subRow : State := rowOf 1 1 2 1 6 1 6 [0xC1, 0xCC, 0xC5, 0xAA]

/-- The same row ended by a RUN0 under FILL_REST. -/
def subRestRow : State :=
  { rowOf 1 1 2 1 6 1 6 [0xC1, 0xCC, 0xC0, 0xAA] with params := { small.params with zeroRunPolicy := .fillRest } }

theorem test_premises_RowStepDecodesSubRow :
    (subRow.Inv ∧ subRow.runState = .rows ∧ subRow.layout = .sub ∧ subRow.fillsTo [0xCC, 0xAA] 4) ∧
    subRestRow.Inv ∧ subRestRow.runState = .rows ∧ subRestRow.layout = .sub ∧ subRestRow.fillsTo [0xCC, 0xAA] 4 :=
  ⟨⟨busyInv_inv rfl (by decide +kernel), rfl, by decide +kernel, by decide +kernel, .inr (.inr (.inl ⟨rfl,
      [.run 1 0xCC], .run 5 0xAA, by unfold fillsWith; decide +kernel,
      by unfold State.streamHolds State.readable; decide +kernel, by decide +kernel, by decide +kernel⟩))⟩,
    busyInv_inv rfl (by decide +kernel), rfl, by decide +kernel, by decide +kernel, .inr (.inr (.inr ⟨rfl,
      [.run 1 0xCC], 0xAA, by unfold restFills; decide +kernel,
      by unfold State.streamHolds State.readable; decide +kernel, by decide +kernel, by decide +kernel⟩))⟩

/-- Row 1 of 2, in raw mode. -/
def idxRow : State := { rowOf 0 8 1 3 5 2 5 [1, 2, 3, 10, 11, 12] with rowY := 1, streamPos := 3 }

theorem test_premises_RowStepDecodesIdx8Row : idxRow.Inv ∧ idxRow.runState = .rows ∧ idxRow.layout = .idx8 ∧
    idxRow.fillsTo [10, 11, 12] 3 :=
  ⟨busyInv_inv rfl (by decide +kernel), rfl, by decide +kernel, by decide +kernel, .inl ⟨rfl, by
    unfold State.streamHolds State.readable; decide +kernel, by decide +kernel⟩⟩

/-- A 24-bit row of `w` columns whose planes have `bpl` bytes. -/
def rgbRow (bpl : Half) (w : Nat) (bytes : List Byte) : State := rowOf 0 8 3 bpl w 1 9 bytes

/-- Planes of exactly WIDTH bytes, planes one byte short, and planes of none. -/
theorem test_premises_RowStepDecodesRgb24Row :
    ((rgbRow 1 1 [1, 2, 3]).Inv ∧ (rgbRow 1 1 [1, 2, 3]).layout = .rgb24 ∧ (rgbRow 1 1 [1, 2, 3]).fillsTo [1, 2, 3] 3 ∧
      (rgbRow 1 1 [1, 2, 3]).width.toInt ≤ (rgbRow 1 1 [1, 2, 3]).bpl) ∧
    ((rgbRow 1 2 [1, 2, 3]).Inv ∧ (rgbRow 1 2 [1, 2, 3]).layout = .rgb24 ∧ (rgbRow 1 2 [1, 2, 3]).fillsTo [1, 2, 3] 3 ∧
      (rgbRow 1 2 [1, 2, 3]).bpl < (rgbRow 1 2 [1, 2, 3]).width.toInt) ∧
    (rgbRow 0 1 []).Inv ∧ (rgbRow 0 1 []).layout = .rgb24 ∧ (rgbRow 0 1 []).fillsTo [] 0 ∧
      (rgbRow 0 1 []).bpl < (rgbRow 0 1 []).width.toInt := by
  refine ⟨⟨busyInv_inv rfl (by decide +kernel), by decide +kernel, ⟨by decide +kernel, .inl ⟨rfl, ?_, by decide +kernel⟩⟩,
      by decide +kernel⟩,
    ⟨busyInv_inv rfl (by decide +kernel), by decide +kernel, ⟨by decide +kernel, .inl ⟨rfl, ?_, by decide +kernel⟩⟩,
      by decide +kernel⟩,
    busyInv_inv rfl (by decide +kernel), by decide +kernel, ⟨by decide +kernel, .inl ⟨rfl, ?_, by decide +kernel⟩⟩,
      by decide +kernel⟩ <;>
  · unfold State.streamHolds State.readable
    decide +kernel

/-- The RLE rows of program P5 (N = 3), under policy `p`, with the stream `bytes` ahead. -/
def shortRow (p : Config.ZeroRunPolicy) (bytes : List Byte) : State :=
  { rowOf 1 8 1 3 3 2 5 bytes with params := { small.params with zeroRunPolicy := p } }

/-- One byte short of a raw row; STREAM_POS past the stream's end; P5's row 2, its one code `01` and then nothing; that
code and a control byte without its value; that code and a RUN0 under CORRUPT. -/
theorem test_premises_ShortRowIsTruncatedBeforeClearing :
    let raw := rgbRow 1 1 [1, 2]
    let past : State := { shortRow .nop [] with streamPos := 1 }
    let rle := shortRow .nop [1]
    let cut := shortRow .nop [1, 0xC0]
    let bad := shortRow .corrupt [1, 0xC0, 9]
    (raw.runState = .rows ∧ raw.cfgEnc = 0 ∧ raw.streamLen.toNat < raw.streamPos.toNat + raw.n) ∧
    (past.runState = .rows ∧ past.cfgEnc = 1 ∧ 0 < past.n ∧ past.streamLen.toNat ≤ past.streamPos.toNat) ∧
    (rle.runState = .rows ∧ rle.cfgEnc = 1 ∧ rle.n ≤ rle.params.scratchCap) ∧
    (∀ p, ∀ i ∈ [Instr.lit 1], plainCode p i = true) ∧ (emittedAll [.lit 1]).length < rle.n ∧
    (rle.streamHolds (codeBytes [.lit 1] ++ []) ∧
      rle.streamPos.toNat + (codeBytes [.lit 1] ++ []).length = rle.streamLen.toNat) ∧
    (cut.streamHolds (codeBytes [.lit 1] ++ [0xC0]) ∧ 0xC0 ≤ (0xC0 : Byte).toNat ∧
      cut.streamPos.toNat + (codeBytes [.lit 1] ++ [0xC0]).length = cut.streamLen.toNat) ∧
    bad.params.zeroRunPolicy = .corrupt ∧ bad.streamHolds (codeBytes ([.lit 1] ++ [.run0 9])) := by
  refine ⟨by decide +kernel, by decide +kernel, by decide +kernel, fun p => by cases p <;> decide, ?_⟩
  unfold State.streamHolds State.readable
  decide +kernel

/-- A step, and a byte of the space just past the row, which is none of the row's. -/
theorem test_premises_RowStepWritesOnlyItsRow : subRow.Inv ∧ (shows (exec .rowStep subRow) fun _ => 0) = some 0 ∧
    ¬subRow.inRow 14 :=
  ⟨busyInv_inv rfl (by decide +kernel), by decide +kernel, by unfold State.inRow; decide +kernel⟩

/-- Inline; a whole table after the marker, one byte fewer; no marker in 768 bytes, and in 767. -/
theorem test_premises_PalStepFillsTheTableAndEnds :
    let sub := palOf 1 4 [] 0
    let whole := palOf 8 1 [11, 12] 770
    let short := palOf 8 1 [11, 12] 769
    let last := palOf 8 1 [] 768
    let none := palOf 8 1 [] 767
    (sub.Inv ∧ sub.runState = .palette ∧ sub.layout = .sub) ∧
    (whole.Inv ∧ whole.runState = .palette ∧ whole.layout = .idx8 ∧ whole.readable (1 + 1 + 768) ∧
      (∀ b, 0 ≤ b → b < 0 + 1 → Memory.read whole.stream b ≠ 12) ∧ Memory.read whole.stream (0 + 1) = 12) ∧
    (short.Inv ∧ short.readable (1 + 1) ∧ short.streamLen.toNat < short.streamPos.toNat + 1 + 769) ∧
    (last.Inv ∧ last.streamGuarantee ∧ 768 ≤ last.streamLen.toNat ∧
      ∀ b, 0 ≤ b → b < 768 → Memory.read last.stream b ≠ 12) ∧
    none.Inv ∧ none.streamGuarantee ∧ none.streamLen.toNat < 768 := by
  have hz : ∀ b, Memory.read [] b ≠ 12 := by simp [Memory.read, Memory.lookup, Memory.unlisted]
  refine ⟨⟨busyInv_inv rfl ?_, rfl, ?_⟩, ⟨busyInv_inv rfl ?_, rfl, ?_, ?_, fun b _ hb => by
      obtain rfl : b = 0 := by omega
      decide +kernel, ?_⟩,
    ⟨busyInv_inv rfl ?_, ?_, ?_⟩, ⟨busyInv_inv rfl ?_, ?_, ?_, fun b _ _ => hz b⟩, busyInv_inv rfl ?_, ?_, ?_⟩
  all_goals first | decide +kernel | (unfold State.readable; decide +kernel) |
    (unfold State.streamGuarantee; decide +kernel)

/-- Two rows ahead. -/
theorem test_premises_RowsEndAfterHeightSteps :
    let s : State := { idxRow with rowY := 0, streamPos := 0 }
    s.Inv ∧ s.runState = .rows ∧ s.inbox = [] ∧ s.streamGuarantee ∧ s.height.toInt.toNat - s.rowY.toNat = 2 :=
  ⟨busyInv_inv rfl (by decide +kernel), rfl, rfl, by unfold State.streamGuarantee; decide +kernel, by decide +kernel⟩

/-- A stream that differs in the byte just past STREAM_LEN. -/
theorem test_premises_BytesPastStreamLenHaveNoInfluence :
    let m := Memory.write subRow.stream 4 9
    (∀ a, a < subRow.streamLen.toNat → Memory.read m a = Memory.read subRow.stream a) ∧
    Memory.read m 4 ≠ Memory.read subRow.stream 4 ∧ (shows (exec .rowStep subRow) fun _ => 0) = some 0 ∧
    (shows (exec .palStep (palOf 1 1 [] 0)) fun _ => 0) = some 0 := by decide +kernel

/-- A row that ends exactly at STREAM_LEN, and a step that fails. -/
theorem test_premises_EngineStepKeepsStreamPosInStream : subRow.streamPos.toNat ≤ subRow.streamLen.toNat ∧
    (shows (exec .rowStep subRow) fun t => decide (t.streamPos = t.streamLen)) = some true ∧
    (shows (exec .rowStep (rgbRow 1 2 [1, 2, 3])) fun t => t.runState) = some .failed := by decide +kernel

theorem test_premises_NoInstructionWritesConfiguration :
    (shows (exec .validate configured) fun _ => 0) = some 0 ∧ (shows (exec .rowStep subRow) fun _ => 0) = some 0 := by
  decide +kernel

theorem test_premises_OnlyValidateWritesDerivedRegisters :
    (shows (exec .start { validated24 with cfgPitch := 6 }) fun _ => 0) = some 0 ∧ Instr.start ≠ .validate := by
  decide +kernel

/-- A step that goes on, and one that fails and writes FAIL_POS. -/
theorem test_premises_FailPosChangesOnlyInFailure : (shows (exec .rowStep subRow) fun t => t.failPos) = some 0 ∧
    (shows (exec .rowStep (rgbRow 1 2 [1, 2, 3])) fun t => t.failPos) = some 3 := by decide +kernel

theorem test_premises_FailedIsLeftOnlyByClear :
    let s : State := { small with runState := .failed, err := some .corrupt }
    (shows (exec .validate s) fun _ => 0) = some 0 ∧ s.runState = .failed ∧ Instr.validate ≠ .clear := by
  decide +kernel

theorem test_premises_NoCommandDisturbsBusyBlock : subRow.runState = .rows ∧ (palOf 1 1 [] 0).runState = .palette ∧
    ({ subRow with inbox := [.write 3 3] } : State).inbox = [.write 3 3] ∧ (3 : BitVec 12).toNat < 4 := by
  decide +kernel

/-- CFG_ENC in IDLE, where it is accepted, and in VALIDATED, where it is not; CFG_PITCH, the other way round in
VALIDATED; a reserved offset. -/
theorem test_premises_HostWriteFollowsItsWindow : regAt 0x020 ≠ .cmd ∧
    accepts (regAt 0x020) small.runState = true ∧ accepts (regAt 0x020) validated24.runState = false ∧
    accepts (regAt 0x040) validated24.runState = true ∧ accepts (regAt 0x040) subRow.runState = false ∧
    regAt 0x058 ≠ .cmd ∧ accepts (regAt 0x058) small.runState = false ∧
    ({ small with inbox := [.write 0x020 1] } : State).inbox = [.write 0x020 1] := by decide +kernel

theorem test_premises_HostReadHasNoSideEffect :
    ({ small with inbox := [.read 0x7FF] } : State).inbox = [.read 0x7FF] := by decide +kernel

/-- The first and the last offset of each reserved range, and their neighbours. -/
theorem test_premises_ReservedOffsetsReadZero : regAt 0x057 = .failPos ∧ regAt 0x058 = .reserved ∧
    regAt 0x0FF = .reserved ∧ regAt 0x100 = .inlinePal 0 ∧ regAt 0x13F = .inlinePal 15 ∧ regAt 0x140 = .reserved ∧
    regAt 0x3FF = .reserved ∧ regAt 0x400 = .colorTable 0 ∧ regAt 0x7FF = .colorTable 255 ∧ regAt 0x800 = .reserved ∧
    regAt 0xFFF = .reserved := by decide

theorem test_premises_WaitPollsUntilNotBusy :
    ({ subRow with inbox := [.wait] } : State).inbox = [.wait] ∧ subRow.runState = .rows ∧
    (palOf 1 1 [] 0).runState = .palette ∧ small.runState ≠ .rows ∧ small.runState ≠ .palette := by decide +kernel

/-- A busy state, whose step goes on. -/
theorem test_premises_StepKeepsInvariant : subRow.Inv ∧ (shows (step subRow) fun _ => 0) = some 0 :=
  ⟨busyInv_inv rfl (by decide +kernel), by decide +kernel⟩

/-- A busy state whose host stores at the last address of the output space. -/
theorem test_premises_InvariantStatesNeverStop :
    let s : State := { subRow with inbox := [.storeSurface 63 1] }
    s.Inv ∧ s.streamGuarantee ∧ s.hostInSpace :=
  ⟨busyInv_inv rfl (by decide +kernel), by unfold State.streamGuarantee; decide +kernel, by
    have : (63 : Word).toNat < subRow.params.outSize := by decide +kernel
    exact this⟩

/-- A load, a race, a store to the same byte once the block is idle (which ends the race there), and a start after a
race at another byte. -/
theorem test_premises_SurfaceByteIsFreeOnlyAfterARace :
    (shows (step { small with inbox := [.loadSurface 63] }) fun _ => 0) = some 0 ∧
    (shows (step { subRow with inbox := [.storeSurface 13 1] }) fun t => t.outRaced) = some [(13, 0)] ∧
    (shows (step { small with outRaced := [(13, 0), (9, 1)], inbox := [.storeSurface 13 1] }) fun t => t.outRaced) =
      some [(9, 1)] ∧
    (shows (step { validated24 with cfgPitch := 6, outRaced := [(8, 0)], inbox := [.write 0 2] }) fun t => t.runState) =
      some .rows ∧ validated24.runState = .validated := by decide +kernel

end Sys2Proof.Tests
end

section
/-! START (spec/43_control.md R223): the checks of the surface that it makes, and what an accepted START leaves. -/

namespace Sys2Proof.Machine

/-- The surface that START refuses (R223): a row does not fit in the pitch, or the last row does not end inside OUT. -/
def State.surfaceRefused (s : State) : Prop :=
  (s.cfgPitch.toNat : Int) < s.w * s.outb.toNat ∨
    (s.params.outSize : Int) < s.cfgOutBase.toNat + (s.h - 1) * s.cfgPitch.toNat + s.w * s.outb.toNat

theorem startRule_refused {s : State} (h : s.surfaceRefused) : startRule s = .fail .allocationFailed s := by
  rcases startRule_cases s with ⟨_, e⟩ | ⟨_, _, e⟩ | ⟨hpitch, hfit, _⟩
  · exact e
  · exact e
  · rcases h with h | h
    · exact absurd hpitch (by omega)
    · exact absurd hfit (by omega)

theorem startRule_accepted {s : State} (h : ¬ s.surfaceRefused) :
    startRule s = .ok () { s.settleRaces with rowY := 0, runState := .rows } := by
  rcases startRule_cases s with ⟨hpitch, _⟩ | ⟨_, hfit, _⟩ | ⟨_, _, e⟩
  · exact absurd (.inl hpitch) h
  · exact absurd (.inr hfit) h
  · exact e

/-- START in VALIDATED with a surface it refuses: IGN cleared (R220), then the failure entry. -/
theorem exec_start_refused {s : State} (hs : s.runState = .validated) (h : s.surfaceRefused) :
    exec .start s = .next ((s.withIgn false).failEntry .allocationFailed) := by
  have hrule : startRule (s.withIgn false) = .fail .allocationFailed (s.withIgn false) := startRule_refused h
  rw [exec, execStart, issue_accepted (by simp [hs]), hrule, Flow.finish_fail]

/-- START in VALIDATED with a surface it accepts: IGN cleared (R220), the races settled and the rows begun. -/
theorem exec_start_accepted {s : State} (hs : s.runState = .validated) (h : ¬ s.surfaceRefused) :
    exec .start s = .next { (s.withIgn false).settleRaces with rowY := 0, runState := .rows } := by
  have hrule : startRule (s.withIgn false) =
      .ok () { (s.withIgn false).settleRaces with rowY := 0, runState := .rows } := startRule_accepted h
  rw [exec, execStart, issue_accepted (by simp [hs]), hrule, Flow.finish_ok]

/-- The failure entry records the kind and the position of the raise, and rewinds (R266). -/
theorem failedAt_failEntry (s : State) (k : ErrKind) : failedAt (s.failEntry k) k s.streamPos.toNat :=
  ⟨rfl, rfl, rfl, rfl, rfl⟩

theorem State.not_busy_of_validated {s : State} (h : s.runState = .validated) : s.busy = false := by
  simp [State.busy, h]

/-- Settling leaves OUT as it is where no race is listed. -/
theorem State.settleRaces_out_of_noRaces {s : State} (h : s.outRaced = []) : s.settleRaces.out = s.out := by
  rw [State.settleRaces_out, h, settled]

/-- Settles O17, by START's two checks: a refused surface meets the failure entry, an accepted one the settled OUT. -/
theorem startChecksSurface : Obligations.StartChecksSurface := by
  intro s hs
  by_cases h : s.surfaceRefused
  · refine ⟨_, exec_start_refused hs h, ?_⟩
    rw [if_pos (by exact h)]
    exact ⟨failedAt_failEntry (s.withIgn false) .allocationFailed, rfl⟩
  · refine ⟨_, exec_start_accepted hs h, ?_⟩
    rw [if_neg (by exact h)]
    exact ⟨rfl, State.read_settleRaces (State.not_busy_of_validated hs), State.settleRaces_out_of_noRaces⟩

end Sys2Proof.Machine
end

section
/-! The invariant (Safety.lean) as a step lemma: what keeps the geometry and the surface, then the commands, the engine
steps, the host's writes and stores, and the reset input one by one. -/

namespace Sys2Proof.Machine

/-! ### What the geometry and the surface depend on -/

/-- `t` is `s` in every field that `GeometryHeld` reads. -/
def SameGeometry (s t : State) : Prop :=
  t = { s with
    runState := t.runState, err := t.err, ign := t.ign, rowY := t.rowY, ncolors := t.ncolors
    cfgPitch := t.cfgPitch, cfgOutBase := t.cfgOutBase, streamOrigin := t.streamOrigin, streamPos := t.streamPos
    streamLen := t.streamLen, failPos := t.failPos, inlinePal := t.inlinePal, colorTable := t.colorTable
    scratch := t.scratch, runCnt := t.runCnt, runVal := t.runVal, fillI := t.fillI, stream := t.stream, out := t.out
    inbox := t.inbox, rdata := t.rdata, outRaced := t.outRaced, raceCount := t.raceCount, resetCount := t.resetCount }

theorem State.GeometryHeld.of_same {s t : State} (g : s.GeometryHeld) (e : SameGeometry s t) : t.GeometryHeld := by
  unfold SameGeometry at e
  rw [e]
  exact ⟨g.enc, g.layout, g.outb, g.listed, g.srcBits, g.width, g.height, g.widthPos, g.heightPos, g.bytes, g.capacity,
    g.zeroed⟩

theorem State.SurfaceHeld.of_same {s t : State} (f : s.SurfaceHeld) (e : SameGeometry s t)
    (hp : t.cfgPitch = s.cfgPitch) (hb : t.cfgOutBase = s.cfgOutBase) : t.SurfaceHeld := by
  unfold SameGeometry at e
  rw [e, hp, hb]
  exact ⟨f.pitch, f.fits⟩

/-! ### The invariant outside a decode -/

theorem State.Inv.err_none {s : State} (h : s.Inv) (hs : s.runState ≠ .failed) : s.err = none := by
  by_contra he
  exact hs (h.errIff.1 he)

/-- In IDLE the invariant asks for the form of the lists, no error, and the unused colour entries only. -/
theorem State.inv_of_idle {s : State} (hs : s.runState = .idle) (hl : s.ListsWf) (he : s.err = none)
    (ht : ∀ i, s.ncolors.toNat ≤ i → s.colorTable.get i = 0) : s.Inv where
  streamWf := hl.streamWf
  outWf := hl.outWf
  scratchSorted := hl.scratchSorted
  scratchWf := hl.scratchWf
  errIff := by simp [he, hs]
  tableZero := ht
  noColors h := absurd hs h
  geometry h := absurd hs h
  surface h := by simp [hs] at h
  rowInRange h := by simp [hs] at h
  rowsDone h := by simp [hs] at h
  indexed h := by simp [hs] at h

/-- In VALIDATED the surface is not yet checked: what START reads may change as long as the geometry stands. -/
theorem State.inv_of_validated {s : State} (hs : s.runState = .validated) (hl : s.ListsWf) (he : s.err = none)
    (hn : s.ncolors = 0) (ht : ∀ i, s.colorTable.get i = 0) (hg : s.GeometryHeld) : s.Inv where
  streamWf := hl.streamWf
  outWf := hl.outWf
  scratchSorted := hl.scratchSorted
  scratchWf := hl.scratchWf
  errIff := by simp [he, hs]
  tableZero i _ := ht i
  noColors _ _ := hn
  geometry _ _ := hg
  surface h := by simp [hs] at h
  rowInRange h := by simp [hs] at h
  rowsDone h := by simp [hs] at h
  indexed h := by simp [hs] at h

/-- The byte lists, where they keep their form, and the fill's registers may change. -/
theorem State.Inv.of_lists {s t : State} (h : s.Inv) (hl : t.ListsWf) (e : t = { s with
      stream := t.stream, out := t.out, scratch := t.scratch, streamPos := t.streamPos, runCnt := t.runCnt
      runVal := t.runVal, fillI := t.fillI, outRaced := t.outRaced, raceCount := t.raceCount }) :
    t.Inv := by
  have same : SameGeometry s t := e ▸ rfl
  rw [e] at same hl ⊢
  exact {
    streamWf := hl.streamWf
    outWf := hl.outWf
    scratchSorted := hl.scratchSorted
    scratchWf := hl.scratchWf
    errIff := h.errIff
    tableZero := h.tableZero
    noColors := h.noColors
    geometry := fun h1 h2 => (h.geometry h1 h2).of_same same
    surface := fun h1 => (h.surface h1).of_same same rfl rfl
    rowInRange := h.rowInRange
    rowsDone := h.rowsDone
    indexed := h.indexed }

theorem State.Inv.withIgn {s : State} (h : s.Inv) (b : Bool) : (s.withIgn b).Inv := h.of_eq rfl

theorem State.Inv.withInbox {s : State} (h : s.Inv) (l : List HostOp) : State.Inv { s with inbox := l } := h.of_eq rfl

theorem State.Inv.withRdata {s : State} (h : s.Inv) (w : Word) : State.Inv { s with rdata := w } := h.of_eq rfl

/-! ### Commands (R220 to R225) -/

theorem exec_nop (s : State) : exec .nop s = issue true (fun s => .ok () s) s := rfl

theorem exec_validate (s : State) : exec .validate s = issue (decide (s.runState = .idle)) validateRule s := rfl

theorem exec_start (s : State) : exec .start s = issue (decide (s.runState = .validated)) startRule s := rfl

theorem exec_clear (s : State) : exec .clear s = issue s.acceptsClear clearRule s := rfl

theorem exec_reservedCmd (cc : BitVec 2) (s : State) :
    exec (.reservedCmd cc) s = issue false (fun s => .ok () s) s := rfl

/-- A command keeps the invariant if its rule does where it is accepted (R220). -/
theorem issue_inv {accepted : Bool} {rule : State → Flow Unit} {s t : State} (h : s.Inv)
    (hrule : accepted = true → ∀ u, (rule (s.withIgn false)).finish = .next u → u.Inv)
    (ht : issue accepted rule s = .next t) : t.Inv := by
  cases accepted with
  | false =>
    rw [issue_ignored rfl] at ht
    cases ht
    exact h.withIgn true
  | true =>
    rw [issue_accepted rfl] at ht
    exact hrule rfl t ht

/-- CLEAR from a state that is not busy (R224, R268). -/
theorem State.Inv.clearToIdle {s : State} (h : s.Inv) : s.clearToIdle.Inv :=
  State.inv_of_idle rfl ⟨h.streamWf, h.outWf, h.scratchSorted, h.scratchWf⟩ rfl h.tableZero

theorem State.withGeometry_listsWf {s : State} (h : s.ListsWf) : s.withGeometry.ListsWf :=
  ⟨h.streamWf, h.outWf, h.scratchSorted, h.scratchWf⟩

/-- VALIDATE's registers, once its checks have passed, are the geometry that the invariant holds (R222). -/
theorem geometryHeld_of_validated {s : State} (he : s.cfgEnc = 0 ∨ s.cfgEnc = 1)
    (hlay : s.withGeometry.layout ≠ .none) (hw : 1 ≤ s.withGeometry.w) (hh : 1 ≤ s.withGeometry.h)
    (hcap : s.withGeometry.n ≤ s.params.scratchCap) :
    State.GeometryHeld { s.withGeometry.zeroScratch with runState := .validated } where
  enc := he
  layout := rfl
  outb := rfl
  listed := hlay
  srcBits := withGeometry_srcBits_toNat s
  width := withGeometry_w s
  height := withGeometry_h s
  widthPos := hw
  heightPos := hh
  bytes := withGeometry_n s
  capacity := hcap
  zeroed := rfl

theorem validateRule_inv {s t : State} (h : s.Inv) (hs : s.runState = .idle) (ht : (validateRule s).finish = .next t) :
    t.Inv := by
  have hl := State.withGeometry_listsWf h.lists
  have hfail : ∀ k, (s.withGeometry.failEntry k).Inv := fun k => State.failEntry_inv k hl (by simp)
  rw [validateRule] at ht
  rcases validateChecks_cases s.withGeometry with ⟨_, e⟩ | ⟨_, _, e⟩ | ⟨_, _, _, e⟩ | ⟨_, _, _, _, _, e⟩ |
    ⟨henc, hlay, hw, hh, hcap, e⟩ <;> rw [e] at ht <;> cases ht
  · exact hfail _
  · exact hfail _
  · exact hfail _
  · exact hfail _
  · exact State.inv_of_validated rfl ⟨hl.streamWf, hl.outWf, rfl, fun _ => Memory.wf_nil⟩
      (h.err_none (by simp [hs])) rfl (fun i => RgbTable.get_zero 256 i)
      (geometryHeld_of_validated henc hlay hw hh hcap)

/-- START's two checks, as the invariant holds them (R223). -/
theorem surfaceHeld_of_checks {s : State} (g : s.GeometryHeld) (hpitch : s.w * s.outb.toNat ≤ s.cfgPitch.toNat)
    (hfit : s.cfgOutBase.toNat + (s.h - 1) * s.cfgPitch.toNat + s.w * s.outb.toNat ≤ (s.params.outSize : Int)) :
    s.SurfaceHeld := by
  have hw := g.widthPos
  have hh := g.heightPos
  have hrow : (s.rowBytes : Int) = s.w * s.outb.toNat := by
    rw [State.rowBytes]; push_cast; rw [Int.toNat_of_nonneg (by omega)]
  have hlast : ((s.h.toNat - 1 : Nat) : Int) = s.h - 1 := by omega
  rw [← hrow] at hpitch hfit
  refine ⟨by exact_mod_cast hpitch, ?_⟩
  rw [← hlast] at hfit
  rw [State.rowBase]
  exact_mod_cast hfit

/-- The first row of a decode: ROWS at row 0 over a surface that START has checked. -/
theorem startRule_inv {s t : State} (h : s.Inv) (hs : s.runState = .validated) (ht : (startRule s).finish = .next t) :
    t.Inv := by
  have hg : s.GeometryHeld := h.geometry (by simp [hs]) (by simp [hs])
  have hn : s.ncolors = 0 := h.noColors (by simp [hs]) (by simp [hs])
  have htab := h.table (by simp [hs]) (by simp [hs])
  rcases startRule_cases s with ⟨_, e⟩ | ⟨_, _, e⟩ | ⟨hpitch, hfit, e⟩ <;> rw [e] at ht <;> cases ht
  · exact State.failEntry_inv _ h.lists htab
  · exact State.failEntry_inv _ h.lists htab
  · have hheight := hg.heightPos
    exact {
      streamWf := h.streamWf
      outWf := wf_settled _ _ h.outWf
      scratchSorted := h.scratchSorted
      scratchWf := h.scratchWf
      errIff := by simp [h.err_none (by simp [hs])]
      tableZero := fun i _ => htab i
      noColors := fun _ _ => hn
      geometry := fun _ _ => hg.of_same rfl
      surface := fun _ => (surfaceHeld_of_checks hg hpitch hfit).of_same rfl rfl rfl
      rowInRange := fun _ => by show ((0 : Nat) : Int) < s.h; omega
      rowsDone := by simp
      indexed := by simp }

/-- Every command keeps the invariant, accepted or not. -/
theorem execCommand_inv {s t : State} (w : Word) (h : s.Inv) (ht : exec (decodeCommand w) s = .next t) : t.Inv := by
  unfold decodeCommand at ht
  split at ht
  · rw [exec_reservedCmd] at ht
    exact issue_inv h (fun hf => absurd hf (by decide)) ht
  split at ht
  · rw [exec_nop] at ht
    exact issue_inv h (fun _ u hu => by cases hu; exact h.withIgn false) ht
  split at ht
  · rw [exec_validate] at ht
    exact issue_inv h (fun ha u hu => validateRule_inv (h.withIgn false) (of_decide_eq_true ha) hu) ht
  split at ht
  · rw [exec_start] at ht
    exact issue_inv h (fun ha u hu => startRule_inv (h.withIgn false) (of_decide_eq_true ha) hu) ht
  · rw [exec_clear] at ht
    exact issue_inv h (fun _ u hu => by cases hu; exact (h.withIgn false).clearToIdle) ht

/-! ### Engine steps (R230, R231) -/

theorem RowKeeps.listsWf {s t : State} (k : RowKeeps s t) (h : s.ListsWf) : t.ListsWf := by
  have e := k.frame
  refine ⟨by rw [e]; exact h.streamWf, k.outWf h.outWf, k.sorted h.scratchSorted, fun hz => ?_⟩
  exact k.wf h.scratchSorted h.scratchWf (by rw [e] at hz; exact hz)

/-- Counting a row below HEIGHT does not wrap (R28). -/
theorem rowY_succ_toNat {s : State} (hy : (s.rowY.toNat : Int) < s.h) :
    (BitVec.ofNat 32 (s.rowY.toNat + 1)).toNat = s.rowY.toNat + 1 := by
  have := BitVec.toInt_lt (x := s.height)
  rw [BitVec.toNat_ofNat]
  exact Nat.mod_eq_of_lt (by unfold State.h at hy; omega)

/-- The state after a counted row: ROWS with a next row, or the decode's end with every row counted (R230). -/
theorem finishRow_runState_cases {s : State} (hs : s.runState = .rows) :
    ((s.rowY.toNat + 1 : Int) ≠ s.h ∧ s.finishRow.runState = .rows) ∨
    ((s.rowY.toNat + 1 : Int) = s.h ∧ (s.layout = .sub ∨ s.layout = .idx8) ∧ s.finishRow.runState = .palette) ∨
    ((s.rowY.toNat + 1 : Int) = s.h ∧ s.finishRow.runState = .done) := by
  rw [State.finishRow_runState]
  split
  · next hlast =>
    split
    · next hi => exact .inr (.inl ⟨hlast, hi, rfl⟩)
    · exact .inr (.inr ⟨hlast, rfl⟩)
  · next hlast => exact .inl ⟨hlast, hs⟩

/-- Counting the row of a ROWS state keeps the invariant (R230). -/
theorem State.Inv.finishRow {s : State} (h : s.Inv) (hs : s.runState = .rows) : s.finishRow.Inv := by
  have hn : s.ncolors = 0 := h.noColors (by simp [hs]) (by simp [hs])
  have hy : (s.rowY.toNat : Int) < s.h := h.rowInRange hs
  have hcount := rowY_succ_toNat hy
  have hcases := finishRow_runState_cases hs
  have hrow : (s.finishRow.rowY.toNat : Int) = s.rowY.toNat + 1 := by simp [hcount]
  have hh : s.finishRow.h = s.h := rfl
  exact {
    streamWf := h.streamWf
    outWf := h.outWf
    scratchSorted := h.scratchSorted
    scratchWf := h.scratchWf
    errIff := by
      rw [State.finishRow_err, h.err_none (by simp [hs])]
      rcases hcases with ⟨_, e⟩ | ⟨_, _, e⟩ | ⟨_, e⟩ <;> rw [e] <;> decide
    tableZero := h.tableZero
    noColors := fun _ _ => hn
    geometry := fun _ _ => (h.geometry (by simp [hs]) (by simp [hs])).of_same rfl
    surface := fun _ => (h.surface (.inl hs)).of_same rfl rfl rfl
    rowInRange := fun hr => by
      rcases hcases with ⟨hne, _⟩ | ⟨_, _, e⟩ | ⟨_, e⟩
      · rw [hrow, hh]; omega
      · rw [e] at hr; cases hr
      · rw [e] at hr; cases hr
    rowsDone := fun hd => by
      rcases hcases with ⟨_, e⟩ | ⟨hlast, _⟩ | ⟨hlast, _⟩
      · rw [e] at hd; simp at hd
      · rw [hrow, hh]; exact hlast
      · rw [hrow, hh]; exact hlast
    indexed := fun hp => by
      rcases hcases with ⟨_, e⟩ | ⟨_, hi, _⟩ | ⟨_, e⟩
      · rw [e] at hp; cases hp
      · exact hi
      · rw [e] at hp; cases hp }

/-- A row's body keeps the invariant, and the state stays ROWS until the row is counted. -/
theorem RowKeeps.inv {s t : State} (k : RowKeeps s t) (h : s.Inv) : t.Inv ∧ t.runState = s.runState := by
  have hl := k.listsWf h.lists
  have e := k.frame
  refine ⟨h.of_lists hl ?_, by rw [e]⟩
  rw [e]

theorem execRowStep_inv {s t : State} (h : s.Inv) (ht : exec .rowStep s = .next t) : t.Inv := by
  by_cases hs : s.runState = .rows
  · have hk := rowBody_keeps s
    rw [exec, execRowStep, if_pos hs, rowRule_eq] at ht
    cases hb : rowBody s with
    | ok a u =>
      rw [hb] at hk ht
      cases ht
      obtain ⟨hu, hrun⟩ := RowKeeps.inv hk h
      exact hu.finishRow (hrun.trans hs)
    | fail k u =>
      rw [hb] at hk ht
      cases ht
      obtain ⟨hu, hrun⟩ := RowKeeps.inv hk h
      exact State.failEntry_inv k hu.lists (hu.table (by simp [hrun, hs]) (by simp [hrun, hs]))
    | fault e => rw [hb] at ht; cases ht
    | refuse r => rw [hb] at ht; cases ht
  · rw [exec, execRowStep, if_neg hs] at ht
    cases ht
    exact h

/-- DONE with a colour table whose entries at or above NCOLORS are 0: the end of a PALETTE step (R29, R33, R231). -/
theorem State.Inv.paletteDone {s t : State} (h : s.Inv) (hs : s.runState = .palette)
    (ht : ∀ i, t.ncolors.toNat ≤ i → t.colorTable.get i = 0)
    (e : t = { s with streamPos := t.streamPos, colorTable := t.colorTable, ncolors := t.ncolors, runState := .done }) :
    t.Inv := by
  have same : SameGeometry s t := e ▸ rfl
  have hrun : t.runState = .done := by rw [e]
  have hg := (h.geometry (by simp [hs]) (by simp [hs])).of_same same
  have hf := (h.surface (.inr (.inl hs))).of_same same (by rw [e]) (by rw [e])
  have hrow : (t.rowY.toNat : Int) = t.h := by rw [e]; exact h.rowsDone (.inl hs)
  have herr : t.err = none := by rw [e]; exact h.err_none (by simp [hs])
  have hl : t.ListsWf := by rw [e]; exact ⟨h.streamWf, h.outWf, h.scratchSorted, h.scratchWf⟩
  exact {
    streamWf := hl.streamWf
    outWf := hl.outWf
    scratchSorted := hl.scratchSorted
    scratchWf := hl.scratchWf
    errIff := by simp [herr, hrun]
    tableZero := ht
    noColors := fun _ hd => absurd hrun hd
    geometry := fun _ _ => hg
    surface := fun _ => hf
    rowInRange := fun hr => by simp [hrun] at hr
    rowsDone := fun _ => hrow
    indexed := fun hp => by simp [hrun] at hp }

theorem execPalStep_inv {s t : State} (h : s.Inv) (ht : exec .palStep s = .next t) : t.Inv := by
  by_cases hs : s.runState = .palette
  · have hg := h.geometry (by simp [hs]) (by simp [hs])
    have htab := h.table (by simp [hs]) (by simp [hs])
    rw [exec, execPalStep, if_pos hs] at ht
    rcases palRule_cases hg (h.indexed hs) with ⟨hl, e⟩ | ⟨_, p, table, _, e⟩ | ⟨_, p, e⟩ | ⟨_, _, e⟩ <;>
      rw [e] at ht <;> cases ht
    · refine h.paletteDone hs (fun i hi => ?_) rfl
      have hi : ¬ i < 2 ^ s.np := by
        have hnp := (hg.srcBits_sub hl).2
        have : 2 ^ s.np ≤ 2 ^ 4 := Nat.pow_le_pow_right (by omega) hnp
        have hcolors : (BitVec.ofNat 9 (2 ^ s.np)).toNat = 2 ^ s.np := by
          rw [BitVec.toNat_ofNat]; exact Nat.mod_eq_of_lt (by omega)
        exact Nat.not_lt.2 (hcolors ▸ hi)
      rw [RgbTable.get_ofFn, if_neg hi, htab i, ite_self]
    · exact h.paletteDone hs (fun i hi => RgbTable.get_of_le table i hi) rfl
    · have hp : (s.withPos p).Inv := h.of_eq rfl
      exact State.failEntry_inv _ hp.lists htab
  · rw [exec, execPalStep, if_neg hs] at ht
    cases ht
    exact h

/-- The engine's turn is the step that STATE enables, or nothing (R230, R231, R233). -/
theorem engineTurn_cases (s : State) :
    (s.runState = .rows ∧ engineTurn s = exec .rowStep s) ∨
    (s.runState = .palette ∧ engineTurn s = exec .palStep s) ∨
    (s.runState ≠ .rows ∧ s.runState ≠ .palette ∧ engineTurn s = .next s) := by
  cases hs : s.runState with
  | rows => exact .inl ⟨rfl, by rw [engineTurn, hs]; rfl⟩
  | palette => exact .inr (.inl ⟨rfl, by rw [engineTurn, hs]; rfl⟩)
  | idle | validated | done | failed => exact .inr (.inr ⟨by decide, by decide, by rw [engineTurn, hs]; rfl⟩)

theorem engineTurn_inv {s t : State} (h : s.Inv) (ht : engineTurn s = .next t) : t.Inv := by
  rcases engineTurn_cases s with ⟨_, e⟩ | ⟨_, e⟩ | ⟨_, _, e⟩ <;> rw [e] at ht
  · exact execRowStep_inv h ht
  · exact execPalStep_inv h ht
  · cases ht
    exact h

/-! ### The host (R34, R66, R106) and the reset input (R290) -/

/-- A write to a register that is open in IDLE only (R34). -/
theorem gatedConfig_inv {s u : State} (h : s.Inv) (e : u = { s with
      cfgEnc := u.cfgEnc, cfgBpp := u.cfgBpp, cfgNplanes := u.cfgNplanes, cfgBpl := u.cfgBpl, cfgXmin := u.cfgXmin
      cfgYmin := u.cfgYmin, cfgXmax := u.cfgXmax, cfgYmax := u.cfgYmax, inlinePal := u.inlinePal }) :
    (gated s.acceptsConfig s u).Inv := by
  unfold gated
  split
  · next ha =>
    have hs : s.runState = .idle := of_decide_eq_true ha
    rw [e]
    exact State.inv_of_idle hs ⟨h.streamWf, h.outWf, h.scratchSorted, h.scratchWf⟩ (h.err_none (by simp [hs]))
      h.tableZero
  · exact h.withIgn true

/-- A write to a placement or stream register, open in IDLE and VALIDATED: START has checked no surface yet (R34). -/
theorem gatedPlacement_inv {s u : State} (h : s.Inv) (e : u = { s with
      cfgPitch := u.cfgPitch, cfgOutBase := u.cfgOutBase, streamOrigin := u.streamOrigin, streamPos := u.streamPos
      streamLen := u.streamLen }) :
    (gated s.acceptsPlacement s u).Inv := by
  unfold gated
  split
  · next ha =>
    have hu : u.ListsWf := by rw [e]; exact ⟨h.streamWf, h.outWf, h.scratchSorted, h.scratchWf⟩
    rw [e] at hu ⊢
    rcases (of_decide_eq_true ha : s.runState = .idle ∨ s.runState = .validated) with hs | hs
    · exact State.inv_of_idle hs hu (h.err_none (by simp [hs])) h.tableZero
    · exact State.inv_of_validated hs hu (h.err_none (by simp [hs])) (h.noColors (by simp [hs]) (by simp [hs]))
        (h.table (by simp [hs]) (by simp [hs])) ((h.geometry (by simp [hs]) (by simp [hs])).of_same rfl)
  · exact h.withIgn true

theorem writeReg_inv {s : State} (r : Reg) (w : Word) (h : s.Inv) : (writeReg r w s).Inv := by
  cases r with
  | cmd => exact h
  | cfgEnc | cfgBpp | cfgNplanes | cfgBpl | cfgXmin | cfgYmin | cfgXmax | cfgYmax | inlinePal _ =>
    exact gatedConfig_inv h rfl
  | cfgPitch | cfgOutBase | streamOrigin | streamPos | streamLen => exact gatedPlacement_inv h rfl
  | status | rowY | format | width | height | nbytes | ncolors | failPos | colorTable _ | reserved =>
    exact h.withIgn true

theorem hostWrite_inv {s t : State} (offset : BitVec 12) (w : Word) (h : s.Inv)
    (ht : hostWrite offset w s = .next t) : t.Inv := by
  unfold hostWrite at ht
  split at ht
  · exact execCommand_inv w h ht
  · cases ht
    exact writeReg_inv _ w h

/-- WAIT, with itself still in the inbox of `s` and taken out of that of `s'` (R106). -/
theorem hostWait_inv {s s' t : State} (h : s.Inv) (h' : s'.Inv) (ht : hostWait s s' = .next t) : t.Inv := by
  unfold hostWait at ht
  split at ht
  · exact engineTurn_inv (h.withRdata _) ht
  · cases ht
    exact h'.withRdata _

theorem State.Inv.hardReset {s : State} (h : s.Inv) : s.hardReset.Inv :=
  State.inv_of_idle rfl ⟨h.streamWf, h.outWf, rfl, fun _ => Memory.wf_nil⟩ rfl fun i _ => RgbTable.get_zero 256 i

theorem hostStoreStream_inv {s t : State} (a : Word) (v : Byte) (h : s.Inv)
    (ht : hostStoreStream a v s = .next t) : t.Inv := by
  have hw := fun w => Memory.wf_write _ a.toNat w h.streamWf
  unfold hostStoreStream at ht
  split at ht
  · cases ht
  split at ht <;> cases ht <;> exact h.of_lists ⟨hw _, h.outWf, h.scratchSorted, h.scratchWf⟩ rfl

theorem hostStoreSurface_inv {s t : State} (a : Word) (v : Byte) (h : s.Inv)
    (ht : hostStoreSurface a v s = .next t) : t.Inv := by
  have hw := fun w => Memory.wf_write _ a.toNat w h.outWf
  unfold hostStoreSurface at ht
  split at ht
  · cases ht
  split at ht <;> cases ht <;> exact h.of_lists ⟨h.streamWf, hw _, h.scratchSorted, h.scratchWf⟩ rfl

theorem hostLoadSurface_inv {s t : State} (a : Word) (h : s.Inv) (ht : hostLoadSurface a s = .next t) : t.Inv := by
  unfold hostLoadSurface at ht
  split at ht
  · cases ht
  · cases ht
    exact h.withRdata _

/-- Settles O58, arm by arm of step: each arm's operation keeps the invariant. -/
theorem stepKeepsInvariant : Obligations.StepKeepsInvariant := by
  intro s t h ht
  have hrest := h.withInbox
  unfold step at ht
  split at ht
  · exact engineTurn_inv h ht
  · exact hostWrite_inv _ _ (hrest _) ht
  · cases ht
    exact (hrest _).withRdata _
  · exact hostWait_inv h (hrest _) ht
  · exact engineTurn_inv (hrest _) ht
  · cases ht
    exact (hrest _).hardReset
  · exact hostStoreStream_inv _ _ (hrest _) ht
  · exact hostStoreSurface_inv _ _ (hrest _) ht
  · exact hostLoadSurface_inv _ (hrest _) ht

end Sys2Proof.Machine
end

section
/-! What one instruction may change (spec/10_state.md R24 to R38): one frame for every instruction, up to the failure
entry. -/

namespace Sys2Proof.Machine

/-- What the rule of instruction `i` may leave of `s` where it ends or raises, before any failure entry. -/
structure InstrKeeps (i : Instr) (s t : State) : Prop where
  frame : t = { s with
    runState := t.runState, err := t.err, ign := t.ign, rowY := t.rowY, layout := t.layout, outb := t.outb
    srcBits := t.srcBits, width := t.width, height := t.height, nbytes := t.nbytes, ncolors := t.ncolors
    streamPos := t.streamPos, colorTable := t.colorTable, scratch := t.scratch, scratchZeroed := t.scratchZeroed
    runCnt := t.runCnt, runVal := t.runVal, fillI := t.fillI, out := t.out, outRaced := t.outRaced }
  races : i ≠ .start → t.outRaced = s.outRaced
  derived : i ≠ .validate → t.layout = s.layout ∧ t.outb = s.outb ∧ t.srcBits = s.srcBits ∧ t.width = s.width ∧
    t.height = s.height ∧ t.nbytes = s.nbytes

/-- What the engine steps and the operations inside them may change: nothing but these fields. -/
def DatapathFrame (s t : State) : Prop :=
  t = { s with
    runState := t.runState, rowY := t.rowY, ncolors := t.ncolors, streamPos := t.streamPos
    colorTable := t.colorTable, scratch := t.scratch, runCnt := t.runCnt, runVal := t.runVal, fillI := t.fillI
    out := t.out }

theorem DatapathFrame.refl (s : State) : DatapathFrame s s := rfl

theorem DatapathFrame.of_fill {s t : State} (h : FillKeeps s t) : DatapathFrame s t := by
  have e := h.frame
  unfold FillFrame at e
  unfold DatapathFrame
  rw [e]

theorem DatapathFrame.of_out {s t : State} (h : OutKeeps s t) : DatapathFrame s t := by
  have e := h.1
  unfold OnlyOut at e
  unfold DatapathFrame
  rw [e]

theorem DatapathFrame.of_row {s t : State} (h : RowKeeps s t) : DatapathFrame s t := by
  unfold DatapathFrame
  rw [h.frame]

theorem DatapathFrame.finishRow {s t : State} (h : DatapathFrame s t) : DatapathFrame s t.finishRow := by
  unfold DatapathFrame at *
  rw [h]
  rfl

theorem DatapathFrame.withRunState {s t : State} (h : DatapathFrame s t) (r : RunState) :
    DatapathFrame s { t with runState := r } := by
  unfold DatapathFrame at *
  rw [h]

theorem DatapathFrame.keeps {s t : State} (h : DatapathFrame s t) (i : Instr) : InstrKeeps i s t := by
  unfold DatapathFrame at h
  rw [h]
  exact ⟨rfl, fun _ => rfl, fun _ => ⟨rfl, rfl, rfl, rfl, rfl, rfl⟩⟩

/-! ### The rule of each instruction -/

theorem palInline_frame (s : State) : (palInline s).Ends (DatapathFrame s) := by
  unfold palInline
  split
  · trivial
  · exact rfl

theorem palTrailing_frame (s : State) : (palTrailing s).Ends (DatapathFrame s) := by
  rcases palTrailing_cases s with ⟨p, table, _, e⟩ | ⟨p, e⟩ | ⟨_, e⟩ <;> rw [e]
  · exact rfl
  · exact rfl
  · trivial

theorem palRule_frame (s : State) : (palRule s).Ends (DatapathFrame s) := by
  have hpal : (palette s).Ends (DatapathFrame s) := by
    unfold palette
    split
    · exact palInline_frame s
    · exact palTrailing_frame s
    · trivial
    · trivial
  exact hpal.bind (fun _ _ h => h.withRunState .done) fun _ h => h

theorem rowRule_frame (s : State) : (rowRule s).Ends (DatapathFrame s) := by
  rw [rowRule_eq]
  exact ((rowBody_keeps s).mono fun _ h => DatapathFrame.of_row h).bind (fun _ _ h => h.finishRow) fun _ h => h

/-- VALIDATE writes the derived registers, and no other register of the configuration. -/
theorem validateRule_keeps (s : State) : (validateRule s).Ends (InstrKeeps .validate s) := by
  have hk : InstrKeeps .validate s s.withGeometry := ⟨rfl, fun _ => rfl, fun h => absurd rfl h⟩
  rw [validateRule]
  rcases validateChecks_cases s.withGeometry with ⟨_, e⟩ | ⟨_, _, e⟩ | ⟨_, _, _, e⟩ | ⟨_, _, _, _, _, e⟩ |
    ⟨_, _, _, _, _, e⟩ <;> rw [e]
  · exact hk
  · exact hk
  · exact hk
  · exact hk
  · exact ⟨rfl, fun _ => rfl, fun h => absurd rfl h⟩

/-- START settles the races and writes no derived register. -/
theorem startRule_keeps (s : State) : (startRule s).Ends (InstrKeeps .start s) := by
  have hk : InstrKeeps .start s s := (DatapathFrame.refl s).keeps .start
  rcases startRule_cases s with ⟨_, e⟩ | ⟨_, _, e⟩ | ⟨_, _, e⟩ <;> rw [e]
  · exact hk
  · exact hk
  · exact ⟨rfl, fun h => absurd rfl h, fun _ => ⟨rfl, rfl, rfl, rfl, rfl, rfl⟩⟩

theorem InstrKeeps.of_withIgn {i : Instr} {s t : State} {b : Bool} (h : InstrKeeps i (s.withIgn b) t) :
    InstrKeeps i s t := ⟨h.frame, h.races, h.derived⟩

/-- A command is one operation to its end or its raise: its rule where it is accepted, IGN set where not (R220). -/
theorem issue_flow {i : Instr} {accepted : Bool} {rule : State → Flow Unit} (s : State)
    (hrule : (rule (s.withIgn false)).Ends (InstrKeeps i (s.withIgn false))) :
    ∃ x : Flow Unit, issue accepted rule s = x.finish ∧ x.Ends (InstrKeeps i s) := by
  cases accepted with
  | false => exact ⟨.ok () (s.withIgn true), rfl, ((DatapathFrame.refl _).keeps i).of_withIgn⟩
  | true => exact ⟨rule (s.withIgn false), rfl, hrule.mono fun _ h => h.of_withIgn⟩

/-- An engine step is its rule where STATE enables it, nothing elsewhere (R230, R231). -/
theorem engineStep_flow {i : Instr} {enabled : Prop} [Decidable enabled] {rule : Flow Unit} (s : State)
    (hrule : rule.Ends (DatapathFrame s)) :
    ∃ x : Flow Unit, (if enabled then rule.finish else .next s) = x.finish ∧ x.Ends (InstrKeeps i s) := by
  by_cases h : enabled
  · exact ⟨rule, if_pos h, hrule.mono fun _ h => h.keeps i⟩
  · exact ⟨.ok () s, if_neg h, (DatapathFrame.refl s).keeps i⟩

/-- Every instruction is one operation to its end or its raise, and keeps what its frame says. -/
theorem exec_flow (i : Instr) (s : State) : ∃ x : Flow Unit, exec i s = x.finish ∧ x.Ends (InstrKeeps i s) := by
  have ofFill {x : Flow Unit} (h : x.Ends (FillKeeps s)) : x.Ends (InstrKeeps i s) :=
    h.mono fun _ h => (DatapathFrame.of_fill h).keeps i
  have ofOut {x : Flow Unit} (h : x.Ends (OutKeeps s)) : x.Ends (InstrKeeps i s) :=
    h.mono fun _ h => (DatapathFrame.of_out h).keeps i
  have ofFrame {x : Flow Unit} (h : x.Ends (DatapathFrame s)) : x.Ends (InstrKeeps i s) :=
    h.mono fun _ h => h.keeps i
  cases i with
  | lit v => exact ⟨lit v s, rfl, ofFill (lit_keeps v s)⟩
  | run0 v => exact ⟨run0 v s, rfl, ofFill (run0_keeps v s)⟩
  | run n v => exact ⟨run n v s, rfl, ofFill (run_keeps n v s)⟩
  | fillRaw => exact ⟨fillRaw s, rfl, ofFill (fillRaw_keeps s)⟩
  | fillRle => exact ⟨fillRle s, rfl, ofFill (fillRle_keeps s)⟩
  | unpackSub np => exact ⟨unpackSub np.toNat s, rfl, ofOut (unpackSub_keeps _ (OutKeeps.refl s))⟩
  | unpackIdx8 => exact ⟨unpackIdx8 s, rfl, ofOut (unpackIdx8_keeps (OutKeeps.refl s))⟩
  | unpackRgb24 => exact ⟨unpackRgb24 s, rfl, ofOut (unpackRgb24_keeps (OutKeeps.refl s))⟩
  | clearRow => exact ⟨clearRow s, rfl, ofOut (clearRow_keeps (OutKeeps.refl s))⟩
  | palInline => exact ⟨palInline s, rfl, ofFrame (palInline_frame s)⟩
  | palTrailing => exact ⟨palTrailing s, rfl, ofFrame (palTrailing_frame s)⟩
  | rowStep => exact engineStep_flow s (rowRule_frame s)
  | palStep => exact engineStep_flow s (palRule_frame s)
  | nop => rw [exec_nop]; exact issue_flow s ((DatapathFrame.refl _).keeps .nop)
  | validate => exact issue_flow s (validateRule_keeps _)
  | start => exact issue_flow s (startRule_keeps _)
  | clear => exact issue_flow s ⟨rfl, fun _ => rfl, fun _ => ⟨rfl, rfl, rfl, rfl, rfl, rfl⟩⟩
  | reservedCmd cc => rw [exec_reservedCmd]; exact issue_flow s ((DatapathFrame.refl _).keeps (.reservedCmd cc))

/-- The next state of an instruction: what its rule left, or the failure entry from there (R266). -/
theorem exec_cases {i : Instr} {s t : State} (h : exec i s = .next t) :
    ∃ u, InstrKeeps i s u ∧ (t = u ∨ ∃ k, t = u.failEntry k) := by
  obtain ⟨x, hx, hk⟩ := exec_flow i s
  rw [hx] at h
  exact hk.finish (Q := fun t => ∃ u, InstrKeeps i s u ∧ (t = u ∨ ∃ k, t = u.failEntry k)) h
    (fun u hu => ⟨u, hu, .inl rfl⟩) fun u k hu => ⟨u, hu, .inr ⟨k, rfl⟩⟩

/-! ### What no instruction writes -/

/-- Settles O47, from the frame of every instruction; the failure entry writes no configuration either. -/
theorem noInstructionWritesConfiguration : Obligations.NoInstructionWritesConfiguration := by
  intro i s t h
  obtain ⟨u, hu, rfl | ⟨k, rfl⟩⟩ := exec_cases h
  · refine ⟨?_, hu.races⟩
    rw [hu.frame]
  · refine ⟨?_, hu.races⟩
    rw [hu.frame]
    rfl

/-- Settles O48, from the frame of every instruction; the failure entry writes no derived register. -/
theorem onlyValidateWritesDerivedRegisters : Obligations.OnlyValidateWritesDerivedRegisters := by
  intro i s t h hi
  obtain ⟨u, hu, rfl | ⟨k, rfl⟩⟩ := exec_cases h
  · exact hu.derived hi
  · exact hu.derived hi

/-- Settles O49: FAIL_POS is in no rule's frame, and the failure entry leaves the state the statement describes. -/
theorem failPosChangesOnlyInFailure : Obligations.FailPosChangesOnlyInFailure := by
  intro i s t h
  obtain ⟨u, hu, rfl | ⟨k, rfl⟩⟩ := exec_cases h
  · exact .inl (by rw [hu.frame])
  · exact .inr ⟨rfl, by simp, rfl, rfl⟩

end Sys2Proof.Machine
end

section
/-! Where the engine steps leave STREAM_POS (spec/10_state.md R36), and the ROWS step of the 24-bit layout
(spec/43_control.md R230). -/

namespace Sys2Proof.Machine

/-! ### STREAM_POS stays inside the stream -/

/-- STREAM_POS is at or below STREAM_LEN (R36). -/
def State.posInStream (s : State) : Prop := s.streamPos.toNat ≤ s.streamLen.toNat

theorem State.posInStream_withPos {s : State} {p : Nat} (h : p ≤ s.streamLen.toNat) :
    (s.withPos p).posInStream := by
  rw [State.posInStream, State.withPos_toNat h]
  exact h

/-- Stores to the scratch buffer do not move STREAM_POS. -/
theorem scratchWrite_posInStream {s : State} (i : Nat) (v : Byte) (h : s.posInStream) :
    (scratchWrite i v s).Ends State.posInStream := by
  unfold scratchWrite
  split
  · exact h
  · trivial

theorem run0Policy_posInStream {s : State} (v : Byte) (h : s.posInStream) :
    (run0Policy v s).Ends State.posInStream := by
  unfold run0Policy
  split
  · exact h
  · exact h
  · exact (forFrom_ends _ _ s h fun i _ _ _ hu => scratchWrite_posInStream i v hu).bind (fun _ _ hu => hu) fun _ h => h

theorem readCode_posInStream {s : State} (h : s.posInStream) : (readCode s).Ends State.posInStream := by
  rcases readCode_cases s with ⟨_, e⟩ | ⟨hr, _, e⟩ | ⟨_, e⟩ | ⟨hr, _, e⟩ | ⟨hr, _, _, _, e⟩ | ⟨hr, v, e⟩ <;> rw [e]
  · exact h
  · exact State.posInStream_withPos hr.1
  · trivial
  · exact State.posInStream_withPos hr.1
  · exact State.posInStream_withPos hr.1
  · exact run0Policy_posInStream v (State.posInStream_withPos hr.1)

theorem emit_posInStream {s : State} (h : s.posInStream) : (emit s).Ends State.posInStream := by
  unfold emit
  split
  · exact h
  · exact (scratchWrite_posInStream _ _ h).bind (fun _ _ hu => hu) fun _ h => h

theorem fillPass_posInStream {s : State} (h : s.posInStream) : (fillPass s).Ends State.posInStream := by
  have hread : (if s.runCnt = 0 then readCode s else .ok () s).Ends State.posInStream := by
    split
    · exact readCode_posInStream h
    · exact h
  exact hread.bind (fun _ _ hu => emit_posInStream hu) fun _ h => h

theorem fillLoop_posInStream : ∀ (k : Nat) {s : State}, s.posInStream → (fillLoop k s).Ends State.posInStream
  | 0, _, h => h
  | k + 1, s, h => by
    by_cases hi : s.fillI.toNat < s.n
    · rw [fillLoop_succ k s hi]
      exact (fillPass_posInStream h).bind (fun _ _ hu => fillLoop_posInStream k hu) fun _ h => h
    · rw [fillLoop_done _ s (Nat.not_lt.1 hi)]
      exact h

theorem fillRaw_posInStream {s : State} (h : s.posInStream) : (fillRaw s).Ends State.posInStream := by
  unfold fillRaw
  rcases streamReadN_cases s.n s with ⟨_, e⟩ | ⟨_, _, e⟩ | ⟨hlen, _, e⟩ <;> rw [e]
  · exact h
  · trivial
  · exact forN_ends _ _ (State.posInStream_withPos hlen) fun i _ _ hu => scratchWrite_posInStream i _ hu

/-- A scanline request reads no byte past STREAM_LEN (R36, R61, R62). -/
theorem fill_posInStream {s : State} (h : s.posInStream) : (fill s).Ends State.posInStream := by
  unfold fill
  split
  · exact fillRaw_posInStream h
  · split
    · exact fillLoop_posInStream _ h
    · trivial

/-- Clearing and unpacking read no stream byte. -/
theorem OnlyOut.posInStream {s t : State} (h : OnlyOut s t) (hs : s.posInStream) : t.posInStream := by
  rw [h]
  exact hs

theorem rowRule_posInStream {s : State} (h : s.posInStream) : (rowRule s).Ends State.posInStream := by
  refine (fill_posInStream h).bind (fun _ t ht => ?_) fun _ h => h
  have hrow : ((clearRow t).bind fun _ u => unpack u).Ends State.posInStream :=
    ((clearRow_keeps (OutKeeps.refl t)).bind (fun _ _ hu => unpack_keeps hu) fun _ h => h).mono
      fun _ hu => hu.1.posInStream ht
  rw [← Flow.bind_assoc]
  exact hrow.bind (fun _ _ hu => hu) fun _ h => h

/-- A palette operation that ends leaves STREAM_POS in the stream: where it was, or just past the table (R191, R194). -/
theorem palette_posInStream {s t : State} (h : s.posInStream) (ht : palette s = .ok () t) : t.posInStream := by
  unfold palette at ht
  split at ht
  · unfold palInline at ht
    split at ht <;> cases ht
    exact h
  · rcases palTrailing_cases s with ⟨p, table, hp, e⟩ | ⟨p, e⟩ | ⟨_, e⟩ <;> rw [e] at ht <;> cases ht
    exact State.posInStream_withPos hp
  · cases ht
  · cases ht

theorem palRule_posInStream {s t : State} (h : s.posInStream) (ht : palRule s = .ok () t) : t.posInStream := by
  unfold palRule at ht
  cases hp : palette s with
  | ok a u =>
    rw [hp] at ht
    cases ht
    exact palette_posInStream (t := u) h hp
  | fail k u => rw [hp] at ht; cases ht
  | fault e => rw [hp] at ht; cases ht
  | refuse r => rw [hp] at ht; cases ht

theorem Flow.Ends.of_ok {α : Type} {x : Flow α} {P : State → Prop} {a : α} {s : State} (hx : x.Ends P)
    (h : x = .ok a s) : P s := by
  rw [h] at hx
  exact hx

/-- What a rule leaves at its end, or else the rewinding of the failure entry (R266). -/
theorem finish_posInStream_or_rewound {x : Flow Unit} {t : State} (hx : ∀ u, x = .ok () u → u.posInStream)
    (h : x.finish = .next t) :
    t.posInStream ∨ (t.runState = .failed ∧ t.streamPos = t.streamOrigin) := by
  rcases Flow.finish_next h with rfl | ⟨k, u, _, rfl⟩
  · exact .inl (hx t rfl)
  · exact .inr ⟨rfl, rfl⟩

/-- Settles O46: every read of a rule is checked against STREAM_LEN, and the failure entry rewinds. -/
theorem engineStepKeepsStreamPosInStream : Obligations.EngineStepKeepsStreamPosInStream := by
  intro i s t hi h ht
  rcases hi with rfl | rfl
  · rw [exec, execRowStep] at ht
    split at ht
    · exact finish_posInStream_or_rewound (fun u hu => (rowRule_posInStream h).of_ok hu) ht
    · cases ht
      exact .inl h
  · rw [exec, execPalStep] at ht
    split at ht
    · exact finish_posInStream_or_rewound (fun u hu => palRule_posInStream h hu) ht
    · cases ht
      exact .inl h

/-! ### The ROWS step of a 24-bit image (R164, R165, R230) -/

/-- A counted row: the frame of the fill, then of the unpacking, then the count (R230). -/
theorem rowDone_of_fill_unpack {s t u : State} {k : Nat} (hs : s.runState = .rows) (hl : s.layout ≠ .none)
    (hf : FillFrame s t) (hpos : t.streamPos = BitVec.ofNat 32 (s.streamPos.toNat + k)) (hu : OnlyOut t u) :
    rowDone s u.finishRow k := by
  have hframe : u = { s with
      streamPos := BitVec.ofNat 32 (s.streamPos.toNat + k), out := u.out, scratch := u.scratch, runCnt := u.runCnt,
      runVal := u.runVal, fillI := u.fillI } := by
    unfold FillFrame at hf
    unfold OnlyOut at hu
    rw [hpos] at hf
    rw [hu, hf]
  rw [hframe]
  refine ⟨rfl, ?_⟩
  show (if (s.rowY.toNat + 1 : Int) = s.h then (if s.layout = .sub ∨ s.layout = .idx8 then RunState.palette else .done)
    else s.runState) = _
  cases hlay : s.layout with
  | none => exact absurd hlay hl
  | sub | idx8 | rgb24 => rw [hs]; rfl

/-- Byte `x` of plane `p` of three planes of `b` bytes lies inside them. -/
theorem planeByte_lt {p x b : Nat} (hp : p < 3) (hx : x < b) : p * b + x < 3 * b :=
  calc p * b + x < (p + 1) * b := by rw [Nat.succ_mul]; omega
    _ ≤ 3 * b := Nat.mul_le_mul_right b hp

/-- Settles O40: the fill, then CLEAR_ROW and UNPACK_RGB24 on the scanline it has left. -/
theorem rowStepDecodesRgb24Row : Obligations.RowStepDecodesRgb24Row := by
  intro s bs k h hs hl hfill
  have ready := h.rowReady hs
  obtain ⟨t, ht, hf, hpos, hposN, hbytes⟩ := fill_fillsTo hfill ready.geometry.capacity
  have readyT := ready.of_fill hf
  have hlt : t.layout = .rgb24 := by rw [hf]; exact hl
  have hw : t.w = s.w := by rw [hf]; rfl
  have hb : t.bpl = s.bpl := by rw [hf]; rfl
  have hbase : t.base = s.base := by rw [hf]; rfl
  rcases Int.lt_or_le s.bpl s.w with hshort | hwide
  · obtain ⟨u, hu, ho⟩ := unpackRow_corrupt readyT hlt (by rw [hb, hw]; exact hshort)
    refine ⟨_, rowStep_fail hs ht hu, fun hle => absurd hle (Int.not_le.2 hshort), fun _ => ⟨?_, ?_⟩⟩
    · have hup : u.streamPos.toNat = s.streamPos.toNat + k := by rw [ho]; exact hposN
      rw [← hup]
      exact failedAt_failEntry u .corrupt
    · show u.rowY = s.rowY
      rw [ho, hf]
  · obtain ⟨u, hu, ho, hout⟩ := unpackRow_rgb24 readyT hlt (by rw [hb, hw]; exact hwide)
    have hwpos := ready.geometry.widthPos
    refine ⟨_, rowStep_ok hs ht hu, fun _ => ⟨rowDone_of_fill_unpack hs (by simp [hl]) hf hpos ho, fun a => ?_⟩,
      fun hlt => absurd hwide (Int.not_le.2 hlt)⟩
    show Memory.read u.out a = _
    rw [hout a, hbase, hw, hb, hf.out]
    show (if s.base ≤ a ∧ a < s.base + 3 * s.w.toNat then _ else _) =
      if s.base ≤ a ∧ a < s.base + 3 * s.w.toNat then _ else _
    split
    · next ha =>
      have hn : s.n = 3 * s.bpl.toNat := by
        have := (ready.rgb hl).2
        rw [if_pos (by omega)] at this
        omega
      exact hbytes _ (hn ▸ planeByte_lt (Nat.mod_lt _ (by decide)) (by omega))
    · rfl

end Sys2Proof.Machine
end

section
/-! The codes LIT, RUN and RUN0 from their own bytes (spec/40_rle_decoder.md R133 to R135, R138). -/

namespace Sys2Proof.Machine

/-- The pass that reads a code with a run of one emits that run's byte, and no run is left (R132). -/
theorem fillPass_readOne {s t : State} (h0 : s.runCnt = 0) (hr : readCode s = .ok () t) (ht : t.runCnt = 1)
    (hi : t.fillI.toNat < t.params.scratchCap) :
    fillPass s = .ok () { t with
      scratch := scratchPut t t.fillI.toNat t.runVal, fillI := BitVec.ofNat 32 (t.fillI.toNat + 1), runCnt := 0 } := by
  have hleft : t.runCnt - 1 = 0 := by rw [ht]; decide
  rw [fillPass, if_pos h0, hr, Flow.bind_ok, emit, if_neg (by rw [ht]; decide), scratchWrite_ok hi, Flow.bind_ok, hleft]

/-- Settles O18: the literal's run of one, and the pass that emits it. -/
theorem literalEmitsItsByteOnce : Obligations.LiteralEmitsItsByteOnce := by
  intro s v hv hs
  have hlit := lit_ok v hs.1
  refine ⟨by rw [exec, execLit, hlit]; rfl, fun h0 hi hcap => ?_⟩
  have hread : readCode s = .ok () { s.withPos (s.streamPos.toNat + 1) with runVal := v, runCnt := 1 } := by
    rw [readCode, nextCode_lit (by simpa [litValueOk] using hv) hs]
    exact hlit
  exact ⟨_, fillPass_readOne h0 hread rfl (Nat.lt_of_lt_of_le hi hcap), rfl, scratchByte_put s s.fillI.toNat v⟩

/-- Settles O21: both codes read two bytes first, and the second read meets the end of the stream. -/
theorem missingValueByteIsTruncated : Obligations.MissingValueByteIsTruncated := by
  intro s n v hr hend
  refine ⟨(s.withPos (s.streamPos.toNat + 1)).failEntry .truncated, ?_, ?_, ?_, rfl⟩
  · rw [exec, execRun, run, readTwo_truncated hr hend, Flow.finish_fail]
  · rw [exec, execRun0, run0, readTwo_truncated hr hend, Flow.finish_fail]
  · have hp : (s.withPos (s.streamPos.toNat + 1)).streamPos.toNat = s.streamPos.toNat + 1 :=
      State.withPos_toNat hr.1
    have hfail := failedAt_failEntry (s.withPos (s.streamPos.toNat + 1)) .truncated
    rwa [hp] at hfail

end Sys2Proof.Machine
end

section
/-! The register window and STATUS (spec/10_state.md R21 to R23, R35), and the command a host write to CMD issues
(spec/30_encoding.md R102). -/

namespace Sys2Proof.Machine

/-- The four bytes of a word, put together again (R66). -/
theorem wordBytes_append (w : Word) :
    w.extractLsb' 24 8 ++ w.extractLsb' 16 8 ++ w.extractLsb' 8 8 ++ w.extractLsb' 0 8 = w := by
  rw [BitVec.extractLsb'_append_extractLsb'_eq_extractLsb' (by decide),
    BitVec.extractLsb'_append_extractLsb'_eq_extractLsb' (by decide),
    BitVec.extractLsb'_append_extractLsb'_eq_extractLsb' (by decide)]
  exact BitVec.extractLsb'_eq_self

/-- The bytes of a word written to CMD decode to the command of the word (R102). -/
theorem decode_wordBytes (w : Word) : decode .command (wordBytes w) = .ok (decodeCommand w) [] := by
  rw [wordBytes, decode, wordBytes_append]

/-- CMD is the register at the first four offsets (R21, R66). -/
theorem regAt_cmd {offset : BitVec 12} (h : offset.toNat < 4) : regAt offset = .cmd := by
  have hi : offset.toNat / 4 = 0 := by omega
  rw [regAt, hi]
  rfl

/-- Settles O6: the write is to CMD, and the word's bytes decode to the command that the write issues. -/
theorem commandWriteRunsDecodedInstruction : Obligations.CommandWriteRunsDecodedInstruction := by
  intro s offset w rest i hin hoff hdec
  rw [decode_wordBytes] at hdec
  cases hdec
  rw [step, hin]
  show hostWrite offset w _ = _
  rw [hostWrite, if_pos (regAt_cmd hoff)]

/-- None of the 22 registers at the bottom of the map is a reserved one (R21). -/
theorem lowRegs_ne_reserved : ∀ i < 22, lowRegs.getD i .reserved ≠ .reserved := by decide

/-- An offset is reserved exactly where its word is in none of the three blocks of registers (R21, R35). -/
theorem regAt_reserved_iff (offset : BitVec 12) : regAt offset = .reserved ↔
    22 ≤ offset.toNat / 4 ∧ ¬(64 ≤ offset.toNat / 4 ∧ offset.toNat / 4 < 80) ∧
      ¬(256 ≤ offset.toNat / 4 ∧ offset.toNat / 4 < 512) := by
  simp only [regAt]
  split
  · next h => exact ⟨fun e => absurd e (lowRegs_ne_reserved _ h), fun e => absurd h (by omega)⟩
  · split
    · next h => exact ⟨nofun, fun e => absurd h e.2.1⟩
    · split
      · next h => exact ⟨nofun, fun e => absurd h e.2.2⟩
      · next h1 h2 h3 => exact ⟨fun _ => ⟨by omega, h2, h3⟩, fun _ => rfl⟩

/-- Settles O54: the reserved words of the map are those of the listed ranges, and `readReg` gives 0 for them. -/
theorem reservedOffsetsReadZero : Obligations.ReservedOffsetsReadZero := by
  intro s offset
  have hlt := offset.isLt
  constructor
  · intro h
    have hr : regAt offset = .reserved := (regAt_reserved_iff offset).2 ⟨by omega, by omega, by omega⟩
    exact ⟨hr, by rw [hr]; rfl⟩
  · rintro ⟨hr, -⟩
    obtain ⟨h1, h2, h3⟩ := (regAt_reserved_iff offset).1 hr
    omega

/-- The fields of STATUS at their places (R23). -/
theorem statusFields_toNat : ∀ (state err : BitVec 3) (ign : Bool),
    (0#23 ++ BitVec.ofBool ign ++ 0#1 ++ err ++ 0#1 ++ state).toNat =
      state.toNat + 16 * err.toNat + (if ign then 256 else 0) := by decide

theorem RunState.code_lt (r : RunState) : r.code.toNat < 6 := by cases r <;> decide

theorem errCode_lt (e : Option ErrKind) : (errCode e).toNat < 6 := by
  cases e with
  | none => decide
  | some k => cases k <;> decide

/-- Settles O55, by the places of the fields and the values of their codes. -/
theorem statusWordHasThreeFields : Obligations.StatusWordHasThreeFields :=
  fun s => ⟨statusFields_toNat s.runState.code (errCode s.err) s.ign, s.runState.code_lt, errCode_lt s.err⟩

end Sys2Proof.Machine
end

section
/-! The engine steps read nothing of the stream at or past STREAM_LEN (spec/20_memory.md R60 to R62, spec/43_control.md
R234): two runs side by side, on two streams that agree below STREAM_LEN. -/

namespace Sys2Proof.Machine

/-- `t` is `s` with the stream `m`, which agrees with that of `s` below STREAM_LEN. -/
def StreamSwap (m : Memory) (s t : State) : Prop :=
  t = { s with stream := m } ∧ ∀ a, a < s.streamLen.toNat → Memory.read m a = Memory.read s.stream a

variable {m : Memory} {s t : State}

theorem StreamSwap.params (h : StreamSwap m s t) : t.params = s.params := by rw [h.1]
theorem StreamSwap.cfgEnc (h : StreamSwap m s t) : t.cfgEnc = s.cfgEnc := by rw [h.1]
theorem StreamSwap.cfgPitch (h : StreamSwap m s t) : t.cfgPitch = s.cfgPitch := by rw [h.1]
theorem StreamSwap.layout (h : StreamSwap m s t) : t.layout = s.layout := by rw [h.1]
theorem StreamSwap.streamPos (h : StreamSwap m s t) : t.streamPos = s.streamPos := by rw [h.1]
theorem StreamSwap.streamLen (h : StreamSwap m s t) : t.streamLen = s.streamLen := by rw [h.1]
theorem StreamSwap.runCnt (h : StreamSwap m s t) : t.runCnt = s.runCnt := by rw [h.1]
theorem StreamSwap.runVal (h : StreamSwap m s t) : t.runVal = s.runVal := by rw [h.1]
theorem StreamSwap.fillI (h : StreamSwap m s t) : t.fillI = s.fillI := by rw [h.1]
theorem StreamSwap.base (h : StreamSwap m s t) : t.base = s.base := by rw [h.1]; rfl
theorem StreamSwap.rowBytes (h : StreamSwap m s t) : t.rowBytes = s.rowBytes := by rw [h.1]; rfl
theorem StreamSwap.w (h : StreamSwap m s t) : t.w = s.w := by rw [h.1]; rfl
theorem StreamSwap.n (h : StreamSwap m s t) : t.n = s.n := by rw [h.1]; rfl
theorem StreamSwap.np (h : StreamSwap m s t) : t.np = s.np := by rw [h.1]; rfl
theorem StreamSwap.bpl (h : StreamSwap m s t) : t.bpl = s.bpl := by rw [h.1]; rfl
theorem StreamSwap.passBound (h : StreamSwap m s t) : t.passBound = s.passBound := by rw [h.1]; rfl
theorem StreamSwap.colorCount (h : StreamSwap m s t) : t.colorCount = s.colorCount := by rw [h.1]; rfl

theorem StreamSwap.read (h : StreamSwap m s t) {a : Nat} (ha : a < s.streamLen.toNat) :
    Memory.read t.stream a = Memory.read s.stream a := by
  rw [h.1]
  exact h.2 a ha

/-! ### Operations that read no stream byte -/

theorem scratchWrite_swap (h : StreamSwap m s t) (i : Nat) (v : Byte) :
    (scratchWrite i v s).Rel (StreamSwap m) (scratchWrite i v t) := by
  obtain ⟨rfl, hm⟩ := h
  simp only [scratchWrite]
  split
  · exact ⟨rfl, rfl, hm⟩
  · exact rfl

theorem scratchRead_swap (h : StreamSwap m s t) (i : Nat) :
    (scratchRead i s).Rel (StreamSwap m) (scratchRead i t) := by
  obtain ⟨rfl, hm⟩ := h
  simp only [scratchRead]
  split
  · exact ⟨rfl, rfl, hm⟩
  · exact rfl

theorem outWrite_swap (h : StreamSwap m s t) (a : Nat) (v : Byte) :
    (outWrite a v s).Rel (StreamSwap m) (outWrite a v t) := by
  obtain ⟨rfl, hm⟩ := h
  simp only [outWrite]
  split
  · exact ⟨rfl, rfl, hm⟩
  · exact rfl

theorem outRead_swap (h : StreamSwap m s t) (a : Nat) : (outRead a s).Rel (StreamSwap m) (outRead a t) := by
  obtain ⟨rfl, hm⟩ := h
  simp only [outRead]
  split
  · exact ⟨rfl, rfl, hm⟩
  · exact rfl

theorem clearRow_swap (h : StreamSwap m s t) : (clearRow s).Rel (StreamSwap m) (clearRow t) := by
  rw [clearRow, clearRow, h.rowBytes]
  refine forN_rel _ h fun b s t _ h => ?_
  rw [h.base]
  exact outWrite_swap h _ _

theorem subBit_swap (h : StreamSwap m s t) (p j : Nat) (b : Byte) (k : Nat) :
    (subBit p j b k s).Rel (StreamSwap m) (subBit p j b k t) := by
  rw [subBit, subBit, h.w, h.base]
  split
  · refine (outRead_swap h _).bind fun old s t h => ?_
    rw [h.base]
    exact outWrite_swap h _ _
  · exact ⟨rfl, h⟩

theorem unpackSub_swap (h : StreamSwap m s t) (np : Nat) :
    (unpackSub np s).Rel (StreamSwap m) (unpackSub np t) := by
  refine forN_rel np h fun p s t _ h => ?_
  rw [h.bpl]
  refine forN_rel _ h fun j s t _ h => ?_
  rw [h.bpl]
  exact (scratchRead_swap h _).bind fun b s t h => forN_rel 8 h fun k s t _ h => subBit_swap h p j b k

theorem unpackIdx8_swap (h : StreamSwap m s t) : (unpackIdx8 s).Rel (StreamSwap m) (unpackIdx8 t) := by
  rw [unpackIdx8, unpackIdx8, h.w, h.n]
  refine forN_rel _ h fun x s t _ h => (scratchRead_swap h x).bind fun v s t h => ?_
  rw [h.base]
  exact outWrite_swap h _ v

theorem rgbByte_swap (h : StreamSwap m s t) (p x : Nat) :
    (rgbByte p x s).Rel (StreamSwap m) (rgbByte p x t) := by
  simp only [rgbByte, h.bpl, h.n, h.cfgPitch]
  split
  · exact ⟨rfl, h⟩
  · split
    · exact ⟨rfl, h⟩
    · refine (scratchRead_swap h _).bind fun v s t h => ?_
      rw [h.base]
      exact outWrite_swap h _ v

theorem unpackRgb24_swap (h : StreamSwap m s t) : (unpackRgb24 s).Rel (StreamSwap m) (unpackRgb24 t) := by
  refine forN_rel 3 h fun p s t _ h => ?_
  rw [h.w]
  exact forN_rel _ h fun x s t _ h => rgbByte_swap h p x

theorem unpack_swap (h : StreamSwap m s t) : (unpack s).Rel (StreamSwap m) (unpack t) := by
  rw [unpack, unpack, h.layout, h.np]
  cases s.layout with
  | sub => exact unpackSub_swap h _
  | idx8 => exact unpackIdx8_swap h
  | rgb24 => exact unpackRgb24_swap h
  | none => exact rfl

/-! ### The stream primitives (R61 to R63) -/

theorem streamRead1_swap (h : StreamSwap m s t) : (streamRead1 s).Rel (StreamSwap m) (streamRead1 t) := by
  obtain ⟨rfl, hm⟩ := h
  simp only [streamRead1]
  split
  · exact ⟨rfl, rfl, hm⟩
  · next hlen =>
    split
    · exact rfl
    · exact ⟨congrArg some (hm _ (Nat.not_le.1 hlen)).symm, rfl, hm⟩

theorem streamReadN_swap (h : StreamSwap m s t) (n : Nat) :
    (streamReadN n s).Rel (StreamSwap m) (streamReadN n t) := by
  obtain ⟨rfl, hm⟩ := h
  simp only [streamReadN]
  split
  · exact ⟨rfl, rfl, hm⟩
  · next hlen =>
    split
    · exact rfl
    · refine ⟨congrArg some (List.map_congr_left fun i hi => (hm _ ?_).symm), rfl, hm⟩
      have := List.mem_range.1 hi
      omega

theorem streamSeekFromEnd_swap (h : StreamSwap m s t) (k : Nat) :
    (streamSeekFromEnd k s).Rel (StreamSwap m) (streamSeekFromEnd k t) := by
  obtain ⟨rfl, hm⟩ := h
  simp only [streamSeekFromEnd]
  split
  · exact ⟨rfl, rfl, hm⟩
  · exact ⟨rfl, rfl, hm⟩

theorem readByteOrFail_swap (h : StreamSwap m s t) :
    (readByteOrFail s).Rel (StreamSwap m) (readByteOrFail t) := by
  refine (streamRead1_swap h).bind fun r s t h => ?_
  cases r with
  | none => exact ⟨rfl, h⟩
  | some b => exact ⟨rfl, h⟩

/-! ### Codes and fills -/

theorem lit_swap (h : StreamSwap m s t) (v : Byte) : (lit v s).Rel (StreamSwap m) (lit v t) :=
  (readByteOrFail_swap h).bind fun _ _ _ h => ⟨rfl, by rw [h.1], h.2⟩

theorem run_swap (h : StreamSwap m s t) (n : BitVec 6) (v : Byte) :
    (run n v s).Rel (StreamSwap m) (run n v t) :=
  (readByteOrFail_swap h).bind fun _ _ _ h => (readByteOrFail_swap h).bind fun _ _ _ h => ⟨rfl, by rw [h.1], h.2⟩

theorem run0Policy_swap (h : StreamSwap m s t) (v : Byte) :
    (run0Policy v s).Rel (StreamSwap m) (run0Policy v t) := by
  rw [run0Policy, run0Policy, h.params, h.fillI, h.n]
  cases s.params.zeroRunPolicy with
  | nop => exact ⟨rfl, h⟩
  | corrupt => exact ⟨rfl, h⟩
  | fillRest =>
    exact (forFrom_rel _ _ _ _ h fun i _ _ _ _ h => scratchWrite_swap h i v).bind
      fun _ _ _ h => ⟨rfl, by rw [h.1], h.2⟩

theorem run0_swap (h : StreamSwap m s t) (v : Byte) : (run0 v s).Rel (StreamSwap m) (run0 v t) :=
  (readByteOrFail_swap h).bind fun _ _ _ h => (readByteOrFail_swap h).bind fun _ _ _ h => run0Policy_swap h v

theorem runCode_swap (h : StreamSwap m s t) (i : Instr) : (runCode i s).Rel (StreamSwap m) (runCode i t) := by
  cases i with
  | lit v => exact lit_swap h v
  | run0 v => exact run0_swap h v
  | run n v => exact run_swap h n v
  | fillRaw | fillRle | unpackSub _ | unpackIdx8 | unpackRgb24 | clearRow | palInline | palTrailing | rowStep | palStep
  | nop | validate | start | clear | reservedCmd _ => exact rfl

theorem readCode_eof (h : s.streamLen.toNat ≤ s.streamPos.toNat) : readCode s = .fail .truncated s := by
  rw [readCode, nextCode, if_pos h]

theorem readCode_byte (h : s.streamPos.toNat < s.streamLen.toNat) : readCode s =
    runCode (codeOf (Memory.read s.stream s.streamPos.toNat) (Memory.read s.stream (s.streamPos.toNat + 1))) s := by
  rw [readCode, nextCode, if_neg (Nat.not_le.2 h)]

/-- Where at most one byte is left, a two-byte code reads it and is truncated (R138). -/
theorem readTwo_lastByte {α : Type} (h : s.streamLen.toNat ≤ s.streamPos.toNat + 1) (f : State → Flow α) :
    ((readByteOrFail s).bind fun _ s => (readByteOrFail s).bind fun _ s => f s) =
      (readByteOrFail s).bind fun _ s => .fail .truncated s := by
  rcases readByteOrFail_cases s with ⟨_, e⟩ | ⟨_, _, e⟩ | ⟨hr, e⟩
  · rw [e]; rfl
  · rw [e]; rfl
  · rw [readTwo_truncated hr (Nat.le_antisymm hr.1 h), e]; rfl

/-- A run's control byte is no literal (R91 to R93). -/
theorem litValueOk_runByte : ∀ n : BitVec 6, litValueOk (3#2 ++ n) = false := by decide

/-- What the last byte of the stream does hangs on that byte alone: it is a literal, or the control byte of a run
that is truncated (R92, R95, R138). -/
theorem readCode_lastByte (hpos : s.streamPos.toNat < s.streamLen.toNat)
    (hlast : s.streamLen.toNat ≤ s.streamPos.toNat + 1) :
    readCode s = if litValueOk (Memory.read s.stream s.streamPos.toNat) then
        lit (Memory.read s.stream s.streamPos.toNat) s
      else (readByteOrFail s).bind fun _ s => .fail .truncated s := by
  rw [readCode_byte hpos]
  generalize Memory.read s.stream s.streamPos.toNat = c
  rcases codeOf_cases c (Memory.read s.stream (s.streamPos.toNat + 1)) with ⟨hc, e⟩ | ⟨rfl, e⟩ | ⟨_, hc, e⟩ <;> rw [e]
  · rw [if_pos hc]; rfl
  · rw [if_neg (by decide)]; exact readTwo_lastByte hlast _
  · rw [if_neg (by rw [← hc, litValueOk_runByte]; decide)]; exact readTwo_lastByte hlast _

/-- `nextCode` looks at the byte after the control byte even where that is past STREAM_LEN, but what it then makes of
the code depends on the control byte alone. -/
theorem readCode_swap (h : StreamSwap m s t) : (readCode s).Rel (StreamSwap m) (readCode t) := by
  have hpos := h.streamPos
  have hlen := h.streamLen
  by_cases heof : s.streamLen.toNat ≤ s.streamPos.toNat
  · rw [readCode_eof heof, readCode_eof (s := t) (by rw [hpos, hlen]; exact heof)]
    exact ⟨rfl, h⟩
  · have hcontrol := h.read (Nat.not_le.1 heof)
    by_cases hlast : s.streamLen.toNat ≤ s.streamPos.toNat + 1
    · rw [readCode_lastByte (Nat.not_le.1 heof) hlast, readCode_lastByte (s := t) (by rw [hpos, hlen]; omega)
        (by rw [hpos, hlen]; exact hlast), hpos, hcontrol]
      split
      · exact lit_swap h _
      · exact (readByteOrFail_swap h).bind fun _ _ _ h => ⟨rfl, h⟩
    · rw [readCode_byte (Nat.not_le.1 heof), readCode_byte (s := t) (by rw [hpos, hlen]; omega), hpos, hcontrol,
        h.read (Nat.not_le.1 hlast)]
      exact runCode_swap h _

theorem emit_swap (h : StreamSwap m s t) : (emit s).Rel (StreamSwap m) (emit t) := by
  rw [emit, emit, h.runCnt, h.fillI, h.runVal]
  split
  · exact ⟨rfl, h⟩
  · exact (scratchWrite_swap h _ _).bind fun _ _ _ h => ⟨rfl, by rw [h.1], h.2⟩

theorem fillPass_swap (h : StreamSwap m s t) : (fillPass s).Rel (StreamSwap m) (fillPass t) := by
  rw [fillPass, fillPass, h.runCnt]
  refine Flow.Rel.bind (R := StreamSwap m) ?_ fun _ _ _ h => emit_swap h
  split
  · exact readCode_swap h
  · exact ⟨rfl, h⟩

theorem fillLoop_swap : ∀ (k : Nat) {s t : State}, StreamSwap m s t →
    (fillLoop k s).Rel (StreamSwap m) (fillLoop k t)
  | 0, _, _, h => ⟨rfl, h⟩
  | k + 1, _, _, h => by
    rw [fillLoop, fillLoop, h.fillI, h.n]
    split
    · exact (fillPass_swap h).bind fun _ _ _ h => fillLoop_swap k h
    · exact ⟨rfl, h⟩

theorem fillRle_swap (h : StreamSwap m s t) : (fillRle s).Rel (StreamSwap m) (fillRle t) := by
  rw [fillRle, fillRle, h.passBound]
  refine fillLoop_swap _ ⟨?_, h.2⟩
  rw [h.1]
  rfl

theorem fillRaw_swap (h : StreamSwap m s t) : (fillRaw s).Rel (StreamSwap m) (fillRaw t) := by
  rw [fillRaw, fillRaw, h.n]
  refine (streamReadN_swap h _).bind fun r s t h => ?_
  cases r with
  | none => exact ⟨rfl, h⟩
  | some bytes =>
    rw [h.n]
    exact forN_rel _ h fun i _ _ _ h => scratchWrite_swap h i _

theorem fill_swap (h : StreamSwap m s t) : (fill s).Rel (StreamSwap m) (fill t) := by
  rw [fill, fill, h.cfgEnc]
  split
  · exact fillRaw_swap h
  · split
    · exact fillRle_swap h
    · exact rfl

/-! ### The palette operations -/

theorem palInline_swap (h : StreamSwap m s t) : (palInline s).Rel (StreamSwap m) (palInline t) := by
  rw [palInline, palInline, h.colorCount]
  split
  · exact rfl
  · exact ⟨rfl, by rw [h.1], h.2⟩

theorem scanMarker_swap : ∀ (k : Nat) {s t : State}, StreamSwap m s t →
    (scanMarker k s).Rel (StreamSwap m) (scanMarker k t)
  | 0, _, _, h => ⟨rfl, h⟩
  | k + 1, _, _, h => by
    refine (streamRead1_swap h).bind fun r s t h => ?_
    cases r with
    | none => exact ⟨rfl, h⟩
    | some b =>
      dsimp only
      split
      · exact ⟨rfl, h⟩
      · exact scanMarker_swap k h

theorem readTable_swap (h : StreamSwap m s t) : (readTable s).Rel (StreamSwap m) (readTable t) := by
  refine (streamReadN_swap h _).bind fun r s t h => ?_
  cases r with
  | none => exact ⟨rfl, h⟩
  | some bytes => exact ⟨rfl, by rw [h.1], h.2⟩

theorem seekTable_swap (h : StreamSwap m s t) : (seekTable s).Rel (StreamSwap m) (seekTable t) := by
  refine (streamSeekFromEnd_swap h _).bind fun found s t h => ?_
  cases found with
  | true => exact ⟨rfl, h⟩
  | false => exact ⟨rfl, h⟩

theorem palTrailing_swap (h : StreamSwap m s t) : (palTrailing s).Rel (StreamSwap m) (palTrailing t) := by
  rw [palTrailing, palTrailing, h.streamPos, h.streamLen]
  refine (scanMarker_swap _ h).bind fun found s t h => ?_
  refine Flow.Rel.bind (R := StreamSwap m) ?_ fun _ _ _ h => readTable_swap h
  cases found with
  | true => exact ⟨rfl, h⟩
  | false => exact seekTable_swap h

theorem palette_swap (h : StreamSwap m s t) : (palette s).Rel (StreamSwap m) (palette t) := by
  rw [palette, palette, h.layout]
  cases s.layout with
  | sub => exact palInline_swap h
  | idx8 => exact palTrailing_swap h
  | rgb24 | none => exact rfl

/-! ### The two engine steps -/

theorem rowRule_swap (h : StreamSwap m s t) : (rowRule s).Rel (StreamSwap m) (rowRule t) := by
  refine (fill_swap h).bind fun _ _ _ h => (clearRow_swap h).bind fun _ _ _ h => (unpack_swap h).bind fun _ s t h => ?_
  refine ⟨rfl, ?_, h.2⟩
  rw [h.1]
  rfl

theorem palRule_swap (h : StreamSwap m s t) : (palRule s).Rel (StreamSwap m) (palRule t) :=
  (palette_swap h).bind fun _ _ _ h => ⟨rfl, by rw [h.1], h.2⟩

/-- Where an operation ends in a next state, the operation beside it ends in that state, the other stream in place. -/
theorem Flow.Rel.finish_swap {x y : Flow Unit} (h : x.Rel (StreamSwap m) y) (hx : x.finish = .next t) :
    y.finish = .next { t with stream := m } := by
  obtain ⟨t', hy, ht | ⟨k, u, v, huv, rfl, rfl⟩⟩ := h.finish hx
  · rw [hy, ht.1]
  · rw [hy, huv.1]
    rfl

/-- Settles O45: the two engine steps, run side by side on the two streams. -/
theorem bytesPastStreamLenHaveNoInfluence : Obligations.BytesPastStreamLenHaveNoInfluence := by
  intro i s t m hi hm ht
  have h : StreamSwap m s { s with stream := m } := ⟨rfl, hm⟩
  rcases hi with rfl | rfl
  · rw [exec, execRowStep] at ht ⊢
    split at ht
    · next hs =>
      rw [if_pos hs]
      exact (rowRule_swap h).finish_swap ht
    · next hs =>
      cases ht
      exact if_neg hs
  · rw [exec, execPalStep] at ht ⊢
    split at ht
    · next hs =>
      rw [if_pos hs]
      exact (palRule_swap h).finish_swap ht
    · next hs =>
      cases ht
      exact if_neg hs

end Sys2Proof.Machine
end

section
/-! No step stops in a state of the invariant, with a host that keeps its guarantees (spec/20_memory.md R60, R64, R73):
the engine's steps, then the commands and the host's accesses. -/

namespace Sys2Proof.Machine

theorem execRowStep_goes {s : State} (h : s.Inv) (hg : s.streamGuarantee) : Goes (exec .rowStep s) := by
  rw [exec, execRowStep]
  split
  · next hs =>
    have hrow : (rowRule s).Runs fun _ _ => True := by
      rw [rowRule_eq]
      exact (rowBody_runs (h.rowReady hs) hg).bind fun _ _ _ => trivial
    exact hrow.goes
  · exact ⟨s, rfl⟩

theorem execPalStep_goes {s : State} (h : s.Inv) (hg : s.streamGuarantee) : Goes (exec .palStep s) := by
  rw [exec, execPalStep]
  split
  · next hs =>
    rcases palRule_cases (h.geometry (by simp [hs]) (by simp [hs])) (h.indexed hs) with
      ⟨_, e⟩ | ⟨_, p, table, _, e⟩ | ⟨_, p, e⟩ | ⟨_, hspace, _⟩
    · exact ⟨_, by rw [e, Flow.finish_ok]⟩
    · exact ⟨_, by rw [e, Flow.finish_ok]⟩
    · exact ⟨_, by rw [e, Flow.finish_fail]⟩
    · exact absurd hg (Nat.not_le.2 hspace)
  · exact ⟨s, rfl⟩

theorem engineTurn_goes {s : State} (h : s.Inv) (hg : s.streamGuarantee) : Goes (engineTurn s) := by
  rcases engineTurn_cases s with ⟨_, e⟩ | ⟨_, e⟩ | ⟨_, _, e⟩ <;> rw [e]
  · exact execRowStep_goes h hg
  · exact execPalStep_goes h hg
  · exact ⟨s, rfl⟩

/-- A command goes on from every state: at worst it raises the failure entry (R220 to R225). -/
theorem execCommand_goes (w : Word) (s : State) : Goes (exec (decodeCommand w) s) := by
  unfold decodeCommand
  split
  · rw [exec_reservedCmd]
    exact issue_goes trivial
  split
  · rw [exec_nop]
    exact issue_goes trivial
  split
  · rw [exec_validate]
    exact issue_goes (validateRule_runs _)
  split
  · rw [exec_start]
    exact issue_goes (startRule_runs _)
  · rw [exec_clear]
    exact issue_goes trivial

theorem hostWrite_goes (offset : BitVec 12) (w : Word) (s : State) : Goes (hostWrite offset w s) := by
  unfold hostWrite
  split
  · exact execCommand_goes w s
  · exact ⟨_, rfl⟩

theorem hostWait_goes {s : State} (s' : State) (h : s.Inv) (hg : s.streamGuarantee) : Goes (hostWait s s') := by
  unfold hostWait
  split
  · exact engineTurn_goes (h.withRdata _) hg
  · exact ⟨_, rfl⟩

theorem hostStoreStream_goes {a : Word} {s : State} (v : Byte) (ha : a.toNat < s.params.streamSpace) :
    Goes (hostStoreStream a v s) := by
  rw [hostStoreStream, if_neg (Nat.not_le.2 ha)]
  split
  · exact ⟨_, rfl⟩
  · exact ⟨_, rfl⟩

theorem hostStoreSurface_goes {a : Word} {s : State} (v : Byte) (ha : a.toNat < s.params.outSize) :
    Goes (hostStoreSurface a v s) := by
  rw [hostStoreSurface, if_neg (Nat.not_le.2 ha)]
  split
  · exact ⟨_, rfl⟩
  · exact ⟨_, rfl⟩

theorem hostLoadSurface_goes {a : Word} {s : State} (ha : a.toNat < s.params.outSize) :
    Goes (hostLoadSurface a s) := by
  rw [hostLoadSurface, if_neg (Nat.not_le.2 ha)]
  exact ⟨_, rfl⟩

/-- Settles O59, arm by arm of step: the engine's steps go on in the invariant, commands in every state, and the host's
accesses inside the spaces. -/
theorem invariantStatesNeverStop : Obligations.InvariantStatesNeverStop := by
  intro s h hg hin
  have hrest := h.withInbox
  unfold State.hostInSpace at hin
  unfold step
  cases hbox : s.inbox with
  | nil => exact engineTurn_goes h hg
  | cons op rest =>
    rw [hbox] at hin
    cases op with
    | write offset w => exact hostWrite_goes offset w _
    | read offset => exact ⟨_, rfl⟩
    | wait => exact hostWait_goes _ h hg
    | engineTurn => exact engineTurn_goes (hrest rest) hg
    | reset => exact ⟨_, rfl⟩
    | storeStream a v => exact hostStoreStream_goes v hin
    | storeSurface a v => exact hostStoreSurface_goes v hin
    | loadSurface a => exact hostLoadSurface_goes hin

end Sys2Proof.Machine
end

section
/-! What CLEAR_ROW and a whole ROWS step write to OUT (spec/20_memory.md R64; spec/41_plane_unpacker.md R160, R161). -/

namespace Sys2Proof.Machine

/-- Settles O27, by the loop of stores that CLEAR_ROW is. -/
theorem clearRowZeroesThePixelBytes : Obligations.ClearRowZeroesThePixelBytes := by
  intro s hfits
  obtain ⟨t, ht, honly, hout⟩ := clearRow_ok s hfits
  exact ⟨t, by rw [exec, execClearRow, ht, Flow.finish_ok], honly, hout⟩

/-- Every byte of OUT that is no pixel byte of row ROW_Y of `s` reads in `t` as in `s`. -/
def SameOutsideRow (s t : State) : Prop := ∀ a, ¬s.inRow a → Memory.read t.out a = Memory.read s.out a

/-- The fill writes no byte of OUT, CLEAR_ROW and the unpacking pixel bytes of the row only; the row's count none. -/
theorem rowRule_sameOutsideRow {s : State} (h : RowReady s) : (rowRule s).Ends (SameOutsideRow s) := by
  rw [rowRule_eq]
  exact (rowBody_onlyRow h).bind (fun _ _ hu => hu) fun _ hu => hu

/-- Settles O42: the rule of the ROWS step keeps the other bytes however it ends, and the failure entry writes none. -/
theorem rowStepWritesOnlyItsRow : Obligations.RowStepWritesOnlyItsRow := by
  intro s t h ht
  rw [exec, execRowStep] at ht
  split at ht
  · next hs =>
    exact (rowRule_sameOutsideRow (h.rowReady hs)).finish (Q := SameOutsideRow s) ht (fun _ hu => hu) fun _ _ hu => hu
  · cases ht
    exact fun _ _ => rfl

end Sys2Proof.Machine
end

section
/-! What the host finds in OUT (spec/20_memory.md R75, spec/70_reset_and_hazards.md R296): which steps list a race, and
which begin a decode. -/

namespace Sys2Proof.Machine

/-! ### The host's stores and loads in OUT -/

theorem mem_otherRaces (a : Nat) (races : List (Nat × Nat)) (r : Nat × Nat) :
    r ∈ otherRaces a races ↔ r ∈ races ∧ r.1 ≠ a := by
  simp [otherRaces]

/-- A host load finds the surface byte and changes nothing but the bus (R75). -/
theorem hostLoadSurface_next {a : Word} {s t : State} (h : hostLoadSurface a s = .next t) :
    t = { s with rdata := (s.surfaceByte a.toNat).setWidth 32 } := by
  unfold hostLoadSurface at h
  split at h
  · cases h
  · cases h
    rfl

/-- A host store puts its byte in OUT; a race is listed for it where it is a pixel byte of the busy block (R296), and
none is left for it otherwise. -/
theorem hostStoreSurface_next {a : Word} {v : Byte} {s t : State} (h : hostStoreSurface a v s = .next t) :
    (s.busy = true ∧ s.isPixelByte a.toNat = true ∧ t = { s with
      out := Memory.write s.out a.toNat v
      outRaced := (a.toNat, s.raceCount) :: otherRaces a.toNat s.outRaced
      raceCount := s.raceCount + 1 }) ∨
    ((s.busy && s.isPixelByte a.toNat) = false ∧
      t = { s with out := Memory.write s.out a.toNat v, outRaced := otherRaces a.toNat s.outRaced }) := by
  unfold hostStoreSurface at h
  split at h
  · cases h
  · split at h
    · next hrace =>
      cases h
      obtain ⟨hbusy, hpixel⟩ := Bool.and_eq_true_iff.1 hrace
      exact .inl ⟨hbusy, hpixel, rfl⟩
    · next hrace =>
      cases h
      exact .inr ⟨Bool.eq_false_of_not_eq_true hrace, rfl⟩

/-- Where a host store leaves the block: its byte in OUT, the races at other addresses as they were, and its own byte
listed only where it raced. -/
theorem hostStoreSurface_effect {a : Word} {v : Byte} {s t : State} (h : hostStoreSurface a v s = .next t) :
    t = { s with out := t.out, outRaced := t.outRaced, raceCount := t.raceCount } ∧
      (∀ b, Memory.read t.out b = if b = a.toNat then v else Memory.read s.out b) ∧
      (∀ r, r.1 ≠ a.toNat → (r ∈ t.outRaced ↔ r ∈ s.outRaced)) ∧
      (∀ r ∈ t.outRaced, r.1 = a.toNat → s.busy = true ∧ s.isPixelByte a.toNat = true) := by
  rcases hostStoreSurface_next h with ⟨hbusy, hpixel, rfl⟩ | ⟨_, rfl⟩
  · refine ⟨rfl, Memory.read_write _ _ _, fun r hr => ?_, fun _ _ _ => ⟨hbusy, hpixel⟩⟩
    have hne : r ≠ (a.toNat, s.raceCount) := fun e => hr (congrArg Prod.fst e)
    rw [List.mem_cons, mem_otherRaces]
    exact ⟨fun h => (h.resolve_left hne).1, fun h => .inr ⟨h, hr⟩⟩
  · refine ⟨rfl, Memory.read_write _ _ _, fun r hr => ?_, fun r hr e => ?_⟩
    · rw [mem_otherRaces]
      exact and_iff_left hr
    · exact absurd e ((mem_otherRaces _ _ r).1 hr).2

/-! ### Which steps begin a decode -/

/-- The list of races stays as it is from `s` to `t`, and no decode begins. -/
def NoDecodeBegins (s t : State) : Prop :=
  t.outRaced = s.outRaced ∧ (s.runState = .validated → t.runState ≠ .rows)

/-- A decode begins from `s` to `t`: no race is listed, and OUT holds what the host found (R233). -/
def DecodeBegins (s t : State) : Prop := t.outRaced = [] ∧ ∀ a, Memory.read t.out a = s.surfaceByte a

theorem NoDecodeBegins.of_eq {s t : State} (hraced : t.outRaced = s.outRaced) (hrun : t.runState = s.runState) :
    NoDecodeBegins s t :=
  ⟨hraced, fun hs => by rw [hrun, hs]; decide⟩

/-- None but START touches the list of races. -/
theorem NoDecodeBegins.of_exec {i : Instr} {s t : State} (h : exec i s = .next t) (hi : i ≠ .start)
    (hrun : s.runState = .validated → t.runState ≠ .rows) : NoDecodeBegins s t :=
  ⟨(noInstructionWritesConfiguration i s t h).2 hi, hrun⟩

/-- START in VALIDATED begins a decode, or fails (R223); in any other state it is ignored (R220). -/
theorem execStart_decode {s t : State} (h : exec .start s = .next t) : NoDecodeBegins s t ∨ DecodeBegins s t := by
  by_cases hs : s.runState = .validated
  · by_cases hrefused : s.surfaceRefused
    · rw [exec_start_refused hs hrefused] at h
      cases h
      exact .inl ⟨rfl, fun _ => by simp⟩
    · rw [exec_start_accepted hs hrefused] at h
      cases h
      exact .inr ⟨rfl, State.read_settleRaces (s := s.withIgn false) (State.not_busy_of_validated hs)⟩
  · rw [exec_start, issue_ignored (decide_eq_false hs)] at h
    cases h
    exact .inl (.of_eq rfl rfl)

theorem execCommand_decode {s t : State} (w : Word) (h : exec (decodeCommand w) s = .next t) :
    NoDecodeBegins s t ∨ DecodeBegins s t := by
  unfold decodeCommand at h
  split at h
  · rw [exec_reservedCmd, issue_ignored rfl] at h
    cases h
    exact .inl (.of_eq rfl rfl)
  split at h
  · rw [exec_nop, issue_accepted rfl] at h
    cases h
    exact .inl (.of_eq rfl rfl)
  split at h
  · refine .inl (.of_exec h (by decide) fun hs => ?_)
    rw [exec_validate, issue_ignored (by simp [hs])] at h
    cases h
    simp [hs]
  split at h
  · exact execStart_decode h
  · refine .inl (.of_exec h (by decide) fun hs => ?_)
    rw [exec_clear, issue_accepted (by simp [State.acceptsClear, State.not_busy_of_validated hs])] at h
    cases h
    simp

theorem engineTurn_noDecode {s t : State} (h : engineTurn s = .next t) : NoDecodeBegins s t := by
  rcases engineTurn_cases s with ⟨hs, e⟩ | ⟨hs, e⟩ | ⟨_, _, e⟩ <;> rw [e] at h
  · exact .of_exec h (by decide) fun hv => by rw [hs] at hv; cases hv
  · exact .of_exec h (by decide) fun hv => by rw [hs] at hv; cases hv
  · cases h
    exact .of_eq rfl rfl

theorem gated_noDecode (accepted : Bool) {s u : State} (h : NoDecodeBegins s u) :
    NoDecodeBegins s (gated accepted s u) := by
  cases accepted with
  | true => exact h
  | false => exact .of_eq rfl rfl

theorem writeReg_noDecode (r : Reg) (w : Word) (s : State) : NoDecodeBegins s (writeReg r w s) := by
  cases r with
  | cmd => exact .of_eq rfl rfl
  | cfgEnc | cfgBpp | cfgNplanes | cfgBpl | cfgXmin | cfgYmin | cfgXmax | cfgYmax | inlinePal _ | cfgPitch | cfgOutBase
  | streamOrigin | streamPos | streamLen => exact gated_noDecode _ (.of_eq rfl rfl)
  | status | rowY | format | width | height | nbytes | ncolors | failPos | colorTable _ | reserved =>
    exact .of_eq rfl rfl

theorem hostWrite_decode {offset : BitVec 12} {w : Word} {s t : State} (h : hostWrite offset w s = .next t) :
    NoDecodeBegins s t ∨ DecodeBegins s t := by
  unfold hostWrite at h
  split at h
  · exact execCommand_decode w h
  · cases h
    exact .inl (writeReg_noDecode _ w s)

theorem hostWait_noDecode {s t : State} {rest : List HostOp} (h : hostWait s { s with inbox := rest } = .next t) :
    NoDecodeBegins s t := by
  unfold hostWait at h
  split at h
  · exact engineTurn_noDecode (s := { s with rdata := s.statusWord }) h
  · cases h
    exact .of_eq rfl rfl

theorem hostStoreStream_noDecode {a : Word} {v : Byte} {s t : State} (h : hostStoreStream a v s = .next t) :
    NoDecodeBegins s t := by
  unfold hostStoreStream at h
  split at h
  · cases h
  split at h <;> cases h <;> exact .of_eq rfl rfl

/-- Every step but a host store to OUT keeps the list of races and begins no decode, or begins one with no race
listed. -/
theorem step_decode {s t : State} (h : step s = .next t) :
    NoDecodeBegins s t ∨ DecodeBegins s t ∨ ∃ a v rest,
      s.inbox = .storeSurface a v :: rest ∧ hostStoreSurface a v { s with inbox := rest } = .next t := by
  rw [← or_assoc]
  unfold step at h
  cases hbox : s.inbox with
  | nil =>
    rw [hbox] at h
    exact .inl (.inl (engineTurn_noDecode h))
  | cons op rest =>
    rw [hbox] at h
    cases op with
    | write offset w => exact .inl (hostWrite_decode (s := { s with inbox := rest }) h)
    | read offset =>
      cases h
      exact .inl (.inl (.of_eq rfl rfl))
    | wait => exact .inl (.inl (hostWait_noDecode h))
    | engineTurn => exact .inl (.inl (engineTurn_noDecode (s := { s with inbox := rest }) h))
    | reset =>
      cases h
      exact .inl (.inl ⟨rfl, fun _ => by simp [State.hardReset, State.reset]⟩)
    | storeStream a v => exact .inl (.inl (hostStoreStream_noDecode (s := { s with inbox := rest }) h))
    | storeSurface a v => exact .inr ⟨a, v, rest, rfl, h⟩
    | loadSurface a =>
      rw [hostLoadSurface_next h]
      exact .inl (.inl (.of_eq rfl rfl))

/-- Settles O60: the effect of the host's load and store; then the races and the start of a decode, step by step. -/
theorem surfaceByteIsFreeOnlyAfterARace : Obligations.SurfaceByteIsFreeOnlyAfterARace := by
  intro s t h
  refine ⟨fun a rest hbox => ?_, fun a v rest hbox => ?_, fun a ha => ?_, fun r hr => ?_, fun hs ht => ?_⟩
  · rw [step, hbox] at h
    exact hostLoadSurface_next h
  · rw [step, hbox] at h
    obtain ⟨hframe, hout, hother, hraced⟩ := hostStoreSurface_effect h
    refine ⟨hframe, hout, hother, fun hno r hr e => ?_⟩
    obtain ⟨hbusy, hpixel⟩ := hraced r hr e
    rcases hno with hno | hno
    · exact absurd hbusy (Bool.eq_false_iff.1 hno)
    · exact absurd hpixel (Bool.eq_false_iff.1 hno)
  · exact ha.elim (fun hb => State.surfaceByte_busy hb a) State.surfaceByte_notRaced
  · rcases step_decode h with ⟨e, _⟩ | ⟨e, _⟩ | ⟨a, v, rest, hbox, hstore⟩
    · exact .inl (e ▸ hr)
    · rw [e] at hr
      cases hr
    · obtain ⟨_, _, hother, hraced⟩ := hostStoreSurface_effect hstore
      by_cases ha : r.1 = a.toNat
      · obtain ⟨hbusy, hpixel⟩ := hraced r hr ha
        exact .inr ⟨hbusy, ha ▸ hpixel, a, v, rest, hbox, ha.symm⟩
      · exact .inl ((hother r ha).1 hr)
  · rcases step_decode h with ⟨_, hno⟩ | hbegins | ⟨a, v, rest, _, hstore⟩
    · exact absurd ht (hno hs)
    · exact hbegins
    · obtain ⟨hframe, _⟩ := hostStoreSurface_effect hstore
      rw [hframe] at ht
      exact absurd (hs.symm.trans ht) (by decide)

end Sys2Proof.Machine
end

section
/-! The decoder and the encoder against each other (spec/30_encoding.md R90 to R102): what decoding does in each space,
the round trip both ways, the three kinds of control byte, and the two tables of CMD and of the layouts. -/

namespace Sys2Proof

/-! ### Control-byte codes (R91 to R95) -/

/-- The tag is set on the control bytes from 0xC0 on (R91, R92). -/
theorem tagIsRun_iff : ∀ c : Byte, tagIsRun c = true ↔ 0xC0 ≤ c.toNat := by decide

/-- The count field is what a run's control byte has above 0xC0 (R93). -/
theorem countOf_eq_ofNat : ∀ c : Byte, 0xC0 ≤ c.toNat → countOf c = BitVec.ofNat 6 (c.toNat - 0xC0) := by decide

theorem codeOf_of_not_tag {c : Byte} (h : tagIsRun c = false) (v : Byte) : codeOf c v = .lit c :=
  codeOf_lit c v (literal_of_tag c h)

theorem codeOf_of_run {c : Byte} (h : 0xC0 < c.toNat) (v : Byte) :
    codeOf c v = .run (BitVec.ofNat 6 (c.toNat - 0xC0)) v := by
  have hne : c ≠ 0xC0#8 := by rintro rfl; exact absurd h (by decide)
  rw [codeOf, if_neg hne, if_pos ((tagIsRun_iff c).2 h.le), countOf_eq_ofNat c h.le]

theorem codeOf_wellFormed (c v : Byte) : (codeOf c v).wellFormed = true := by
  rcases codeOf_cases c v with ⟨hc, e⟩ | ⟨_, e⟩ | ⟨hn, _, e⟩ <;> rw [e]
  · exact hc
  · rfl
  · exact decide_eq_true hn

/-- A control byte without the tag is a whole code. -/
theorem decodeCode_one {c : Byte} (h : tagIsRun c = false) (rest : List Byte) :
    decodeCode (c :: rest) = .ok (.lit c) rest := by
  simp [decodeCode, h, codeOf_of_not_tag h]

/-- A control byte with the tag makes a code with the byte after it. -/
theorem decodeCode_two {c : Byte} (h : tagIsRun c = true) (v : Byte) (rest : List Byte) :
    decodeCode (c :: v :: rest) = .ok (codeOf c v) rest := by
  simp [decodeCode, h]

/-- What a decoded code was read from: one byte that is a literal, or a tagged byte and its value byte. -/
theorem decodeCode_ok {bs rest : List Byte} {i : Instr} (h : decodeCode bs = .ok i rest) :
    (∃ c, bs = c :: rest ∧ tagIsRun c = false ∧ i = .lit c) ∨
    (∃ c v, bs = c :: v :: rest ∧ tagIsRun c = true ∧ i = codeOf c v) := by
  cases bs with
  | nil => cases h
  | cons c bs =>
    cases ht : tagIsRun c with
    | false =>
      rw [decodeCode_one ht] at h
      cases h
      exact .inl ⟨c, rfl, ht, rfl⟩
    | true =>
      cases bs with
      | nil => simp [decodeCode, ht] at h
      | cons v bs =>
        rw [decodeCode_two ht] at h
        cases h
        exact .inr ⟨c, v, rfl, ht, rfl⟩

/-- A tagged control byte and its value byte are the encoding of the code they make. -/
theorem encode_codeOf {c : Byte} (h : tagIsRun c = true) (v : Byte) : encode (codeOf c v) = ⟨.code, [c, v]⟩ := by
  rcases codeOf_cases c v with ⟨hc, _⟩ | ⟨rfl, e⟩ | ⟨_, hc, e⟩
  · rw [(tag_of_literal c hc).1] at h
    cases h
  · rw [e]; rfl
  · rw [e, encode, hc]

/-! ### The round trip -/

/-- Settles O1, by cases on the instruction: a code by its tag, a layout key by its plane count, a reserved command by
its two bits; every other instruction is one word. -/
theorem decodeEncodeRoundTrip : Obligations.DecodeEncodeRoundTrip := by
  intro i rest hwf
  cases i with
  | lit v => exact decodeCode_one (tag_of_literal v hwf).1 rest
  | run0 v => exact (decodeCode_two (c := 0xC0#8) (by decide) v rest).trans (by rw [codeOf_run0])
  | run n v => exact (decodeCode_two (tag_of_run n).1 v rest).trans (by rw [codeOf_run n v (of_decide_eq_true hwf)])
  | unpackSub np =>
    have hsub : decodeLayout 1#8 np = some (.unpackSub np) := if_pos ⟨rfl, hwf⟩
    rw [encode, List.cons_append, List.cons_append, List.nil_append, decode, hsub, Decoded.ofOption]
  | reservedCmd cc =>
    have hword : ∀ cc : BitVec 2, decodeCommand (0#8 ++ 0#8 ++ 0#8 ++ (1#6 ++ cc)) = .reservedCmd cc := by decide
    exact congrArg (Decoded.ok · rest) (hword cc)
  | fillRaw | fillRle | unpackIdx8 | unpackRgb24 | clearRow | palInline | palTrailing | rowStep | palStep | nop
  | validate | start | clear => rfl

theorem Decoded.ofOption_ok {o : Option Instr} {e : DecodeError} {bs rest : List Byte} {i : Instr}
    (h : Decoded.ofOption o e bs = .ok i rest) : o = some i ∧ bs = rest := by
  cases o with
  | none => cases h
  | some j => cases h; exact ⟨rfl, rfl⟩

/-- A fill mode that decodes is the encoding of what it decodes to (R98). -/
theorem encode_of_decodeFill {enc : Byte} {i : Instr} (h : decodeFill enc = some i) :
    i.wellFormed = true ∧ encode i = ⟨.fill, [enc]⟩ := by
  unfold decodeFill at h
  split at h
  · next he => cases h; exact ⟨rfl, by rw [he]; rfl⟩
  split at h
  · next he => cases h; exact ⟨rfl, by rw [he]; rfl⟩
  · cases h

/-- A layout key that decodes is the encoding of what it decodes to (R100). -/
theorem encode_of_decodeLayout {bpp np : Byte} {i : Instr} (h : decodeLayout bpp np = some i) :
    i.wellFormed = true ∧ encode i = ⟨.layout, [np, bpp]⟩ := by
  unfold decodeLayout at h
  split at h
  · next hk => cases h; exact ⟨hk.2, by rw [hk.1]; rfl⟩
  split at h
  · next hk => cases h; exact ⟨rfl, by rw [hk.1, hk.2]; rfl⟩
  split at h
  · next hk => cases h; exact ⟨rfl, by rw [hk.1, hk.2]; rfl⟩
  · cases h

/-- Settles O2, space by space: what a decoder answers is encoded by the bytes that the decoder took. -/
theorem encodeDecodeRoundTrip : Obligations.EncodeDecodeRoundTrip := by
  rintro sp bs rest i (rfl | rfl | rfl | rfl) h
  · rcases decodeCode_ok h with ⟨c, rfl, ht, rfl⟩ | ⟨c, v, rfl, ht, rfl⟩
    · exact ⟨literal_of_tag c ht, rfl, rfl⟩
    · rw [encode_codeOf ht]
      exact ⟨codeOf_wellFormed c v, rfl, rfl⟩
  · match bs, h with
    | enc :: bs, h =>
      obtain ⟨hi, rfl⟩ := Decoded.ofOption_ok h
      obtain ⟨hwf, henc⟩ := encode_of_decodeFill hi
      rw [henc]
      exact ⟨hwf, rfl, rfl⟩
  · match bs, h with
    | np :: bpp :: bs, h =>
      obtain ⟨hi, rfl⟩ := Decoded.ofOption_ok h
      obtain ⟨hwf, henc⟩ := encode_of_decodeLayout hi
      rw [henc]
      exact ⟨hwf, rfl, rfl⟩
  · cases h
    exact ⟨rfl, rfl, rfl⟩

/-- Settles O3: the tag decides the length, and `codeOf` makes the code. -/
theorem everyControlByteIsACode : Obligations.EveryControlByteIsACode := by
  intro c v rest
  refine ⟨codeOf c v, codeOf_wellFormed c v, ?_, fun hc => ?_, fun hc => ?_, fun hc => codeOf_of_run hc v⟩
  · by_cases hc : 0xC0 ≤ c.toNat
    · rw [if_pos hc]
      exact decodeCode_two ((tagIsRun_iff c).2 hc) v rest
    · have ht : tagIsRun c = false := Bool.eq_false_iff.2 fun h => hc ((tagIsRun_iff c).1 h)
      rw [if_neg hc, codeOf_of_not_tag ht]
      exact decodeCode_one ht _
  · exact codeOf_lit c v (decide_eq_true hc)
  · obtain rfl : c = 0xC0#8 := BitVec.eq_of_toNat_eq hc
    exact codeOf_run0 v

/-- Settles O5: all but the unlisted layout key are the encodings of what they stand for. -/
theorem sampleWordsDecode : Obligations.SampleWordsDecode :=
  ⟨decodeEncodeRoundTrip (.lit 0xBF#8) [] rfl, decodeEncodeRoundTrip (.run 63#6 0x11#8) [] rfl,
    decodeEncodeRoundTrip (.run0 0x99#8) [] rfl, decodeEncodeRoundTrip .fillRle [] rfl,
    decodeEncodeRoundTrip .unpackRgb24 [] rfl, rfl, decodeEncodeRoundTrip .start [] rfl⟩

/-! ### The word written to CMD (R102) -/

/-- The command of a word, by the number in its low three bits. -/
theorem decodeCommand_eq (w : Word) : decodeCommand w =
    if w.toNat % 8 = 0 then .nop else if w.toNat % 8 = 1 then .validate else if w.toNat % 8 = 2 then .start
      else if w.toNat % 8 = 3 then .clear else .reservedCmd (BitVec.ofNat 2 (w.toNat % 8 - 4)) := by
  have hhigh : w.extractLsb' 2 1 = BitVec.ofNat 1 (w.toNat % 8 / 4) := by
    apply BitVec.eq_of_toNat_eq
    rw [BitVec.extractLsb'_toNat, BitVec.toNat_ofNat, Nat.shiftRight_eq_div_pow]
    omega
  have hlow : w.extractLsb' 0 2 = BitVec.ofNat 2 (w.toNat % 8) := by
    apply BitVec.eq_of_toNat_eq
    rw [BitVec.extractLsb'_toNat, BitVec.toNat_ofNat, Nat.shiftRight_zero]
    omega
  have hcode : w.toNat % 8 < 8 := Nat.mod_lt _ (by decide)
  rw [decodeCommand, hhigh, hlow]
  generalize w.toNat % 8 = code at hcode
  revert code
  decide

/-- Settles O4: the four bytes are the word, whose command is that of its low three bits. -/
theorem commandCodeIsLowThreeBits : Obligations.CommandCodeIsLowThreeBits := by
  intro w rest
  rw [← decodeCommand_eq]
  exact congrArg (fun u => Decoded.ok (decodeCommand u) rest) (Machine.wordBytes_append w)

/-! ### The layout table (R100) -/

/-- Settles O15: the pairs, as numbers. -/
theorem layoutTableListsSixPairs : Obligations.LayoutTableListsSixPairs := by
  intro bpp np
  have hplanes : np.toNat ∈ [1, 2, 3, 4] ↔ 1 ≤ np.toNat ∧ np.toNat ≤ 4 := by
    simp only [List.mem_cons, List.not_mem_nil, or_false]
    omega
  simp only [Machine.layoutTable, hplanes, ← BitVec.toNat_inj]
  rfl

end Sys2Proof
end

section
/-! Where decoded instructions run: a pass of FILL_RLE (spec/40_rle_decoder.md R132), a command (spec/43_control.md
R220) and the engine step that WAIT leaves a turn to (spec/30_encoding.md R106). -/

namespace Sys2Proof.Machine

/-! ### A pass of FILL_RLE -/

/-- A code that decodes is what `codeOf` makes of the control byte and the byte after it, whatever stands for that byte
where there is none. -/
theorem eq_codeOf_of_decodeCode {c : Byte} {bs rest : List Byte} {i : Instr} (h : decodeCode (c :: bs) = .ok i rest)
    (v : Byte) : i = codeOf c (bs.headD v) := by
  rcases decodeCode_ok h with ⟨d, hbs, ht, rfl⟩ | ⟨d, u, hbs, _, rfl⟩ <;> cases hbs
  · exact (codeOf_of_not_tag ht _).symm
  · rfl

/-- The first byte of a stretch, or the byte at its address where it is empty. -/
theorem headD_readBytes (m : Memory) (a k : Nat) :
    (Memory.readBytes m a k).headD (Memory.read m a) = Memory.read m a := by
  cases k with
  | zero => rfl
  | succ k => rw [Memory.readBytes_succ]; rfl

/-- The code that the one or two bytes at STREAM_POS decode to is the one that the fill reads there. -/
theorem readCode_of_decode {s : State} {i : Instr} {rest : List Byte} (hpos : s.streamPos.toNat < s.streamLen.toNat)
    (h : decode .code (Memory.readBytes s.stream s.streamPos.toNat (min 2 (s.streamLen.toNat - s.streamPos.toNat))) =
      .ok i rest) :
    i = codeOf (Memory.read s.stream s.streamPos.toNat) (Memory.read s.stream (s.streamPos.toNat + 1)) ∧
      readCode s = runCode i s := by
  obtain ⟨k, hk⟩ : ∃ k, min 2 (s.streamLen.toNat - s.streamPos.toNat) = k + 1 :=
    Nat.exists_eq_add_one.2 (by omega)
  rw [hk, Memory.readBytes_succ] at h
  have hi := eq_codeOf_of_decodeCode h (Memory.read s.stream (s.streamPos.toNat + 1))
  rw [headD_readBytes] at hi
  exact ⟨hi, by rw [readCode_byte hpos, hi]⟩

/-- What the engine runs for a code is the code's meaning. -/
theorem exec_codeOf (c v : Byte) (s : State) : exec (codeOf c v) s = (runCode (codeOf c v) s).finish := by
  rcases codeOf_cases c v with ⟨_, e⟩ | ⟨_, e⟩ | ⟨_, _, e⟩ <;> rw [e] <;> rfl

/-- Settles O8: with no run in progress a pass reads the code at STREAM_POS, runs it and emits. -/
theorem fillPassRunsDecodedCode : Obligations.FillPassRunsDecodedCode := by
  intro s i rest k hrun hroom hpos hdec
  obtain ⟨hi, hread⟩ := readCode_of_decode hpos hdec
  refine ⟨?_, ?_⟩
  · rw [fillLoop_succ k s hroom, fillPass, if_pos hrun, hread, Flow.bind_assoc]
  · rw [hi]
    exact exec_codeOf _ _ s

/-! ### Commands that are not accepted -/

theorem exec_validate_ignored {s : State} (h : s.runState ≠ .idle) : exec .validate s = .next (s.withIgn true) := by
  rw [exec_validate, issue_ignored (decide_eq_false h)]

theorem exec_start_ignored {s : State} (h : s.runState ≠ .validated) : exec .start s = .next (s.withIgn true) := by
  rw [exec_start, issue_ignored (decide_eq_false h)]

theorem State.busy_of_rows_or_palette {s : State} (h : s.runState = .rows ∨ s.runState = .palette) :
    s.busy = true := decide_eq_true h

theorem exec_clear_ignored {s : State} (h : s.busy = true) : exec .clear s = .next (s.withIgn true) := by
  rw [exec_clear, issue_ignored (by rw [State.acceptsClear, h]; rfl)]

/-- Settles O12, command by command. -/
theorem unacceptedCommandSetsIgnOnly : Obligations.UnacceptedCommandSetsIgnOnly := fun _ =>
  ⟨exec_validate_ignored, exec_start_ignored, fun h => exec_clear_ignored (State.busy_of_rows_or_palette h)⟩

/-- While the block is busy a command is NOP, which clears IGN, or it is ignored, which sets it. -/
theorem exec_command_busy {s : State} (h : s.runState = .rows ∨ s.runState = .palette) (w : Word) :
    exec (decodeCommand w) s = .next (s.withIgn (decide (w.toNat % 8 ≠ 0))) := by
  have hidle : s.runState ≠ .idle := by rcases h with h | h <;> rw [h] <;> decide
  have hvalidated : s.runState ≠ .validated := by rcases h with h | h <;> rw [h] <;> decide
  rw [decodeCommand_eq]
  split
  · next h0 => rw [exec_nop, issue_accepted rfl, h0]; rfl
  · next h0 =>
    rw [decide_eq_true h0]
    split
    · exact exec_validate_ignored hidle
    split
    · exact exec_start_ignored hvalidated
    split
    · exact exec_clear_ignored (State.busy_of_rows_or_palette h)
    · rw [exec_reservedCmd, issue_ignored rfl]

/-- The step of a host write to CMD runs the command of its word. -/
theorem step_command {s : State} {offset : BitVec 12} {w : Word} {rest : List HostOp}
    (hbox : s.inbox = .write offset w :: rest) (hoff : offset.toNat < 4) :
    step s = exec (decodeCommand w) { s with inbox := rest } :=
  commandWriteRunsDecodedInstruction s offset w rest _ hbox hoff (decode_wordBytes w)

/-- Settles O51: the step runs the word's command, and a busy block changes IGN at most. -/
theorem noCommandDisturbsBusyBlock : Obligations.NoCommandDisturbsBusyBlock := by
  intro s offset w rest hbusy hbox hoff
  rw [step_command hbox hoff]
  exact exec_command_busy (s := { s with inbox := rest }) hbusy w

/-! ### WAIT -/

theorem step_wait {s : State} {rest : List HostOp} (h : s.inbox = .wait :: rest) :
    step s = hostWait s { s with inbox := rest } := by rw [step, h]

/-- A poll of the busy block leaves the engine its turn. -/
theorem hostWait_busy {s : State} (h : s.busy = true) (s' : State) :
    hostWait s s' = engineTurn { s with rdata := s.statusWord } := if_pos h

theorem engineTurn_rows {s : State} (h : s.runState = .rows) : engineTurn s = exec .rowStep s := by
  rw [engineTurn, h]; rfl

theorem engineTurn_palette {s : State} (h : s.runState = .palette) : engineTurn s = exec .palStep s := by
  rw [engineTurn, h]; rfl

/-- Settles O56: the poll, and the turn of the engine in each busy state. -/
theorem waitPollsUntilNotBusy : Obligations.WaitPollsUntilNotBusy := by
  intro s rest hbox
  rw [step_wait hbox]
  refine ⟨fun h => ?_, fun h => ?_, fun hrows hpalette => ?_⟩
  · rw [hostWait_busy (State.busy_of_rows_or_palette (.inl h))]
    exact engineTurn_rows h
  · rw [hostWait_busy (State.busy_of_rows_or_palette (.inr h))]
    exact engineTurn_palette h
  · have hfree : s.busy = false := decide_eq_false (not_or.2 ⟨hrows, hpalette⟩)
    rw [hostWait, if_neg (Bool.eq_false_iff.1 hfree)]

end Sys2Proof.Machine
end

section
/-! The codes RUN and RUN0 and the two fills (spec/40_rle_decoder.md R131 to R140): what a scanline request leaves, and
where one that fails does. -/

namespace Sys2Proof.Machine

/-! ### RUN and RUN0 -/

theorem exec_run (n : BitVec 6) (v : Byte) (s : State) : exec (.run n v) s = (run n v s).finish := rfl

theorem exec_run0 (v : Byte) (s : State) : exec (.run0 v) s = (run0 v s).finish := rfl

/-- A RUN with all its emissions that fit (R134, R136). -/
theorem fillLoop_run {s : State} {n : BitVec 6} {v : Byte} (hn : n ≠ 0) (hs : s.streamHolds [3#2 ++ n, v])
    (h0 : s.runCnt = 0) (hi : s.fillI.toNat < s.n) (hcap : s.n ≤ s.params.scratchCap) :
    ∃ t, (∀ k, fillLoop (min n.toNat (s.n - s.fillI.toNat) + k) s = fillLoop k t) ∧
      t = { s with
        streamPos := BitVec.ofNat 32 (s.streamPos.toNat + 2), runVal := v,
        runCnt := BitVec.ofNat 6 (n.toNat - min n.toNat (s.n - s.fillI.toNat)),
        fillI := BitVec.ofNat 32 (s.fillI.toNat + min n.toNat (s.n - s.fillI.toNat)), scratch := t.scratch } ∧
      ∀ i, t.scratchByte i =
        if s.fillI.toNat ≤ i ∧ i < s.fillI.toNat + min n.toNat (s.n - s.fillI.toNat) then v
        else s.scratchByte i := by
  have hc : emitsAlways (.run n v) = true := by simpa [emitsAlways, runCountOk] using hn
  obtain ⟨w, m, t, he, hm, -, hloop, hframe, hbytes⟩ := codeRun s (.run n v) hc hs h0 hi hcap
  obtain ⟨rfl, hv⟩ := List.replicate_inj.1 he
  obtain rfl : v = w := hv.resolve_left (by omega)
  exact ⟨t, hloop, hframe, hbytes⟩

/-- Settles O19: the two reads of RUN, and the passes that emit its byte. -/
theorem runEmitsItsByteUpToTheCount : Obligations.RunEmitsItsByteUpToTheCount := by
  intro s n v hn hs
  exact ⟨by rw [exec_run, run_ok n v hs.1]; rfl, fun h0 hi hcap => fillLoop_run hn hs h0 hi hcap⟩

/-- Settles O20, policy by policy, after the two reads that every policy makes. -/
theorem zeroRunFollowsThePolicy : Obligations.ZeroRunFollowsThePolicy := by
  intro s v hs hi hcap
  have hpos : (s.withPos (s.streamPos.toNat + 2)).streamPos.toNat = s.streamPos.toNat + 2 :=
    State.withPos_toNat hs.1.1
  rw [exec_run0, run0_ok v hs.1]
  cases hp : s.params.zeroRunPolicy with
  | nop =>
    exact ⟨s.withPos (s.streamPos.toNat + 2),
      by simp only [run0Policy, State.withPos_params, hp, Flow.finish_ok], rfl⟩
  | corrupt =>
    refine ⟨(s.withPos (s.streamPos.toNat + 2)).failEntry .corrupt,
      by simp only [run0Policy, State.withPos_params, hp, Flow.finish_fail], ?_, rfl⟩
    have hfail := failedAt_failEntry (s.withPos (s.streamPos.toNat + 2)) .corrupt
    rwa [hpos] at hfail
  | fillRest =>
    obtain ⟨t, ht, hframe, hbytes⟩ := fillRest_ok v (s.withPos (s.streamPos.toNat + 2)) hp hi hcap
    exact ⟨t, by rw [ht, Flow.finish_ok], hframe, hbytes⟩

/-! ### FILL_RAW -/

theorem exec_fillRaw (s : State) : exec .fillRaw s = (fillRaw s).finish := rfl

/-- A raw request for more bytes than are left reads none of them (R62, R131). -/
theorem fillRaw_short {s : State} (h : s.streamLen.toNat < s.streamPos.toNat + s.n) :
    fillRaw s = .fail .truncated s := by
  rw [fillRaw, streamReadN_short h, Flow.bind_ok]

/-- A raw request for no bytes (R139). -/
theorem fillRaw_empty {s : State} (hn : s.n = 0) (hpos : s.streamPos.toNat ≤ s.streamLen.toNat) :
    fillRaw s = .ok () s := by
  rw [fillRaw, hn]
  rcases streamReadN_cases 0 s with ⟨h, _⟩ | ⟨h, _⟩ | ⟨_, _, e⟩
  · omega
  · exact absurd rfl h
  · rw [e, Nat.add_zero, State.withPos_self, Flow.bind_ok]
    simp only [forN, hn, forFrom_zero]

/-- Settles O22: the loop of stores over the bytes read, or the read that is short. -/
theorem fillRawCopiesTheScanline : Obligations.FillRawCopiesTheScanline := by
  intro s
  constructor
  · intro hr hcap
    obtain ⟨t, ht, hframe, hbytes⟩ := fillRaw_ok s hr hcap
    exact ⟨t, by rw [exec_fillRaw, ht, Flow.finish_ok], hframe, hbytes⟩
  · intro h
    rw [exec_fillRaw, fillRaw_short h]
    rfl

/-! ### FILL_RLE -/

theorem exec_fillRle (s : State) : exec .fillRle s = (fillRle s).finish := rfl

/-- An RLE request for no bytes makes no pass (R139). -/
theorem fillRle_empty {s : State} (hn : s.n = 0) : fillRle s = .ok () s.startRequest :=
  fillLoop_done _ _ (by show s.n ≤ 0; omega)

/-- Settles O24: neither mode reads a byte for an empty request. -/
theorem emptyRequestReadsNothing : Obligations.EmptyRequestReadsNothing := by
  intro s hn
  refine ⟨?_, fun hpos => ?_⟩
  · rw [exec_fillRle, fillRle_empty hn]
    rfl
  · rw [exec_fillRaw, fillRaw_empty hn hpos, Flow.finish_ok]

/-- Settles O23, by the induction over the codes that `fillRle_ok` rests on. -/
theorem fillRleDecodesTheCodes : Obligations.FillRleDecodesTheCodes := by
  intro s pre c hfills hs hcap
  obtain ⟨t, ht, hframe, hbytes⟩ := fillRle_ok s pre c hfills hs hcap
  exact ⟨t, by rw [exec_fillRle, ht, Flow.finish_ok], hframe, hbytes⟩

/-- Settles O25: the three ends of the loop, and what every fill keeps however it ends. -/
theorem fillRleAlwaysEnds : Obligations.FillRleAlwaysEnds := by
  intro s hcap hg hpos
  have hkeeps := fillRle_keeps s
  rw [exec_fillRle]
  rcases fillRle_ends s hcap hg hpos with ⟨t, e, hend⟩ | ⟨hpolicy, t, e⟩ | ⟨t, e, hfilled, hforward⟩ <;>
    rw [e] at hkeeps ⊢ <;> obtain ⟨hframe, habove, -, -⟩ := hkeeps
  · exact ⟨_, rfl, hframe.out, habove, .inr (.inl (hend ▸ failedAt_failEntry t .truncated))⟩
  · exact ⟨_, rfl, hframe.out, habove, .inr (.inr ⟨hpolicy, failedAt_failEntry t .corrupt⟩)⟩
  · exact ⟨t, rfl, hframe.out, habove, .inl ⟨hframe.runState, hfilled, hforward⟩⟩

/-! ### Codes that emit exactly N bytes -/

theorem emitted_length_pos {c : Instr} (h : emitsAlways c = true) : 0 < (emitted c).length := by
  cases c with
  | lit v => exact Nat.one_pos
  | run n v =>
    have hn : n ≠ 0 := by simpa [emitsAlways, runCountOk] using h
    have hz : n.toNat ≠ 0 := fun e => hn (BitVec.eq_of_toNat_eq (by simpa using e))
    rw [emitted, List.length_replicate]
    omega
  | run0 _ | fillRaw | fillRle | unpackSub _ | unpackIdx8 | unpackRgb24 | clearRow | palInline | palTrailing | rowStep
  | palStep | nop | validate | start | clear | reservedCmd _ => simp [emitsAlways] at h

theorem plainCode_of_emitsAlways {p : Config.ZeroRunPolicy} {c : Instr} (h : emitsAlways c = true) :
    plainCode p c = true := by
  simp [plainCode, h]

/-- LIT and RUN codes that emit exactly `n` bytes fill a request of `n` bytes with their last code. -/
theorem fillsWith_of_emitsAll {p : Config.ZeroRunPolicy} {n : Nat} {pre : List Instr} {c : Instr}
    (h : ∀ i ∈ pre ++ [c], emitsAlways i = true) (hn : (emittedAll (pre ++ [c])).length = n) :
    fillsWith p n pre c := by
  have hc : emitsAlways c = true := h c (by simp)
  have hpos := emitted_length_pos hc
  rw [emittedAll_append, List.length_append, emittedAll_cons, emittedAll_nil, List.append_nil] at hn
  exact ⟨fun i hi => plainCode_of_emitsAlways (h i (by simp [hi])), hc, by omega, by omega⟩

/-- FILL_RLE on LIT and RUN codes that emit exactly N bytes, at least one (R132 to R134). -/
theorem fillRle_emitsAll {s : State} {cs : List Instr} (h : ∀ c ∈ cs, emitsAlways c = true) (hne : cs ≠ [])
    (hn : (emittedAll cs).length = s.n) (hs : s.streamHolds (codeBytes cs)) (hcap : s.n ≤ s.params.scratchCap) :
    ∃ t, fillRle s = .ok () t ∧ FillFrame s t ∧
      t.streamPos.toNat = s.streamPos.toNat + (codeBytes cs).length ∧
      ∀ i, i < s.n → t.scratchByte i = (emittedAll cs).getD i 0 := by
  obtain ⟨pre, c, rfl⟩ := (List.eq_nil_or_concat' cs).resolve_left hne
  obtain ⟨t, ht, hframe, hbytes⟩ := fillRle_ok s pre c (fillsWith_of_emitsAll h hn) hs hcap
  refine ⟨t, ht, by rw [hframe]; rfl, ?_, fun i hi => by rw [hbytes, if_pos hi]⟩
  rw [hframe]
  exact State.withPos_toNat hs.1.1

/-- Settles O26: the codes of `FILL n, v` emit `v` n times, so the whole list emits exactly N bytes. -/
theorem fillCodesRoundTrip : Obligations.FillCodesRoundTrip := by
  intro s n v cs hn hcs hlen hs hcap
  obtain ⟨hemit, hfill⟩ := fillCodes_emit n v
  have hall : emittedAll (fillCodes n v ++ cs) = List.replicate n v ++ emittedAll cs := by
    rw [emittedAll_append, hemit]
  have hlenAll : (emittedAll (fillCodes n v ++ cs)).length = s.n := by
    rw [hall, List.length_append, List.length_replicate, hlen]
  have hne : fillCodes n v ++ cs ≠ [] := fun e => by
    rw [e, emittedAll_nil, List.length_nil] at hlenAll
    omega
  obtain ⟨t, ht, hframe, hpos, hbytes⟩ := fillRle_emitsAll
    (fun c hc => (List.mem_append.1 hc).elim (hfill c) (hcs c)) hne hlenAll hs hcap
  rw [hall] at hbytes
  refine ⟨t, by rw [exec_fillRle, ht, Flow.finish_ok], hframe.runState, fun i hi => ?_, fun j hj => ?_, hpos⟩
  · rw [hbytes i (by omega), List.getD_append _ _ _ _ (by simpa using hi), List.getD_replicate _ hi]
  · rw [hbytes (n + j) (by omega), List.getD_append_right _ _ _ _ (by simp), List.length_replicate,
      Nat.add_sub_cancel_left]

end Sys2Proof.Machine
end

section
/-! The ROWS step of the indexed layouts, and one whose fill fails (spec/43_control.md R230). -/

namespace Sys2Proof.Machine

/-! ### A row of an indexed image (R162, R163) -/

/-- The planes of a scanline are at most its N bytes (R27). -/
theorem State.GeometryHeld.planes_le {s : State} (g : s.GeometryHeld) : s.np * s.bpl.toNat ≤ s.n := by
  rw [g.bytes, State.scanBytes]
  by_cases hp : 0 < s.bpl
  · rw [if_pos hp]
  · rw [if_neg hp, Int.toNat_of_nonpos (Int.not_lt.1 hp), Nat.mul_zero]

/-- Settles O38: the fill, then CLEAR_ROW and UNPACK_SUB on the scanline it has left; the planes lie inside it. -/
theorem rowStepDecodesSubRow : Obligations.RowStepDecodesSubRow := by
  intro s bs k h hs hl hfill
  have ready := h.rowReady hs
  obtain ⟨t, ht, hf, hpos, -, hbytes⟩ := fill_fillsTo hfill ready.geometry.capacity
  obtain ⟨u, hu, ho, hout⟩ := unpackRow_sub (ready.of_fill hf) (by rw [hf]; exact hl)
  have hbase : t.base = s.base := by rw [hf]; rfl
  have hw : t.w = s.w := by rw [hf]; rfl
  have hbpl : t.bpl = s.bpl := by rw [hf]; rfl
  have hnp : t.np = s.np := by rw [hf]; rfl
  refine ⟨_, rowStep_ok hs ht hu, rowDone_of_fill_unpack hs (by simp [hl]) hf hpos ho, fun a => ?_⟩
  show Memory.read u.out a = if s.base ≤ a ∧ a < s.base + s.w.toNat then _ else _
  rw [hout a, hbase, hw, hbpl, hnp, hf.out, subPixel_congr _ _ _ _ _ fun i hi => hbytes i ?_]
  exact Nat.lt_of_lt_of_le hi ready.geometry.planes_le

/-- Settles O39: the fill, then CLEAR_ROW and UNPACK_IDX8 on the scanline it has left. -/
theorem rowStepDecodesIdx8Row : Obligations.RowStepDecodesIdx8Row := by
  intro s bs k h hs hl hfill
  have ready := h.rowReady hs
  obtain ⟨t, ht, hf, hpos, -, hbytes⟩ := fill_fillsTo hfill ready.geometry.capacity
  obtain ⟨u, hu, ho, hout⟩ := unpackRow_idx8 (ready.of_fill hf) (by rw [hf]; exact hl)
  have hbase : t.base = s.base := by rw [hf]; rfl
  have hw : t.w = s.w := by rw [hf]; rfl
  refine ⟨_, rowStep_ok hs ht hu, rowDone_of_fill_unpack hs (by simp [hl]) hf hpos ho, fun a => ?_⟩
  show Memory.read u.out a = if s.base ≤ a ∧ a < s.base + s.w.toNat then _ else _
  rw [hout a, hbase, hw, hf.n, hf.out]
  by_cases hn : a - s.base < s.n
  · rw [if_pos hn, hbytes _ hn]
  · rw [if_neg hn, List.getD_eq_default _ _ (by rw [hfill.1]; omega)]

/-! ### A fill that fails (R131, R132, R135, R138) -/

/-- A ROWS step in RLE mode whose fill fails with `e` at `p`: the failure entry from there (R266). -/
theorem rowStep_failsAt {s : State} {e : ErrKind} {p : Nat} (hs : s.runState = .rows) (henc : s.cfgEnc = 1)
    (h : FailsAt s e p) : ∃ t, exec .rowStep s = .next t ∧
      t = { afterFailure s e p with
        scratch := t.scratch, runCnt := t.runCnt, runVal := t.runVal, fillI := t.fillI } := by
  obtain ⟨u, hu, hframe, rfl⟩ := h
  have hfill : fill s = .fail e u := by rw [fill, henc]; exact hu
  refine ⟨_, rowStep_fillFail hs hfill, ?_⟩
  rw [afterFailure, BitVec.ofNat_toNat, BitVec.setWidth_eq, hframe]
  rfl

/-- An RLE request with no stream byte left (R132). -/
theorem fillRle_eof {s : State} (hn : 0 < s.n) (h : s.streamLen.toNat ≤ s.streamPos.toNat) :
    FailsAt s .truncated s.streamPos.toNat :=
  have hk : 1 ≤ s.passBound := Nat.le_add_right_of_le hn
  ⟨s.startRequest, fillLoop_fail rfl hn hk (readCode_eof h), rfl, rfl⟩

/-- Settles O41: in each case the fill fails, so that CLEAR_ROW and the row's count are not reached. -/
theorem shortRowIsTruncatedBeforeClearing : Obligations.ShortRowIsTruncatedBeforeClearing := by
  intro s hs
  refine ⟨fun henc hshort => ?_, fun henc hn hend => rowStep_failsAt hs henc (fillRle_eof hn hend), ?_⟩
  · have hfill : fill s = .fail .truncated s := by rw [fill, if_pos henc, fillRaw_short hshort]
    rw [rowStep_fillFail hs hfill, afterFailure, BitVec.ofNat_toNat, BitVec.setWidth_eq]
    rfl
  · intro henc hcap pre hpre hroom
    exact ⟨fun rest hrest hst hend => rowStep_failsAt hs henc (fillRle_truncated hpre hroom hst hcap hend hrest),
      fun v hpolicy hst => rowStep_failsAt hs henc (fillRle_corrupt hpolicy hpre hroom hst hcap)⟩

end Sys2Proof.Machine
end

section
/-! The row clearing and the unpackers as instructions (spec/41_plane_unpacker.md R161 to R167): what each writes, the
bound of the sub-byte pixels, and two runs side by side on one scanline. -/

namespace Sys2Proof.Machine

theorem exec_clearRow (s : State) : exec .clearRow s = (clearRow s).finish := rfl

theorem exec_unpackSub (np : Byte) (s : State) : exec (.unpackSub np) s = (unpackSub np.toNat s).finish := rfl

theorem exec_unpackIdx8 (s : State) : exec .unpackIdx8 s = (unpackIdx8 s).finish := rfl

theorem exec_unpackRgb24 (s : State) : exec .unpackRgb24 s = (unpackRgb24 s).finish := rfl

/-! ### What each unpacker writes (R162 to R165) -/

/-- Settles O28, by the loops of UNPACK_SUB: one plane more at each pass OR's its bit into every pixel. -/
theorem unpackSubOrsThePlaneBits : Obligations.UnpackSubOrsThePlaneBits := by
  intro s np hnp hcap hfits
  obtain ⟨t, ht, honly, hout⟩ := unpackSub_ok s np.toNat hnp hcap hfits
  exact ⟨t, by rw [exec_unpackSub, ht, Flow.finish_ok], honly, hout⟩

/-- Settles O30, by the loop of stores that UNPACK_IDX8 is. -/
theorem unpackIdx8CopiesTheScanline : Obligations.UnpackIdx8CopiesTheScanline := by
  intro s hcap hfits
  obtain ⟨t, ht, honly, hout⟩ := unpackIdx8_ok s hcap hfits
  exact ⟨t, by rw [exec_unpackIdx8, ht, Flow.finish_ok], honly, hout⟩

/-- Settles O31, by the three loops of stores of UNPACK_RGB24, no check of which fails. -/
theorem unpackRgb24Interleaves : Obligations.UnpackRgb24Interleaves := by
  intro s hbpl hwidth hn hcap hpitch hfits
  obtain ⟨t, ht, honly, hout⟩ := unpackRgb24_ok s hbpl hwidth hn hcap hpitch hfits
  exact ⟨t, by rw [exec_unpackRgb24, ht, Flow.finish_ok], honly, hout⟩

/-- Settles O32: with planes of WIDTH bytes no check fails; else the first plane that leaves the scanline fails. What
UNPACK_RGB24 has stored by either end lies in the row. -/
theorem unpackRgb24CorruptExactlyWhenPlaneShort : Obligations.UnpackRgb24CorruptExactlyWhenPlaneShort := by
  intro s hwidth hn hcap hpitch hfits
  have hends := unpackRgb24_ends s
  by_cases hshort : s.bpl ≤ 0 ∨ s.bpl < s.width.toInt
  · obtain ⟨t, ht, honly⟩ := unpackRgb24_corrupt s hwidth hshort hn hcap hpitch hfits
    have hpos : t.streamPos = s.streamPos := by rw [honly]
    rw [ht] at hends
    exact ⟨t.failEntry .corrupt, by rw [exec_unpackRgb24, ht, Flow.finish_fail],
      fun _ => hpos ▸ failedAt_failEntry t .corrupt, fun h => absurd hshort h, hends.2⟩
  · obtain ⟨hbpl, hlong⟩ : 1 ≤ s.bpl ∧ s.width.toInt ≤ s.bpl := by omega
    rw [if_pos (by omega)] at hn
    obtain ⟨t, ht, honly, -⟩ := unpackRgb24_ok s hbpl hlong hn hcap hpitch hfits
    rw [ht] at hends
    exact ⟨t, by rw [exec_unpackRgb24, ht, Flow.finish_ok], fun h => absurd h hshort,
      fun _ => ⟨by rw [honly], by rw [honly]⟩, hends.2⟩

/-! ### CLEAR_ROW in any state -/

/-- The loop rule where a pass may meet the fault `e`: the loop ends in `.ok` with the last `P`, or in that fault. -/
theorem forFrom_okOrFault {P : Nat → State → Prop} {f : Nat → State → Flow Unit} {e : Fault} (k : Nat) :
    ∀ (a : Nat) (s : State), P a s →
      (∀ i s, P i s → (∃ t, f i s = .ok () t ∧ P (i + 1) t) ∨ f i s = .fault e) →
      (∃ t, forFrom a k f s = .ok () t ∧ P (a + k) t) ∨ forFrom a k f s = .fault e := by
  induction k with
  | zero => intro a s h _; exact .inl ⟨s, rfl, h⟩
  | succ k ih =>
    intro a s h hf
    rw [forFrom_succ]
    rcases hf a s h with ⟨t, ht, hP⟩ | ht
    · rw [ht, Flow.bind_ok, ← Nat.add_assoc, Nat.add_right_comm]
      exact ih (a + 1) t hP hf
    · exact .inr (by rw [ht, Flow.bind_fault])

/-- What CLEAR_ROW has done after `k` passes. -/
def ClearedTo (s : State) (k : Nat) (t : State) : Prop :=
  OnlyOut s t ∧ ∀ b, b < k → Memory.read t.out (s.base + b) = 0

/-- CLEAR_ROW zeroes the row's pixel bytes, or meets one outside the output space. -/
theorem clearRow_cases (s : State) :
    (∃ t, clearRow s = .ok () t ∧ ClearedTo s s.rowBytes t) ∨ clearRow s = .fault .outAddress := by
  have hloop := forFrom_okOrFault (P := ClearedTo s) (f := fun b s => outWrite (s.base + b) 0 s) (e := .outAddress)
    s.rowBytes 0 s ⟨OnlyOut.refl s, fun _ h => absurd h (Nat.not_lt_zero _)⟩ ?_
  · rwa [Nat.zero_add] at hloop
  rintro b t ⟨honly, hzero⟩
  rw [outWrite, honly.base]
  split
  · refine .inl ⟨_, rfl, honly.write _, fun c hc => ?_⟩
    show Memory.read (Memory.write t.out _ 0) _ = 0
    rw [Memory.read_write]
    split
    · rfl
    · exact hzero c (by omega)
  · exact .inr rfl

/-- Where CLEAR_ROW ends in a next state, every pixel byte of the row is 0 there. -/
theorem exec_clearRow_next {s t : State} (h : exec .clearRow s = .next t) :
    clearRow s = .ok () t ∧ OnlyOut s t ∧ ∀ a, s.inRow a → Memory.read t.out a = 0 := by
  rw [exec_clearRow] at h
  rcases clearRow_cases s with ⟨u, hu, honly, hzero⟩ | hu
  · rw [hu, Flow.finish_ok] at h
    cases h
    refine ⟨hu, honly, fun a ⟨hlow, hhigh⟩ => ?_⟩
    obtain ⟨b, rfl⟩ := Nat.exists_eq_add_of_le hlow
    exact hzero b (by omega)
  · rw [hu] at h
    cases h

/-! ### Sub-byte pixels stay below `2^NP` (R166) -/

/-- The first `w` bytes of the row at `base` are below `2^np`. -/
def PixelsBelow (base w np : Nat) (m : Memory) : Prop := ∀ x, x < w → (Memory.read m (base + x)).toNat < 2 ^ np

theorem bitFromTop_shiftLeft_lt (b : Byte) (k : Nat) {p np : Nat} (hp : p < np) :
    (bitFromTop b k <<< p).toNat < 2 ^ np := by
  have hbit : (bitFromTop b k).toNat ≤ 1 := by
    rw [bitFromTop_eq]
    split <;> decide
  calc (bitFromTop b k <<< p).toNat
      ≤ (bitFromTop b k).toNat <<< p := by rw [BitVec.toNat_shiftLeft]; exact Nat.mod_le _ _
    _ ≤ 2 ^ p := by rw [Nat.shiftLeft_eq]; exact mul_le_of_le_one_left (Nat.zero_le _) hbit
    _ < 2 ^ np := Nat.pow_lt_pow_right (by omega) hp

/-- OR'ing the bit of a plane below `np` into a pixel keeps the pixels below `2^np`. -/
theorem subBit_pixelsBelow {s t : State} {p np : Nat} (hp : p < np) (j : Nat) (b : Byte) (k : Nat) (honly : OnlyOut s t)
    (h : PixelsBelow s.base s.w.toNat np t.out) :
    (subBit p j b k t).Ends fun u => OnlyOut s u ∧ PixelsBelow s.base s.w.toNat np u.out := by
  rw [subBit, honly.w, honly.base]
  split
  · next hcol =>
    unfold outRead
    split
    · rw [Flow.bind_ok, outWrite]
      split
      · refine ⟨honly.write _, fun x hx => ?_⟩
        show (Memory.read (Memory.write t.out _ _) _).toNat < _
        rw [Memory.read_write]
        split
        · rw [BitVec.toNat_or]
          exact Nat.or_lt_two_pow (h _ (by omega)) (bitFromTop_shiftLeft_lt b k hp)
        · exact h x hx
      · trivial
    · trivial
  · exact ⟨honly, h⟩

theorem unpackSub_pixelsBelow {s : State} {np : Nat} (h : PixelsBelow s.base s.w.toNat np s.out) :
    (unpackSub np s).Ends fun u => OnlyOut s u ∧ PixelsBelow s.base s.w.toNat np u.out := by
  refine forN_ends np s ⟨OnlyOut.refl s, h⟩ fun p t hp ht => forN_ends _ t ht fun j u _ hu => ?_
  unfold scratchRead
  split
  · exact forN_ends 8 u hu fun k v _ hv => subBit_pixelsBelow hp j _ k hv.1 hv.2
  · trivial

/-- Settles O29: CLEAR_ROW leaves every pixel 0, and each OR with a bit of a plane keeps it below `2^NP`. -/
theorem subPixelsAreBelowTwoToThePlanes : Obligations.SubPixelsAreBelowTwoToThePlanes := by
  intro s t u np _ houtb ht hu
  obtain ⟨-, honly, hzero⟩ := exec_clearRow_next ht
  have hcleared : PixelsBelow t.base t.w.toNat np.toNat t.out := fun x hx => by
    rw [honly.w] at hx
    rw [honly.base, hzero]
    · exact Nat.two_pow_pos _
    · rw [State.inRow, State.rowBytes, houtb]
      exact ⟨Nat.le_add_right _ _, Nat.add_lt_add_left (by simpa using hx) _⟩
  have hbelow : PixelsBelow t.base t.w.toNat np.toNat u.out :=
    (unpackSub_pixelsBelow hcleared).finish hu (fun _ h => h.2) fun _ _ h => h.2
  rwa [honly.base, honly.w] at hbelow

/-! ### Two runs on one scanline (R167) -/

/-- `d` agrees with `c` on the configuration and on the scratch bytes below N, which is the derived value. -/
structure ScanTwins (c d : State) : Prop where
  frame : d = { c with scratch := d.scratch, scratchZeroed := d.scratchZeroed, resetCount := d.resetCount,
                       stream := d.stream, streamPos := d.streamPos, runCnt := d.runCnt, runVal := d.runVal,
                       fillI := d.fillI, out := d.out }
  bytes : c.n = c.scanBytes
  scan : ∀ j, j < c.n → d.scratchByte j = c.scratchByte j

/-- Two runs from `c` and `d` that have written OUT only, and agree on the bytes of OUT at the addresses of `A`. -/
structure OutTwins (c d : State) (A : Nat → Prop) (s t : State) : Prop where
  left : OnlyOut c s
  right : OnlyOut d t
  agree : ∀ a, A a → Memory.read t.out a = Memory.read s.out a

section
variable {c d : State} {A : Nat → Prop} {s t : State}

theorem ScanTwins.params (e : ScanTwins c d) : d.params = c.params := by rw [e.frame]
theorem ScanTwins.cfgPitch (e : ScanTwins c d) : d.cfgPitch = c.cfgPitch := by rw [e.frame]
theorem ScanTwins.base (e : ScanTwins c d) : d.base = c.base := by rw [e.frame]; rfl
theorem ScanTwins.rowBytes (e : ScanTwins c d) : d.rowBytes = c.rowBytes := by rw [e.frame]; rfl
theorem ScanTwins.w (e : ScanTwins c d) : d.w = c.w := by rw [e.frame]; rfl
theorem ScanTwins.n (e : ScanTwins c d) : d.n = c.n := by rw [e.frame]; rfl
theorem ScanTwins.bpl (e : ScanTwins c d) : d.bpl = c.bpl := by rw [e.frame]; rfl

theorem ScanTwins.inRow_iff (e : ScanTwins c d) (a : Nat) : d.inRow a ↔ c.inRow a := by
  rw [State.inRow, State.inRow, e.base, e.rowBytes]

theorem scratchRead_twins (e : ScanTwins c d) (h : OutTwins c d A s t) {i : Nat} (hi : i < c.n) :
    (scratchRead i s).Rel (OutTwins c d A) (scratchRead i t) := by
  rw [scratchRead, scratchRead, h.left.params, h.right.params, e.params, h.left.scratchByte, h.right.scratchByte,
    e.scan i hi]
  split
  · exact ⟨rfl, h⟩
  · exact rfl

/-- Two stores at one address: they end alike, and the twins stay so where the stored bytes agree or nothing is asked of
that address. -/
theorem outWrite_twins (e : ScanTwins c d) (h : OutTwins c d A s t) (a : Nat) {v w : Byte} (hv : A a → w = v) :
    (outWrite a v s).Rel (OutTwins c d A) (outWrite a w t) := by
  obtain ⟨hs, ht, hout⟩ := h
  have hsize : t.params.outSize = s.params.outSize := by rw [hs.params, ht.params, e.params]
  rw [outWrite, outWrite, hsize]
  split
  · refine ⟨rfl, hs.write _, ht.write _, fun b hb => ?_⟩
    show Memory.read (Memory.write t.out a w) b = Memory.read (Memory.write s.out a v) b
    rw [Memory.read_write, Memory.read_write]
    split
    · next hba => exact hv (hba ▸ hb)
    · exact hout b hb
  · exact rfl

theorem clearRow_twins (e : ScanTwins c d) : (clearRow c).Rel (OutTwins c d fun _ => False) (clearRow d) := by
  rw [clearRow, clearRow, e.rowBytes]
  refine forN_rel _ ⟨OnlyOut.refl c, OnlyOut.refl d, fun _ h => h.elim⟩ fun b s t _ h => ?_
  rw [h.left.base, h.right.base, e.base]
  exact outWrite_twins e h _ fun _ => rfl

/-- A byte read and stored again with the bit: in the row the twins read the same byte. -/
theorem subBit_twins (e : ScanTwins c d) (h : OutTwins c d A s t) (p j : Nat) (b : Byte) (k : Nat) :
    (subBit p j b k s).Rel (OutTwins c d A) (subBit p j b k t) := by
  rw [subBit, subBit, h.left.w, h.right.w, e.w, h.left.base, h.right.base, e.base]
  split
  · rw [outRead, outRead, h.left.params, h.right.params, e.params]
    split
    · rw [Flow.bind_ok, Flow.bind_ok, h.left.base, h.right.base, e.base]
      exact outWrite_twins e h _ fun ha => by rw [h.agree _ ha]
    · exact rfl
  · exact ⟨rfl, h⟩

/-- Byte `j` of plane `p` lies in the scanline. -/
theorem planeIndex_lt_n (hn : c.n = c.scanBytes) {p j : Nat} (hp : p < c.np) (hj : j < c.bpl.toNat) :
    p * c.bpl.toNat + j < c.n := by
  rw [hn, State.scanBytes, if_pos (by omega)]
  calc p * c.bpl.toNat + j < (p + 1) * c.bpl.toNat := by rw [Nat.succ_mul]; exact Nat.add_lt_add_left hj _
    _ ≤ c.np * c.bpl.toNat := Nat.mul_le_mul_right _ hp

theorem unpackSub_twins (e : ScanTwins c d) (h : OutTwins c d A s t) :
    (unpackSub c.np s).Rel (OutTwins c d A) (unpackSub c.np t) := by
  refine forN_rel _ h fun p s t hp h => ?_
  rw [h.left.bpl, h.right.bpl, e.bpl]
  refine forN_rel _ h fun j s t hj h => ?_
  rw [h.left.bpl, h.right.bpl, e.bpl]
  exact (scratchRead_twins e h (planeIndex_lt_n e.bytes hp hj)).bind fun b s t h =>
    forN_rel 8 h fun k s t _ h => subBit_twins e h p j b k

theorem unpackIdx8_twins (e : ScanTwins c d) (h : OutTwins c d A s t) :
    (unpackIdx8 s).Rel (OutTwins c d A) (unpackIdx8 t) := by
  rw [unpackIdx8, unpackIdx8, h.left.w, h.right.w, e.w, h.left.n, h.right.n, e.n]
  refine forN_rel _ h fun x s t hx h => (scratchRead_twins e h (by omega)).bind fun v s t h => ?_
  rw [h.left.base, h.right.base, e.base]
  exact outWrite_twins e h _ fun _ => rfl

theorem rgbByte_twins (e : ScanTwins c d) (h : OutTwins c d A s t) (p x : Nat) :
    (rgbByte p x s).Rel (OutTwins c d A) (rgbByte p x t) := by
  simp only [rgbByte, h.left.bpl, h.right.bpl, e.bpl, h.left.n, h.right.n, e.n, h.left.cfgPitch, h.right.cfgPitch,
    e.cfgPitch]
  split
  · exact ⟨rfl, h⟩
  · split
    · exact ⟨rfl, h⟩
    · refine (scratchRead_twins e h (by omega)).bind fun v s t h => ?_
      rw [h.left.base, h.right.base, e.base]
      exact outWrite_twins e h _ fun _ => rfl

theorem unpackRgb24_twins (e : ScanTwins c d) (h : OutTwins c d A s t) :
    (unpackRgb24 s).Rel (OutTwins c d A) (unpackRgb24 t) := by
  refine forN_rel 3 h fun p s t _ h => ?_
  rw [h.left.w, h.right.w, e.w]
  exact forN_rel _ h fun x s t _ h => rgbByte_twins e h p x

/-- CLEAR_ROW in both runs: the twins agree on the whole row. -/
theorem exec_clearRow_twins (e : ScanTwins c d) (h : exec .clearRow c = .next s) :
    ∃ t, exec .clearRow d = .next t ∧ OutTwins c d c.inRow s t := by
  obtain ⟨hs, honly, hzero⟩ := exec_clearRow_next h
  have hrel := clearRow_twins e
  rw [hs] at hrel
  rcases clearRow_cases d with ⟨t, ht, -⟩ | ht
  · have hd : exec .clearRow d = .next t := by rw [exec_clearRow, ht, Flow.finish_ok]
    obtain ⟨-, honly', hzero'⟩ := exec_clearRow_next hd
    exact ⟨t, hd, honly, honly', fun a ha => by rw [hzero' a ((e.inRow_iff a).2 ha), hzero a ha]⟩
  · rw [ht] at hrel
    exact hrel.elim

/-- Each unpacker, run on the twins, is an operation that ends alike in both. -/
theorem exec_unpack_twins {i : Instr} (e : ScanTwins c d)
    (hi : i = .unpackSub c.cfgNplanes ∨ i = .unpackIdx8 ∨ i = .unpackRgb24) (h : OutTwins c d A s t) :
    ∃ x y : Flow Unit, exec i s = x.finish ∧ exec i t = y.finish ∧ x.Rel (OutTwins c d A) y := by
  rcases hi with rfl | rfl | rfl
  · exact ⟨_, _, exec_unpackSub _ _, exec_unpackSub _ _, unpackSub_twins e h⟩
  · exact ⟨_, _, exec_unpackIdx8 _, exec_unpackIdx8 _, unpackIdx8_twins e h⟩
  · exact ⟨_, _, exec_unpackRgb24 _, exec_unpackRgb24 _, unpackRgb24_twins e h⟩

theorem OutTwins.status (e : ScanTwins c d) (h : OutTwins c d A s t) : t.runState = s.runState ∧ t.err = s.err := by
  rw [h.left, h.right, e.frame]
  exact ⟨rfl, rfl⟩

end

/-- Settles O33: after CLEAR_ROW the two runs agree on the row, and every read, check and store of the unpacker after it
keeps them so. -/
theorem unpackDependsOnScanlineOnly : Obligations.UnpackDependsOnScanlineOnly := by
  intro i s u s1 t hi hu hn hscan hs1 ht
  have e : ScanTwins s u := ⟨hu, hn, hscan⟩
  obtain ⟨u1, hu1, hrow⟩ := exec_clearRow_twins e hs1
  obtain ⟨x, y, hx, hy, hrel⟩ := exec_unpack_twins e hi hrow
  obtain ⟨t', ht', hend⟩ := hrel.finish (hx ▸ ht)
  refine ⟨u1, t', hu1, hy.trans ht', ?_⟩
  rcases hend with h | ⟨k, v, v', h, rfl, rfl⟩
  · exact ⟨(h.status e).1, (h.status e).2, h.agree⟩
  · exact ⟨rfl, rfl, h.agree⟩

end Sys2Proof.Machine
end

section
/-! The palette resolver (spec/42_palette_resolver.md R190 to R195): what PAL_INLINE and PAL_TRAILING leave, and the
PALETTE step around them (spec/43_control.md R231). -/

namespace Sys2Proof.Machine

/-! ### The palette operations -/

theorem exec_palInline (s : State) : exec .palInline s = (palInline s).finish := rfl

theorem exec_palTrailing (s : State) : exec .palTrailing s = (palTrailing s).finish := rfl

/-- PAL_INLINE of at most 16 colours, entry by entry (R191). -/
theorem palInline_entries {s : State} (h : s.srcBits.toNat ≤ 4) : ∃ table,
    palInline s = .ok () { s with colorTable := table, ncolors := BitVec.ofNat 9 (2 ^ s.srcBits.toNat) } ∧
      ∀ i, table.get i = if i < 2 ^ s.srcBits.toNat then s.inlinePal.get i else s.colorTable.get i := by
  obtain ⟨hcount, hcopy⟩ := palInline_ok h
  rw [hcount] at hcopy
  refine ⟨_, hcopy, fun i => ?_⟩
  rw [RgbTable.get_ofFn]
  by_cases hi : i < 256
  · rw [if_pos hi]
  · have hpow : 2 ^ s.srcBits.toNat ≤ 2 ^ 4 := Nat.pow_le_pow_right (by decide) h
    rw [if_neg hi, if_neg (by omega), RgbTable.get_of_le _ _ (by omega)]

/-- Settles O34: at most 16 colours are asked for, so the copy is made, and it reads no stream byte. -/
theorem palInlineCopiesTheHeaderPalette : Obligations.PalInlineCopiesTheHeaderPalette := by
  intro s hbits
  obtain ⟨table, hcopy, hentry⟩ := palInline_entries hbits
  exact ⟨_, by rw [exec_palInline, hcopy, Flow.finish_ok], rfl, hentry⟩

/-- Entry `i` of a table read from the stream at `a`, as a number, from its bytes 0, 1 and 2 (R194). -/
theorem tableOf_get_toNat (m : Memory) (a i : Nat) (h : i < 256) :
    ((tableOf (Memory.readBytes m a 768)).get i).toNat = (Memory.read m (a + 3 * i + 0)).toNat +
      (Memory.read m (a + 3 * i + 1)).toNat * 256 + (Memory.read m (a + 3 * i + 2)).toNat * 65536 := by
  rw [tableOf_get m a i h, rgb_toNat]
  rfl

/-- PAL_TRAILING with a whole table after the marker: STREAM_POS is just past the table (R192, R194). -/
theorem palTrailing_marker_table {s : State} {k : Nat} (hr : s.readable (k + 1 + 768))
    (hj : ∀ j, j < k → Memory.read s.stream (s.streamPos.toNat + j) ≠ 12)
    (hk : Memory.read s.stream (s.streamPos.toNat + k) = 12) :
    palTrailing s = .ok () (s.withTable (s.streamPos.toNat + k + 769)
      (tableOf (Memory.readBytes s.stream (s.streamPos.toNat + k + 1) 768))) := by
  rw [palTrailing_marker_ok hr hj hk, Nat.add_assoc _ 1 768]
  rfl

/-- Settles O35: the scan stops just past the marker, and the table is read there. -/
theorem palTrailingReadsTheTableAfterTheMarker : Obligations.PalTrailingReadsTheTableAfterTheMarker := by
  intro s k hr hj hk
  exact ⟨_, by rw [exec_palTrailing, palTrailing_marker_table hr hj hk, Flow.finish_ok], rfl,
    fun i hi => tableOf_get_toNat _ _ i hi⟩

/-- Settles O36: the scan ends at the end of the stream, and the seek goes back from there. -/
theorem palTrailingFallsBackToTheEnd : Obligations.PalTrailingFallsBackToTheEnd := by
  intro s hg hl h
  exact ⟨_, by rw [exec_palTrailing, palTrailing_fallback_ok hg hl h, Flow.finish_ok], rfl,
    fun i hi => tableOf_get_toNat _ _ i hi⟩

/-- PAL_TRAILING with fewer than 768 bytes after the marker: no fallback (R192). -/
theorem palTrailing_marker_short {s : State} {k : Nat} (hr : s.readable (k + 1))
    (hshort : s.streamLen.toNat < s.streamPos.toNat + k + 1 + 768)
    (hj : ∀ j, j < k → Memory.read s.stream (s.streamPos.toNat + j) ≠ 12)
    (hk : Memory.read s.stream (s.streamPos.toNat + k) = 12) :
    palTrailing s = .fail .truncated (s.withPos (s.streamPos.toNat + k + 1)) := by
  have hpos : (s.withPos (s.streamPos.toNat + k + 1)).streamPos.toNat = s.streamPos.toNat + k + 1 :=
    State.withPos_toNat hr.1
  rw [palTrailing_marker hr hj hk, readTable_short (by rw [hpos]; exact hshort)]

/-- PAL_TRAILING without a marker, in a stream of fewer than 768 bytes (R193). -/
theorem palTrailing_fallback_short {s : State} (hg : s.streamGuarantee) (hl : s.streamLen.toNat < 768)
    (h : ∀ a, s.streamPos.toNat ≤ a → a < s.streamLen.toNat → Memory.read s.stream a ≠ 12) :
    palTrailing s = .fail .truncated (s.withPos (max s.streamPos.toNat s.streamLen.toNat)) := by
  rw [palTrailing_noMarker hg h, seekTable_fail (s := s.withPos _) hl, Flow.bind_fail]

/-- A truncation at stream position `p`: FAIL_POS is `p`, and the colour table and OUT stay (R195, R266). -/
theorem exec_palTrailing_truncated {s : State} {p : Nat} (hp : p ≤ s.streamLen.toNat)
    (h : palTrailing s = .fail .truncated (s.withPos p)) :
    ∃ t, exec .palTrailing s = .next t ∧ failedAt t .truncated p ∧ t.colorTable = s.colorTable ∧ t.out = s.out := by
  have hfail := failedAt_failEntry (s.withPos p) .truncated
  rw [State.withPos_toNat hp] at hfail
  exact ⟨_, by rw [exec_palTrailing, h, Flow.finish_fail], hfail, rfl, rfl⟩

/-- Settles O37: after the marker the table's own read is short; without one the seek fails at the stream's end. -/
theorem palTrailingTruncated : Obligations.PalTrailingTruncated := by
  intro s hg hpos
  refine ⟨fun k hlt hshort hj hk => ?_, fun hl h => ?_⟩
  · have hr : s.readable (k + 1) := ⟨hlt, Nat.le_trans hlt hg⟩
    exact exec_palTrailing_truncated hlt (palTrailing_marker_short hr hshort hj hk)
  · have hfail := palTrailing_fallback_short hg hl h
    rw [Nat.max_eq_right hpos] at hfail
    exact exec_palTrailing_truncated (Nat.le_refl _) hfail

/-! ### The PALETTE step -/

/-- A PALETTE step whose palette operation goes to its end ends in DONE. -/
theorem palStep_done {s t : State} (hs : s.runState = .palette) (h : palette s = .ok () t) :
    exec .palStep s = .next { t with runState := .done } := by
  rw [exec, execPalStep, if_pos hs, palRule, h, Flow.bind_ok, Flow.finish_ok]

/-- A PALETTE step whose palette operation is truncated at stream position `p`. -/
theorem palStep_truncated {s : State} {p : Nat} (hs : s.runState = .palette)
    (h : palette s = .fail .truncated (s.withPos p)) : exec .palStep s = .next (afterFailure s .truncated p) := by
  rw [exec, execPalStep, if_pos hs, palRule, h, Flow.bind_fail, Flow.finish_fail]
  rfl

theorem palette_sub {s : State} (h : s.layout = .sub) : palette s = palInline s := by rw [palette, h]

theorem palette_idx8 {s : State} (h : s.layout = .idx8) : palette s = palTrailing s := by rw [palette, h]

/-- Settles O43, from the ends of the palette operation that LAYOUT selects; the table of a PALETTE state is 0. -/
theorem palStepFillsTheTableAndEnds : Obligations.PalStepFillsTheTableAndEnds := by
  intro s hinv hs
  have hzero : ∀ i, s.colorTable.get i = 0 := hinv.table (by simp [hs]) (by simp [hs])
  refine ⟨fun hl => ?_, fun hl => ⟨fun k hr hno hk => ?_, fun hg hno => ⟨fun hlen => ?_, fun hlen => ?_⟩⟩⟩
  · obtain ⟨hbits, hnp⟩ := (hinv.geometry (by simp [hs]) (by simp [hs])).srcBits_sub hl
    obtain ⟨table, hcopy, hentry⟩ := palInline_entries (s := s) (by omega)
    rw [hbits] at hcopy hentry
    simp only [hzero] at hentry
    exact ⟨_, ⟨palStep_done hs ((palette_sub hl).trans hcopy), rfl⟩, hentry⟩
  · have hj : ∀ j, j < k → Memory.read s.stream (s.streamPos.toNat + j) ≠ 12 := fun j hjk =>
      hno _ (Nat.le_add_right _ _) (Nat.add_lt_add_left hjk _)
    refine ⟨fun hr' => ⟨_, ⟨palStep_done hs ((palette_idx8 hl).trans (palTrailing_marker_table hr' hj hk)), rfl⟩,
      fun i hi => tableOf_get _ _ i hi⟩, fun hshort => ⟨palStep_truncated hs ?_, hzero⟩⟩
    rw [palette_idx8 hl, palTrailing_marker_short hr hshort hj hk]
  · exact ⟨_, ⟨palStep_done hs ((palette_idx8 hl).trans (palTrailing_fallback_ok hg hlen hno)), rfl⟩,
      fun i hi => tableOf_get _ _ i hi⟩
  · exact ⟨palStep_truncated hs ((palette_idx8 hl).trans (palTrailing_fallback_short hg hlen hno)), hzero⟩

end Sys2Proof.Machine
end

section
/-! The end of the rows (spec/70_reset_and_hazards.md R305): with the engine given every turn, each step counts one row
(spec/43_control.md R230, R232) or fails. -/

namespace Sys2Proof.Machine

/-- A step with nothing of the host's to do is the engine's turn (R305). -/
theorem step_of_inbox_nil {s : State} (h : s.inbox = []) : step s = engineTurn s := by
  unfold step
  rw [h]

/-- A run whose first step answers a state goes on from there. -/
theorem run_succ_of_step {M : Host.Core} {s t : M.State} (h : M.step s = .next t) (k : Nat) :
    M.run (k + 1) s = M.run k t := by
  rw [Host.Core.run, h]

/-- A state that enables no engine step stays as it is while the host does nothing (R233). -/
theorem core_run_quiet {s : State} (hbox : s.inbox = []) (hrows : s.runState ≠ .rows)
    (hpalette : s.runState ≠ .palette) (k : Nat) : core.run k s = .next s := by
  have hstep : core.step s = .next s := by
    rcases engineTurn_cases s with ⟨h, _⟩ | ⟨h, _⟩ | ⟨_, _, e⟩
    · exact absurd h hrows
    · exact absurd h hpalette
    · exact (step_of_inbox_nil hbox).trans e
  induction k with
  | zero => rfl
  | succ k ih => exact (run_succ_of_step hstep k).trans ih

/-- A ROWS step ends in the count of its row, or in the failure entry, from what the row's body leaves. -/
theorem execRowStep_cases {s t : State} (hs : s.runState = .rows) (ht : exec .rowStep s = .next t) :
    ∃ u, RowKeeps s u ∧ (t = u.finishRow ∨ ∃ k, t = u.failEntry k) := by
  have hk := rowBody_keeps s
  rw [exec, execRowStep, if_pos hs, rowRule_eq] at ht
  cases hb : rowBody s with
  | ok a u => rw [hb] at hk ht; cases ht; exact ⟨u, hk, .inl rfl⟩
  | fail k u => rw [hb] at hk ht; cases ht; exact ⟨u, hk, .inr ⟨k, rfl⟩⟩
  | fault e => rw [hb] at ht; cases ht
  | refuse r => rw [hb] at ht; cases ht

/-- A ROWS state of the invariant with `n` rows to go, the engine left every turn and the host's guarantee kept. -/
structure RowsAhead (n : Nat) (s : State) : Prop where
  inv : s.Inv
  rows : s.runState = .rows
  inbox : s.inbox = []
  guarantee : s.streamGuarantee
  left : (s.rowY.toNat : Int) + n = s.h

/-- `t` is where the rows of `s` end: failed, or past the last row in the state that follows it (R196, R230). -/
def RowsEnd (s t : State) : Prop :=
  t.runState = .failed ∨
    ((t.rowY.toNat : Int) = s.h ∧ t.runState = (if s.layout = .rgb24 then .done else .palette))

theorem RowsEnd.of_eq {s t v : State} (h : RowsEnd t v) (hh : t.h = s.h) (hlay : t.layout = s.layout) :
    RowsEnd s v := by
  rwa [RowsEnd, hh, hlay] at h

/-- The state that follows the last row, by layout (R230). -/
theorem finishRow_runState_last {s : State} (hl : s.layout ≠ .none) (h : (s.rowY.toNat + 1 : Int) = s.h) :
    s.finishRow.runState = if s.layout = .rgb24 then .done else .palette := by
  rw [State.finishRow_runState, if_pos h]
  cases hlay : s.layout with
  | none => exact absurd hlay hl
  | sub | idx8 | rgb24 => rfl

/-- A row's body keeps the rows to go, and the height and layout that say where they end. -/
theorem RowKeeps.rowsAhead {n : Nat} {s u : State} (k : RowKeeps s u) (h : RowsAhead n s) :
    RowsAhead n u ∧ u.h = s.h ∧ u.layout = s.layout := by
  obtain ⟨hinv, hrun⟩ := k.inv h.inv
  have e := k.frame
  exact ⟨⟨hinv, hrun.trans h.rows, by rw [e]; exact h.inbox, by rw [e]; exact h.guarantee, by rw [e]; exact h.left⟩,
    by rw [e]; rfl, by rw [e]⟩

/-- Counting a row of which there are more leaves one fewer. -/
theorem RowsAhead.finishRow {n : Nat} {s : State} (h : RowsAhead (n + 1) s) (hn : 0 < n) : RowsAhead n s.finishRow := by
  have hleft := h.left
  have hcount : s.finishRow.rowY.toNat = s.rowY.toNat + 1 := rowY_succ_toNat (h.inv.rowInRange h.rows)
  have hmore : (s.rowY.toNat + 1 : Int) ≠ s.h := by omega
  refine ⟨h.inv.finishRow h.rows, ?_, h.inbox, h.guarantee, ?_⟩
  · rw [State.finishRow_runState, if_neg hmore, h.rows]
  · show (s.finishRow.rowY.toNat : Int) + n = s.h
    omega

/-- Counting the last row ends the rows. -/
theorem RowsAhead.finishRow_last {s : State} (h : RowsAhead 1 s) : RowsEnd s s.finishRow := by
  have hlast : (s.rowY.toNat + 1 : Int) = s.h := h.left
  have hcount : s.finishRow.rowY.toNat = s.rowY.toNat + 1 := rowY_succ_toNat (h.inv.rowInRange h.rows)
  exact .inr ⟨by rw [hcount]; exact hlast, finishRow_runState_last (h.inv.rowReady h.rows).geometry.listed hlast⟩

/-- One step of the machine with rows to go: it fails, counts the last row, or counts a row and leaves one fewer. -/
theorem RowsAhead.step {n : Nat} {s : State} (h : RowsAhead (n + 1) s) :
    ∃ t, Machine.step s = .next t ∧ ((t.runState = .failed ∧ t.inbox = []) ∨ (n = 0 ∧ RowsEnd s t) ∨
      (RowsAhead n t ∧ t.h = s.h ∧ t.layout = s.layout)) := by
  obtain ⟨t, ht⟩ := execRowStep_goes h.inv h.guarantee
  refine ⟨t, by rw [step_of_inbox_nil h.inbox, engineTurn_rows h.rows, ht], ?_⟩
  obtain ⟨u, hu, hend⟩ := execRowStep_cases h.rows ht
  obtain ⟨hahead, hh, hlay⟩ := hu.rowsAhead h
  rcases hend with rfl | ⟨k, rfl⟩
  · rcases Nat.eq_zero_or_pos n with rfl | hn
    · exact .inr (.inl ⟨rfl, hahead.finishRow_last.of_eq hh hlay⟩)
    · exact .inr (.inr ⟨hahead.finishRow hn, hh, hlay⟩)
  · exact .inl ⟨rfl, hahead.inbox⟩

/-- `n` steps from a state with `n` rows to go end the rows (R305). -/
theorem RowsAhead.run {n : Nat} {s : State} (h : RowsAhead n s) : ∃ t, core.run n s = .next t ∧ RowsEnd s t := by
  induction n generalizing s with
  | zero =>
    have hlt := h.inv.rowInRange h.rows
    have hleft := h.left
    omega
  | succ n ih =>
    obtain ⟨t, ht, hcases⟩ := h.step
    rw [show core.run (n + 1) s = core.run n t from run_succ_of_step ht n]
    rcases hcases with ⟨hfail, hbox⟩ | ⟨rfl, hend⟩ | ⟨hahead, hh, hlay⟩
    · exact ⟨t, core_run_quiet hbox (by simp [hfail]) (by simp [hfail]) n, .inl hfail⟩
    · exact ⟨t, rfl, hend⟩
    · obtain ⟨v, hv, hend⟩ := ih hahead
      exact ⟨v, hv, hend.of_eq hh hlay⟩

/-- Settles O44, by induction on the rows to go. -/
theorem rowsEndAfterHeightSteps : Obligations.RowsEndAfterHeightSteps := by
  intro s hinv hs hbox hg
  have hlt : (s.rowY.toNat : Int) < s.h := hinv.rowInRange hs
  have hahead : RowsAhead (s.h.toNat - s.rowY.toNat) s := ⟨hinv, hs, hbox, hg, by omega⟩
  exact hahead.run

end Sys2Proof.Machine
end

section
/-! The engine's turn (spec/43_control.md R230, R231, R233), and the commands NOP, CLEAR and the reserved codes (R221,
R224, R225). -/

namespace Sys2Proof.Machine

/-! ### The engine's turn -/

/-- A byte whose low three bits are a STATE code decodes to the engine step of that STATE. -/
theorem decode_engine (c : BitVec 3) :
    decode .engine [0#5 ++ c] = .ofOption (decodeEngine c) .noEngineStep [] := by
  rw [decode, BitVec.extractLsb'_append_eq_right]

theorem engineTurn_of_decode {s : State} {i : Instr} (h : decode .engine [0#5 ++ s.runState.code] = .ok i []) :
    engineTurn s = exec i s := by
  rw [decode_engine] at h
  unfold engineTurn
  cases hd : decodeEngine s.runState.code with
  | some j => rw [hd] at h; cases h; rfl
  | none => rw [hd] at h; cases h

theorem engineTurn_of_reject {s : State} (h : decode .engine [0#5 ++ s.runState.code] = .reject .noEngineStep) :
    engineTurn s = .next s := by
  rw [decode_engine] at h
  unfold engineTurn
  cases hd : decodeEngine s.runState.code with
  | some j => rw [hd] at h; cases h
  | none => rfl

/-- A step at which the outside leaves the engine a turn. -/
theorem step_engineTurn {s : State} {rest : List HostOp} (h : s.inbox = .engineTurn :: rest) :
    step s = engineTurn { s with inbox := rest } := by rw [step, h]

/-- Settles O7. -/
theorem engineTurnRunsDecodedStep : Obligations.EngineTurnRunsDecodedStep := by
  intro s rest
  refine ⟨fun i h => ⟨fun hbox => ?_, fun hbox => ?_⟩, fun h => ⟨fun hbox => ?_, fun hbox => ?_⟩⟩
  · rw [step_of_inbox_nil hbox, engineTurn_of_decode h]
  · rw [step_engineTurn hbox]
    exact engineTurn_of_decode h
  · rw [step_of_inbox_nil hbox, engineTurn_of_reject h]
  · rw [step_engineTurn hbox]
    exact engineTurn_of_reject h

/-- Settles O9: IDLE enables no engine step, and every field of the two words is 0. -/
theorem resetStateIsAtRest : Obligations.ResetStateIsAtRest := by
  have hturn : engineTurn State.reset = .next State.reset := engineTurn_of_reject (by decide)
  exact ⟨(step_of_inbox_nil rfl).trans hturn, by decide, by decide⟩

/-! ### NOP, the reserved codes and CLEAR -/

/-- Settles O11: NOP is accepted in every state, a reserved code in none. -/
theorem nopAndReservedCodesTouchOnlyIgn : Obligations.NopAndReservedCodesTouchOnlyIgn := by
  intro s cc
  exact ⟨by rw [exec_nop, issue_accepted rfl]; rfl, by rw [exec_reservedCmd, issue_ignored rfl]; rfl⟩

/-- CLEAR where the block is not busy (R224). -/
theorem exec_clear_accepted {s : State} (h : s.busy = false) :
    exec .clear s = .next (s.withIgn false).clearToIdle := by
  rw [exec_clear, issue_accepted (by rw [State.acceptsClear, h]; rfl), clearRule, Flow.finish_ok]

/-- Settles O13: in none of the four states is the block busy. -/
theorem clearReturnsToIdle : Obligations.ClearReturnsToIdle := by
  intro s hs
  have hbusy : s.busy = false := by
    rcases hs with h | h | h | h <;> simp [State.busy, h]
  exact exec_clear_accepted hbusy

end Sys2Proof.Machine
end

section
/-! VALIDATE in IDLE (spec/43_control.md R222): the derived registers it writes, and the first check that fails. -/

namespace Sys2Proof.Machine

/-! ### The derived registers (R27) -/

/-- `t` differs from `s` only where VALIDATE writes, and its derived registers hold the exact values of R27 and R100. -/
structure ValidateWrites (s t : State) : Prop where
  frame : t = { s with
    ign := false, width := t.width, height := t.height, srcBits := t.srcBits, layout := t.layout, outb := t.outb,
    nbytes := t.nbytes, rowY := 0, ncolors := 0, colorTable := t.colorTable, runCnt := 0, runVal := 0, fillI := 0,
    scratch := t.scratch, scratchZeroed := t.scratchZeroed, runState := t.runState, err := t.err,
    failPos := t.failPos, streamPos := t.streamPos }
  width : t.width.toInt = s.boxWidth
  height : t.height.toInt = s.boxHeight
  srcBits : t.srcBits.toNat = s.bpp * s.np
  bytes : t.nbytes.toNat = s.scanBytes
  layout : (t.layout, t.outb) = layoutTable s.cfgBpp s.cfgNplanes
  table : t.colorTable = RgbTable.zero 256

/-- VALIDATE's registers, written with IGN cleared (R220, R222). -/
def State.geometryWritten (s : State) : State := (s.withIgn false).withGeometry

theorem validateWrites_geometryWritten (s : State) : ValidateWrites s s.geometryWritten where
  frame := rfl
  width := withGeometry_w (s.withIgn false)
  height := withGeometry_h (s.withIgn false)
  srcBits := withGeometry_srcBits_toNat (s.withIgn false)
  bytes := withGeometry_n (s.withIgn false)
  layout := rfl
  table := rfl

/-- What follows the derived registers, a failure entry or the end of the command, leaves them as they are. -/
theorem ValidateWrites.of_eq {s u t : State} (h : ValidateWrites s u) (e : t = { u with
      runState := t.runState, err := t.err, failPos := t.failPos, streamPos := t.streamPos, ncolors := 0
      scratch := t.scratch, scratchZeroed := t.scratchZeroed }) : ValidateWrites s t where
  frame := by rw [e, h.frame]
  width := by rw [e]; exact h.width
  height := by rw [e]; exact h.height
  srcBits := by rw [e]; exact h.srcBits
  bytes := by rw [e]; exact h.bytes
  layout := by rw [e]; exact h.layout
  table := by rw [e]; exact h.table

/-- `N` as an integer product (R27). -/
theorem scanBytes_toInt (s : State) :
    (s.scanBytes : Int) = if 0 < s.cfgBpl.toInt then s.cfgNplanes.toNat * s.cfgBpl.toInt else 0 := by
  unfold State.scanBytes State.np State.bpl
  split
  · next h => rw [Nat.cast_mul, Int.toNat_of_nonneg h.le]
  · rfl

/-! ### The checks, on the configuration (R222) -/

theorem encKnown_iff (e : Byte) : (e = 0 ∨ e = 1) ↔ ¬ 1 < e.toNat := by
  rw [← BitVec.toNat_inj, ← BitVec.toNat_inj]
  simp only [BitVec.ofNat_eq_ofNat, BitVec.toNat_ofNat]
  omega

/-- An extent is below 1 exactly where the box is inside out. -/
theorem extentBelowOne_iff (s : State) : (s.geometryWritten.w < 1 ∨ s.geometryWritten.h < 1) ↔
    (s.cfgXmax.toInt < s.cfgXmin.toInt ∨ s.cfgYmax.toInt < s.cfgYmin.toInt) := by
  have hw : s.geometryWritten.w = s.boxWidth := withGeometry_w (s.withIgn false)
  have hh : s.geometryWritten.h = s.boxHeight := withGeometry_h (s.withIgn false)
  rw [hw, hh, State.boxWidth, State.boxHeight]
  omega

/-- The state VALIDATE leaves in IDLE: the failure entry of the first check that fails, or VALIDATED. -/
def State.validateEnd (s : State) : State :=
  if 1 < s.cfgEnc.toNat then s.geometryWritten.failEntry .unsupportedFormat
  else if (layoutTable s.cfgBpp s.cfgNplanes).1 = .none then s.geometryWritten.failEntry .unsupportedFormat
  else if s.cfgXmax.toInt < s.cfgXmin.toInt ∨ s.cfgYmax.toInt < s.cfgYmin.toInt then
    s.geometryWritten.failEntry .unsupportedFormat
  else if s.params.scratchCap < s.geometryWritten.nbytes.toNat then s.geometryWritten.failEntry .outOfMemory
  else { s.geometryWritten.zeroScratch with runState := .validated }

/-- VALIDATE in IDLE clears IGN, writes its registers and makes its checks. -/
theorem exec_validate_accepted {s : State} (hs : s.runState = .idle) :
    exec .validate s = .next s.validateEnd := by
  have hrun : exec .validate s = (validateChecks s.geometryWritten).finish := by
    rw [exec_validate, issue_accepted (decide_eq_true hs)]
    rfl
  have hcode := encKnown_iff s.cfgEnc
  have hlisted : s.geometryWritten.layout = .none ↔ (layoutTable s.cfgBpp s.cfgNplanes).1 = .none := Iff.rfl
  have hextent := extentBelowOne_iff s
  have hcapacity : s.geometryWritten.params.scratchCap < s.geometryWritten.n ↔
      s.params.scratchCap < s.geometryWritten.nbytes.toNat := Iff.rfl
  rw [hrun, State.validateEnd]
  rcases validateChecks_cases s.geometryWritten with ⟨henc, e⟩ | ⟨henc, hlay, e⟩ | ⟨henc, hlay, hbox, e⟩ |
    ⟨henc, hlay, hw, hh, hcap, e⟩ | ⟨henc, hlay, hw, hh, hcap, e⟩ <;> rw [e]
  · rw [if_pos (not_not.1 (mt hcode.2 henc)), Flow.finish_fail]
  · rw [if_neg (hcode.1 henc), if_pos (hlisted.1 hlay), Flow.finish_fail]
  · rw [if_neg (hcode.1 henc), if_neg (mt hlisted.2 hlay), if_pos (hextent.1 hbox), Flow.finish_fail]
  · rw [if_neg (hcode.1 henc), if_neg (mt hlisted.2 hlay), if_neg (mt hextent.2 (by omega)),
      if_pos (hcapacity.1 hcap), Flow.finish_fail]
  · rw [if_neg (hcode.1 henc), if_neg (mt hlisted.2 hlay), if_neg (mt hextent.2 (by omega)),
      if_neg (mt hcapacity.2 (Nat.not_lt.2 hcap)), Flow.finish_ok]

theorem validateWrites_validateEnd (s : State) : ValidateWrites s s.validateEnd := by
  have h := validateWrites_geometryWritten s
  unfold State.validateEnd
  split_ifs <;> exact h.of_eq rfl

/-- The failure entry of a check: at the stream position the host had written, the scratch buffer untouched. -/
theorem geometryWritten_failEntry (s : State) (k : ErrKind) :
    failedAt (s.geometryWritten.failEntry k) k s.streamPos.toNat ∧
      (s.geometryWritten.failEntry k).scratch = s.scratch ∧
      (s.geometryWritten.failEntry k).scratchZeroed = s.scratchZeroed :=
  ⟨failedAt_failEntry s.geometryWritten k, rfl, rfl⟩

theorem validateEnd_nbytes (s : State) : s.validateEnd.nbytes = s.geometryWritten.nbytes :=
  BitVec.eq_of_toNat_eq
    ((validateWrites_validateEnd s).bytes.trans (validateWrites_geometryWritten s).bytes.symm)

/-- Settles O14: the registers are written in every case, then the checks decide in their order. -/
theorem validateComputesGeometryAndChecks : Obligations.ValidateComputesGeometryAndChecks := by
  intro s hs
  have h := validateWrites_validateEnd s
  refine ⟨s.validateEnd, exec_validate_accepted hs, h.frame, h.width, h.height, h.srcBits, ?_, h.layout, ?_, ?_⟩
  · rw [h.bytes, scanBytes_toInt]
  · intro i
    rw [h.table, RgbTable.get_zero]
  · rw [validateEnd_nbytes]
    unfold State.validateEnd
    split_ifs
    · exact geometryWritten_failEntry s .unsupportedFormat
    · exact geometryWritten_failEntry s .unsupportedFormat
    · exact geometryWritten_failEntry s .unsupportedFormat
    · exact geometryWritten_failEntry s .outOfMemory
    · exact ⟨rfl, rfl, rfl, rfl, fun _ => rfl⟩

/-- Settles O16: under its conditions no check fails. -/
theorem validateCompletes : Obligations.ValidateCompletes := by
  intro s hs henc hlay hx hy hcap
  obtain ⟨t, ht, hframe, -, -, -, hbytes, -, -, hchecks⟩ := validateComputesGeometryAndChecks s hs
  have hbox : ¬(s.cfgXmax.toInt < s.cfgXmin.toInt ∨ s.cfgYmax.toInt < s.cfgYmin.toInt) := by omega
  have hfits : ¬ s.params.scratchCap < t.nbytes.toNat := by omega
  rw [if_neg ((encKnown_iff s.cfgEnc).1 henc), if_neg hlay, if_neg hbox, if_neg hfits] at hchecks
  obtain ⟨hstate, -, -, hpos, -⟩ := hchecks
  exact ⟨t, ht, hstate, by rw [hframe], hpos, by rw [hframe], by rw [hframe]⟩

end Sys2Proof.Machine
end

section
/-! The register window as the host writes and reads it (spec/10_state.md R21, R34, R35; spec/43_control.md R226,
R227). -/

namespace Sys2Proof.Machine

/-! ### Held bits (R21, R22) -/

/-- A word cut to `k` bits and read back keeps its `k` low bits. -/
theorem setWidth_setWidth_eq_and {k : Nat} (hk : k ≤ 32) (w : Word) :
    (w.setWidth k).setWidth 32 = w &&& BitVec.ofNat 32 (2 ^ k - 1) := by
  have hpow : 2 ^ k ≤ 2 ^ 32 := Nat.pow_le_pow_right (by decide) hk
  have hpos : 0 < 2 ^ k := Nat.two_pow_pos k
  have hmod : w.toNat % 2 ^ k < 2 ^ k := Nat.mod_lt _ hpos
  apply BitVec.eq_of_toNat_eq
  rw [BitVec.toNat_setWidth, BitVec.toNat_setWidth, BitVec.toNat_and, BitVec.toNat_ofNat,
    Nat.mod_eq_of_lt (a := 2 ^ k - 1) (by omega), Nat.and_two_pow_sub_one_eq_mod, Nat.mod_eq_of_lt (by omega)]

/-- A register of `k` bits reads with every bit above them 0. -/
theorem setWidth_and_not_mask {k : Nat} (x : BitVec k) (hk : k ≤ 32) :
    x.setWidth 32 &&& ~~~(BitVec.ofNat 32 (2 ^ k - 1)) = 0 := by
  have hx : x.setWidth 32 = x.setWidth 32 &&& BitVec.ofNat 32 (2 ^ k - 1) := by
    rw [← setWidth_setWidth_eq_and hk, BitVec.setWidth_setWidth_of_le x hk, BitVec.setWidth_eq]
  rw [hx, BitVec.and_assoc, BitVec.and_not_self]
  exact BitVec.and_zero

/-- STATUS holds bits [2:0], [6:4] and [8] only (R23). -/
theorem statusFields_unheld (ign : BitVec 1) (err state : BitVec 3) :
    (0#23 ++ ign ++ 0#1 ++ err ++ 0#1 ++ state) &&&
      ~~~(0#23 ++ BitVec.allOnes 1 ++ 0#1 ++ BitVec.allOnes 3 ++ 0#1 ++ BitVec.allOnes 3) = 0 := by
  simp only [BitVec.not_append, BitVec.and_append, BitVec.not_allOnes, BitVec.and_zero, BitVec.zero_and]
  rfl

/-- FORMAT holds bits [1:0], [7:4] and [31:16] only (R27). -/
theorem formatFields_unheld (srcBits : BitVec 16) (outb : BitVec 4) (layout : BitVec 2) :
    (srcBits ++ 0#8 ++ outb ++ 0#2 ++ layout) &&&
      ~~~(BitVec.allOnes 16 ++ 0#8 ++ BitVec.allOnes 4 ++ 0#2 ++ BitVec.allOnes 2) = 0 := by
  simp only [BitVec.not_append, BitVec.and_append, BitVec.not_allOnes, BitVec.and_zero, BitVec.zero_and]
  rfl

/-- Unheld bits read 0 (R22, R35). -/
theorem readReg_unheld (r : Reg) (s : State) : readReg r s &&& ~~~heldMask r = 0 := by
  cases r with
  | cmd | reserved => exact BitVec.zero_and
  | status => exact statusFields_unheld _ _ _
  | format => exact formatFields_unheld _ _ _
  | rowY | width | height | nbytes | cfgPitch | cfgOutBase | streamOrigin | streamPos | streamLen | failPos =>
    exact BitVec.and_zero
  | ncolors | cfgEnc | cfgBpp | cfgNplanes | cfgBpl | cfgXmin | cfgYmin | cfgXmax | cfgYmax | inlinePal _
  | colorTable _ => exact setWidth_and_not_mask _ (by decide)

/-! ### Writes (R34, R226) -/

/-- What an accepted write to a register leaves (R226); a register that is never written stays. -/
def storeReg (r : Reg) (w : Word) (s : State) : State :=
  match r with
  | .cfgEnc => { s with cfgEnc := w.setWidth 8 }
  | .cfgBpp => { s with cfgBpp := w.setWidth 8 }
  | .cfgNplanes => { s with cfgNplanes := w.setWidth 8 }
  | .cfgBpl => { s with cfgBpl := w.setWidth 16 }
  | .cfgXmin => { s with cfgXmin := w.setWidth 16 }
  | .cfgYmin => { s with cfgYmin := w.setWidth 16 }
  | .cfgXmax => { s with cfgXmax := w.setWidth 16 }
  | .cfgYmax => { s with cfgYmax := w.setWidth 16 }
  | .cfgPitch => { s with cfgPitch := w }
  | .cfgOutBase => { s with cfgOutBase := w }
  | .streamOrigin => { s with streamOrigin := w }
  | .streamPos => { s with streamPos := w }
  | .streamLen => { s with streamLen := w }
  | .inlinePal k => { s with inlinePal := s.inlinePal.set k (w.setWidth 24) }
  | _ => s

/-- A write stores inside the register's window and sets IGN outside it; CMD is not written here (R34, R35). -/
theorem writeReg_eq {r : Reg} (hr : r ≠ .cmd) (w : Word) (s : State) :
    writeReg r w s = if accepts r s.runState = true then storeReg r w s else s.withIgn true := by
  cases r with
  | cmd => exact absurd rfl hr
  | _ => rfl

/-- A store reaches the writable registers only. -/
theorem storeReg_frame (r : Reg) (w : Word) (s : State) : storeReg r w s = { s with
    cfgEnc := (storeReg r w s).cfgEnc, cfgBpp := (storeReg r w s).cfgBpp, cfgNplanes := (storeReg r w s).cfgNplanes
    cfgBpl := (storeReg r w s).cfgBpl, cfgXmin := (storeReg r w s).cfgXmin, cfgYmin := (storeReg r w s).cfgYmin
    cfgXmax := (storeReg r w s).cfgXmax, cfgYmax := (storeReg r w s).cfgYmax, cfgPitch := (storeReg r w s).cfgPitch
    cfgOutBase := (storeReg r w s).cfgOutBase, streamOrigin := (storeReg r w s).streamOrigin
    streamPos := (storeReg r w s).streamPos, streamLen := (storeReg r w s).streamLen
    inlinePal := (storeReg r w s).inlinePal } := by
  cases r <;> rfl

/-- A register of the window: there are 16 inline palette entries (R32). -/
def Reg.inWindow : Reg → Bool
  | .inlinePal k => decide (k < 16)
  | _ => true

/-- A register that some state accepts a write to reads, once stored, as the word's held bits. -/
theorem readReg_storeReg_same {r : Reg} {st : RunState} (hr : r.inWindow = true) (h : accepts r st = true)
    (w : Word) (s : State) : readReg r (storeReg r w s) = w &&& heldMask r := by
  cases r with
  | cfgEnc | cfgBpp | cfgNplanes | cfgBpl | cfgXmin | cfgYmin | cfgXmax | cfgYmax =>
    exact setWidth_setWidth_eq_and (by decide) w
  | inlinePal k =>
    rw [storeReg, readReg, RgbTable.get_set, if_pos ⟨rfl, of_decide_eq_true hr⟩]
    exact setWidth_setWidth_eq_and (by decide) w
  | cfgPitch | cfgOutBase | streamOrigin | streamPos | streamLen => exact BitVec.and_allOnes.symm
  | cmd | status | rowY | format | width | height | nbytes | ncolors | failPos | colorTable _ | reserved => cases h

/-- A store changes what no other register reads: each reads a field of its own. -/
theorem readReg_storeReg_other {r o : Reg} (ho : o ≠ r) (w : Word) (s : State) :
    readReg o (storeReg r w s) = readReg o s := by
  cases r with
  | cfgEnc | cfgBpp | cfgNplanes | cfgBpl | cfgXmin | cfgYmin | cfgXmax | cfgYmax | cfgPitch | cfgOutBase
  | streamOrigin | streamPos | streamLen =>
    cases o <;> simp [readReg, storeReg, State.statusWord, State.formatWord] at ho ⊢
  | inlinePal k =>
    cases o with
    | inlinePal j =>
      have hj : j ≠ k := fun e => ho (congrArg Reg.inlinePal e)
      rw [storeReg, readReg, readReg, RgbTable.get_set, if_neg fun h => hj h.1]
    | _ => rfl
  | cmd | status | rowY | format | width | height | nbytes | ncolors | failPos | colorTable _ | reserved => rfl

theorem lowRegs_inWindow : ∀ i < 22, (lowRegs.getD i .reserved).inWindow = true := by decide

theorem regAt_inWindow (offset : BitVec 12) : (regAt offset).inWindow = true := by
  simp only [regAt]
  split
  · next h => exact lowRegs_inWindow _ h
  · split
    · next h => exact decide_eq_true (by omega)
    · split <;> rfl

/-- The step of a host write to a register other than CMD. -/
theorem step_write {s : State} {offset : BitVec 12} {w : Word} {rest : List HostOp}
    (hbox : s.inbox = .write offset w :: rest) (hcmd : regAt offset ≠ .cmd) :
    step s = .next (writeReg (regAt offset) w { s with inbox := rest }) := by
  rw [step, hbox]
  exact if_neg hcmd

/-- Settles O52: the step is the register's write, which stores in its window and only sets IGN outside it. -/
theorem hostWriteFollowsItsWindow : Obligations.HostWriteFollowsItsWindow := by
  intro s offset w rest hbox hcmd
  refine ⟨_, step_write hbox hcmd, fun h => ?_, fun h => ?_⟩
  · rw [writeReg_eq hcmd, if_pos h]
    refine ⟨readReg_storeReg_same (regAt_inWindow offset) h w _, fun o ho => readReg_storeReg_other ho w _, ?_⟩
    rw [storeReg_frame]
    exact ⟨rfl, rfl, rfl, rfl, rfl, rfl, rfl, rfl, rfl⟩
  · rw [writeReg_eq hcmd, if_neg (by rw [h]; decide)]
    rfl

/-! ### Reads (R66, R227) -/

/-- Clearing the low two bits of an offset leaves the number of its word. -/
theorem aligned_toNat_div (offset : BitVec 12) : (offset &&& 0xFFC).toNat / 4 = offset.toNat / 4 := by
  have hlt := offset.isLt
  rw [BitVec.toNat_and, ← Nat.shiftRight_eq_div_pow _ 2, Nat.shiftRight_and_distrib]
  show offset.toNat >>> 2 &&& 2 ^ 10 - 1 = _
  rw [Nat.and_two_pow_sub_one_eq_mod, Nat.shiftRight_eq_div_pow]
  omega

/-- Bits [1:0] of an offset select nothing (R66). -/
theorem regAt_aligned (offset : BitVec 12) : regAt (offset &&& 0xFFC) = regAt offset := by
  unfold regAt
  rw [aligned_toNat_div]

/-- The step of a host read. -/
theorem step_read {s : State} {offset : BitVec 12} {rest : List HostOp} (hbox : s.inbox = .read offset :: rest) :
    step s = .next (hostRead offset { s with inbox := rest }) := by rw [step, hbox]

/-- A read does not see what the outside does next. -/
theorem readReg_withInbox (r : Reg) (s : State) (l : List HostOp) : readReg r { s with inbox := l } = readReg r s := by
  cases r <;> rfl

/-- Settles O53: the word is the register's, whose unheld bits are 0, and the bus is all that changes. -/
theorem hostReadHasNoSideEffect : Obligations.HostReadHasNoSideEffect := by
  intro s offset rest hbox
  refine ⟨readReg (regAt offset) s, ?_, by rw [regAt_aligned], readReg_unheld _ s⟩
  rw [step_read hbox, hostRead, readReg_withInbox]

end Sys2Proof.Machine
end

section
/-! FAILED as a resting state (spec/60_exceptions.md R267, R268): what the operations of the datapath leave of STATE,
and the instructions that FAILED does not enable. -/

namespace Sys2Proof.Machine

/-! ### Operations that do not write STATE -/

theorem OnlyOut.runState {s t : State} (h : OnlyOut s t) : t.runState = s.runState := by rw [h]

theorem palInline_runState (s : State) : (palInline s).Ends fun u => u.runState = s.runState := by
  unfold palInline
  split
  · trivial
  · exact rfl

theorem palTrailing_runState (s : State) : (palTrailing s).Ends fun u => u.runState = s.runState := by
  rcases palTrailing_cases s with ⟨p, table, _, e⟩ | ⟨p, e⟩ | ⟨_, e⟩ <;> rw [e]
  · exact rfl
  · exact rfl
  · trivial

/-- An operation that leaves STATE alone and begins in FAILED ends there, by its end or by the failure entry (R266). -/
theorem Flow.Ends.finish_failed {x : Flow Unit} {s t : State} (hx : x.Ends fun u => u.runState = s.runState)
    (hs : s.runState = .failed) (h : x.finish = .next t) : t.runState = .failed :=
  hx.finish h (fun _ hu => hu.trans hs) fun u k _ => State.failEntry_runState u k

/-! ### Engine steps that are not enabled (R230, R231) -/

theorem exec_rowStep_disabled {s : State} (h : s.runState ≠ .rows) : exec .rowStep s = .next s := by
  rw [exec, execRowStep, if_neg h]

theorem exec_palStep_disabled {s : State} (h : s.runState ≠ .palette) : exec .palStep s = .next s := by
  rw [exec, execPalStep, if_neg h]

/-- Settles O50, instruction by instruction: the datapath operations do not write STATE, FAILED enables neither engine
step, and VALIDATE and START are not accepted there. -/
theorem failedIsLeftOnlyByClear : Obligations.FailedIsLeftOnlyByClear := by
  intro i s t h hs hi
  have ofFill {x : Flow Unit} (hx : x.Ends (FillKeeps s)) (h : x.finish = .next t) : t.runState = .failed :=
    (hx.mono fun _ hu => hu.frame.runState).finish_failed hs h
  have ofOut {x : Flow Unit} (hx : x.Ends (OutKeeps s)) (h : x.finish = .next t) : t.runState = .failed :=
    (hx.mono fun _ hu => hu.1.runState).finish_failed hs h
  have ofKept {u : State} (hu : u.runState = s.runState) {o : Host.Outcome State Fault Refusal} (e : o = .next u)
      (h : o = .next t) : t.runState = .failed := by
    rw [e] at h
    cases h
    exact hu.trans hs
  cases i with
  | lit v => exact ofFill (lit_keeps v s) h
  | run0 v => exact ofFill (run0_keeps v s) h
  | run n v => exact ofFill (run_keeps n v s) h
  | fillRaw => exact ofFill (fillRaw_keeps s) h
  | fillRle => exact ofFill (fillRle_keeps s) h
  | unpackSub np => exact ofOut (unpackSub_keeps np.toNat (OutKeeps.refl s)) h
  | unpackIdx8 => exact ofOut (unpackIdx8_keeps (OutKeeps.refl s)) h
  | unpackRgb24 => exact ofOut (unpackRgb24_keeps (OutKeeps.refl s)) h
  | clearRow => exact ofOut (clearRow_keeps (OutKeeps.refl s)) h
  | palInline => exact (palInline_runState s).finish_failed hs h
  | palTrailing => exact (palTrailing_runState s).finish_failed hs h
  | rowStep => exact ofKept rfl (exec_rowStep_disabled (by simp [hs])) h
  | palStep => exact ofKept rfl (exec_palStep_disabled (by simp [hs])) h
  | nop => exact ofKept (State.withIgn_runState s false) (nopAndReservedCodesTouchOnlyIgn s 0).1 h
  | validate => exact ofKept (State.withIgn_runState s true) (exec_validate_ignored (by simp [hs])) h
  | start => exact ofKept (State.withIgn_runState s true) (exec_start_ignored (by simp [hs])) h
  | clear => exact absurd rfl hi
  | reservedCmd cc => exact ofKept (State.withIgn_runState s true) (nopAndReservedCodesTouchOnlyIgn s cc).2 h

end Sys2Proof.Machine
end

section
/-! The reset input and the state after reset (spec/70_reset_and_hazards.md R290, R291). -/

namespace Sys2Proof.Machine

/-- A step at which the outside resets the block. -/
theorem step_reset {s : State} {rest : List HostOp} (hbox : s.inbox = .reset :: rest) :
    step s = .next { s with inbox := rest }.hardReset := by rw [step, hbox]

/-- Every register reads 0 after the reset input, as it does in the state after reset: both tables are empty, the two
composed words are 0 (R292), and every other register is a field that is 0. -/
@[simp] theorem readReg_hardReset (r : Reg) (s : State) : readReg r s.hardReset = 0 := by
  obtain ⟨-, hstatus, hformat⟩ := resetStateIsAtRest
  cases r with
  | status => exact hstatus
  | format => exact hformat
  | inlinePal k => exact congrArg (BitVec.setWidth 32) (RgbTable.get_zero 16 k)
  | colorTable i => exact congrArg (BitVec.setWidth 32) (RgbTable.get_zero 256 i)
  | cmd | reserved => rfl
  | rowY | width | height | nbytes | ncolors | failPos => rfl
  | cfgEnc | cfgBpp | cfgNplanes | cfgBpl | cfgXmin | cfgYmin | cfgXmax | cfgYmax | cfgPitch | cfgOutBase => rfl
  | streamOrigin | streamPos | streamLen => rfl

/-- Settles O10: the step is the hard reset; the registers read 0 there, and the other fields are those it names. -/
theorem resetInputClearsEveryRegister : Obligations.ResetInputClearsEveryRegister := by
  intro s rest hbox
  have hregs := fun r => readReg_hardReset r { s with inbox := rest }
  exact ⟨_, step_reset hbox, rfl, rfl, rfl, hregs, rfl, rfl, rfl, rfl, rfl, rfl, rfl, rfl, rfl, rfl⟩

/-- Settles O57: reset is IDLE with no error, nothing listed in any byte space, and every colour 0. -/
theorem resetMeetsInvariant : Obligations.ResetMeetsInvariant :=
  have hlists : State.reset.ListsWf := ⟨Memory.wf_nil, Memory.wf_nil, rfl, fun _ => Memory.wf_nil⟩
  State.inv_of_idle rfl hlists rfl fun i _ => RgbTable.get_zero 256 i

end Sys2Proof.Machine
end
